-- ==== Sys2Proof/Word.lean ====
section
/-! DEFINITION. The word, byte, text and pulse-train types of the block (00_scope.md rules R10, R12). -/

namespace Sys2Proof

/-- A 32-bit unsigned word: every timestamp, duration, pulse, configuration value, repeat count and
command word (R10). -/
abbrev Word := BitVec 32

/-- One byte of a text (R12). -/
abbrev Byte := BitVec 8

/-- A finite byte sequence; equality is equality of length and bytes (R11, R12). -/
abbrev Text := List Byte

/-- A list of pulse durations in microseconds (R6). The bound `length ≤ CAP` is checked by
`WellFormed.trainOk`. -/
abbrev Train := List Word

/-- A difference of timestamps, modulo 2^32 (R10). -/
abbrev elapsed (now before : Word) : Word := now - before

end Sys2Proof
end

