-- ==== Sys2Proof/Config.lean ====
section
/-! DEFINITION. The parameters of the block (00_scope.md rules R2, R3, R5, R6): the sized constants with
the values of R2, the type of an instantiation (the OPEN parameters), and the values nothing fixes. -/

namespace Sys2Proof.Config

/-! ## Constants of R2 (log 18: fixed at the spec's values) -/

/-- NSLOTS, the number of ring slots. -/
abbrev nslots : Nat := 10
/-- CAP, the capacity of a slot in pulses and the maximum length of a train. -/
abbrev cap : Nat := 255
/-- MINGAPLEN_RST, in microseconds. -/
abbrev minGapLenRst : Word := 5100
/-- MINRAWLEN_RST. -/
abbrev minRawLenRst : Word := 5
/-- MAXRAWLEN_RST = CAP. -/
abbrev maxRawLenRst : Word := BitVec.ofNat 32 cap
/-- BURST_WINDOW, in microseconds. -/
abbrev burstWindow : Word := 500000
/-- REPEAT_SENTINEL. -/
abbrev repeatSentinel : Word := 100
/-- TX_REPEATS_DEFAULT, the assembler's default (R94). -/
abbrev txRepeatsDefault : BitVec 16 := 10
/-- TC_MAXTYPES. -/
abbrev tcMaxTypes : Nat := 16
/-- TC_BUCKET, in microseconds. -/
abbrev tcBucket : Nat := 50
/-- TC_TOL, in buckets. -/
abbrev tcTol : Nat := 2

/-! ## Configuration functions as plain data -/

/-- A pure total function of the configuration (R5, R6), written as data (log 2): either a finite table
with one answer for every argument not listed, or the `n`-th function of a library nothing is known of. -/
inductive Fn (α β : Type) where
  | table (rows : List (α × β)) (otherwise : β)
  | external (n : Nat)
  deriving DecidableEq, Repr, Inhabited

/-- The library of unknown configuration functions: a free value, one function per number (log 2). -/
opaque external {α β : Type} [Inhabited β] : Nat → α → β

/-- A structured document, known only by a handle: R5 leaves the type opaque (log 3). -/
abbrev Doc := Nat

/-- A real number as R193 reads it (R5, log 4): a rational as itself; an irrational by its integer part
(its floor) and by whether what lies beyond that is more than a half. -/
inductive Number where
  | rational (x : Rat)
  | irrational (whole : Int) (upper : Bool)
  deriving DecidableEq, Repr, Inhabited

/-- The structured-message codec J (R5). `parse` is consulted only where `valid` holds; `num` gives a real
number as `Number` writes it (log 4). -/
structure Codec where
  valid  : Fn Text Bool
  parse  : Fn Text Doc
  encode : Fn Doc Text
  num    : Fn (Doc × Text) (Option Number)
  str    : Fn (Doc × Text) (Option Text)
  deriving DecidableEq, Repr, Inhabited

/-- One descriptor of the canonical registry: its constant fields and its optional capabilities (R6). -/
structure Descriptor where
  id        : Text
  minrawlen : Word
  maxrawlen : Word
  mingaplen : Word
  maxgaplen : Word
  validate  : Option (Fn Train Bool)
  parse     : Option (Fn Train (Option Doc))
  create    : Option (Fn Doc (Option Train))
  deriving DecidableEq, Repr, Inhabited

/-- An instantiation of the block: the parameters R2 marks OPEN. NPROTO is the length of `protocols`;
TXT_MAX is a 32-bit number because the byte count of a text item is one (log 15). -/
structure Instantiation where
  minPulse  : Word
  maxPulse  : Word
  protocols : List Descriptor
  codec     : Codec
  devidKey  : Text
  txtMax    : Word
  deriving DecidableEq, Repr, Inhabited

/-- NPROTO (R2). -/
def Instantiation.nproto (c : Instantiation) : Nat := c.protocols.length

/-- The constraints of R3 on an instantiation; the ones on NSLOTS, CAP and the widths hold by the
constants above. A premise of the statements that need it, never assumed of the opaque instantiation. -/
abbrev Instantiation.Admissible (c : Instantiation) : Prop :=
  c.minPulse < c.maxPulse ∧ (c.protocols.map Descriptor.id).Nodup

/-- The instantiation of the block the model stands for: no value of it is known (log 1). -/
opaque instantiation : Instantiation

/-- The CLOCK value of the `n`-th draw that no input supplies: a free value (R7, log 5). -/
opaque freeClock : Nat → Word

end Sys2Proof.Config
end

