-- ==== Sys2Proof/Syntax.lean ====
section
/-! DEFINITION. The steps of the block as syntax: one constructor per row of spec/opcode_table.json
(30_encoding.md rule R90): the ten commands of the CMD port and the sampler's step EDGE. -/

namespace Sys2Proof

/-- The ten commands and the sampler step (R90). Operands are raw; `WellFormed` checks their bounds. -/
inductive Instr where
  /-- CRR: read control register `n` (R120). -/
  | crr (n : BitVec 8)
  /-- CRW: write `v` to control register `n` (R122). -/
  | crw (n : BitVec 8) (v : Word)
  /-- NEXTLEN: peek at the length of the next train (R160). -/
  | nextlen
  /-- RECV: drain the next train (R161). -/
  | recv
  /-- DECODE: dispatch a train to the active protocols (R180). -/
  | decode (train : Train)
  /-- ENCODE: build a train from a message (R220). -/
  | encode (id message : Text) (capacity : Word)
  /-- TX: transmit a train `repeats` times (R230). -/
  | tx (repeats : BitVec 16) (train : Train)
  /-- LIMIT: restrict decoding to a list of protocol ids (R250). -/
  | limit (ids : List Text)
  /-- PT2STR: encode a train as a text token (R270). -/
  | pt2str (train : Train)
  /-- STR2PT: decode a text token into a train (R280). -/
  | str2pt (token : Text) (maxlen : Word)
  /-- EDGE: one receive edge with the CLOCK value the sampler reads (R89, R140). Not a command. -/
  | edge (now : Word)
  deriving DecidableEq, Repr

end Sys2Proof
end

