-- ==== Sys2Proof/WellFormed.lean ====
section
/-! DEFINITION. The operand bounds of a well-formed frame (30_encoding.md rule R87 (d), (e)). Rule R87
(a), (b), (c) concern words, not syntax, and are the decoder's. -/

namespace Sys2Proof

/-- A PT item has at most CAP words (R87 (d)). -/
def trainOk (p : Train) : Bool := decide (p.length ≤ Config.cap)

/-- A TXT item has at most TXT_MAX bytes (R87 (e)). -/
def textOk (txtMax : Word) (t : Text) : Bool := !decide (txtMax.toNat < t.length)

/-- The count word of a TXTLIST is a 32-bit number (R82), and every text of it is within TXT_MAX. -/
def textsOk (txtMax : Word) (ts : List Text) : Bool :=
  decide (ts.length < 2 ^ 32) && ts.all (textOk txtMax)

/-- The operands of `i` are ones a well-formed frame can carry, for a given TXT_MAX. -/
def Instr.wellFormed (txtMax : Word) : Instr → Bool
  | .crr _ => true
  | .crw _ _ => true
  | .nextlen => true
  | .recv => true
  | .decode p => trainOk p
  | .encode id message _ => textOk txtMax id && textOk txtMax message
  | .tx _ p => trainOk p
  | .limit ids => textsOk txtMax ids
  | .pt2str p => trainOk p
  | .str2pt token _ => textOk txtMax token
  | .edge _ => true

/-- EDGE is a step of the sampler, every other constructor a command of the CMD port (R89). -/
def Instr.isCommand : Instr → Bool
  | .edge _ => false
  | .crr _ | .crw _ _ | .nextlen | .recv | .decode _ | .encode _ _ _ | .tx _ _ | .limit _ | .pt2str _
  | .str2pt _ _ => true

end Sys2Proof
end

