-- ==== Sys2Proof/Decode.lean ====
section
/-! DEFINITION. Decoding and encoding of command frames (30_encoding.md rules R80 to R92), total, with
every rejection named; the trace form of both agents' steps (R89); and the result of laying out one row
of the opcode table as words. -/

namespace Sys2Proof

/-! ## Text packing (R83) -/

/-- The data word that holds the bytes `a`, `b`, `c`, `d` of a text, `a` in the low bits (R83). -/
def packWord (a b c d : Byte) : Word := d ++ c ++ b ++ a

/-- The data words of a text: four bytes a word, little-endian, padded with 0x00 (R83). -/
def packText : Text → List Word
  | [] => []
  | [a] => [packWord a 0 0 0]
  | [a, b] => [packWord a b 0 0]
  | [a, b, c] => [packWord a b c 0]
  | a :: b :: c :: d :: rest => packWord a b c d :: packText rest

/-- The four bytes of a data word, byte 0 first (R83). -/
def unpackWord (w : Word) : List Byte :=
  [w.extractLsb' 0 8, w.extractLsb' 8 8, w.extractLsb' 16 8, w.extractLsb' 24 8]

/-- The first `b` bytes of a list of data words; the padding after them is ignored (R83). -/
def unpackText (b : Nat) (ws : List Word) : Text := (ws.flatMap unpackWord).take b

/-- How many data words a text of `b` bytes takes: b / 4 rounded up (R82). -/
def textWords (b : Nat) : Nat := (b + 3) / 4

/-! ## The command word (R81) -/

/-- OPC, bits 31:24. -/
def opcOf (cmd : Word) : BitVec 8 := cmd.extractLsb' 24 8
/-- SEL, bits 23:16. -/
def selOf (cmd : Word) : BitVec 8 := cmd.extractLsb' 16 8
/-- IMM, bits 15:0. -/
def immOf (cmd : Word) : BitVec 16 := cmd.extractLsb' 0 16

/-- The command word with the given fields (R81). -/
def cmdWord (opc sel : BitVec 8) (imm : BitVec 16) : Word := opc ++ sel ++ imm

/-! ## Rejections -/

/-- Why a list of words is no well-formed frame (R87, R91). Every reason is answered by E_ILLEGAL. -/
inductive Reject where
  /-- A record with no word at all (R80 asks k ≥ 1). -/
  | empty
  /-- OPC is not assigned (R91). -/
  | reservedOpcode
  /-- OPC is 0xFF on CMD: EDGE is not a command (R89, R91). -/
  | edgeNotCommand
  /-- SEL is not 0 where it must be (R91). -/
  | nonzeroSel
  /-- IMM is not 0 where it must be (R91). -/
  | nonzeroImm
  /-- An argument word is missing (R87 (c)). -/
  | missingWord
  /-- Words are left over after the last item (R87 (c)). -/
  | extraWord
  /-- A PT item longer than CAP (R87 (d)). -/
  | trainTooLong
  /-- A TXT item longer than TXT_MAX (R87 (e)). -/
  | textTooLong
  deriving DecidableEq, Repr

/-- What reading an item from the head of a word list gives: a reason, or the item and the words left. -/
abbrev Parse (α : Type) := Except Reject (α × List Word)

/-! ## Argument items (R82, R86) -/

/-- A W item. -/
def takeW : List Word → Parse Word
  | [] => .error .missingWord
  | w :: ws => .ok (w, ws)

/-- A PT item: the count, then that many pulse words. -/
def takePT : List Word → Parse Train
  | [] => .error .missingWord
  | n :: ws =>
    if Config.cap < n.toNat then .error .trainTooLong
    else if ws.length < n.toNat then .error .missingWord
    else .ok (ws.take n.toNat, ws.drop n.toNat)

/-- A TXT item: the byte count, then the data words. -/
def takeTXT (txtMax : Word) : List Word → Parse Text
  | [] => .error .missingWord
  | b :: ws =>
    if txtMax.toNat < b.toNat then .error .textTooLong
    else if ws.length < textWords b.toNat then .error .missingWord
    else .ok (unpackText b.toNat (ws.take (textWords b.toNat)), ws.drop (textWords b.toNat))

/-- `m` TXT items one after another. -/
def takeTexts (txtMax : Word) : Nat → List Word → Parse (List Text)
  | 0, ws => .ok ([], ws)
  | m + 1, ws =>
    match takeTXT txtMax ws with
    | .error e => .error e
    | .ok (t, ws) =>
      match takeTexts txtMax m ws with
      | .error e => .error e
      | .ok (ts, ws) => .ok (t :: ts, ws)

/-- A TXTLIST item: the count, then that many TXT items. -/
def takeTXTLIST (txtMax : Word) : List Word → Parse (List Text)
  | [] => .error .missingWord
  | m :: ws => takeTexts txtMax m.toNat ws

/-! ## Frames (R87, R90, R92) -/

/-- The instruction that a W-, PT-, TXT- or TXTLIST-reader gives, once its item is read. -/
def Parse.andThen {α β : Type} (p : Parse α) (k : α → List Word → Parse β) : Parse β :=
  match p with
  | .error e => .error e
  | .ok (a, ws) => k a ws

/-- SEL must be 0 (R90). -/
def needSel0 {α : Type} (cmd : Word) (k : Parse α) : Parse α :=
  if selOf cmd = 0 then k else .error .nonzeroSel

/-- IMM must be 0 (R90). -/
def needImm0 {α : Type} (cmd : Word) (k : Parse α) : Parse α :=
  if immOf cmd = 0 then k else .error .nonzeroImm

/-- Reads one command: the command word by R81 and R90, then the argument items in order, and answers
the command with the words left over (R92). -/
def parseCommand (txtMax cmd : Word) (args : List Word) : Parse Instr :=
  match (opcOf cmd).toNat with
  | 0x01 => needImm0 cmd (.ok (.crr (selOf cmd), args))
  | 0x02 => needImm0 cmd ((takeW args).andThen fun v ws => .ok (.crw (selOf cmd) v, ws))
  | 0x10 => needSel0 cmd (needImm0 cmd (.ok (.nextlen, args)))
  | 0x11 => needSel0 cmd (needImm0 cmd (.ok (.recv, args)))
  | 0x20 => needSel0 cmd (needImm0 cmd ((takePT args).andThen fun p ws => .ok (.decode p, ws)))
  | 0x30 =>
    needSel0 cmd (needImm0 cmd ((takeTXT txtMax args).andThen fun id ws =>
      (takeTXT txtMax ws).andThen fun message ws =>
        (takeW ws).andThen fun capacity ws => .ok (.encode id message capacity, ws)))
  | 0x31 => needSel0 cmd ((takePT args).andThen fun p ws => .ok (.tx (immOf cmd) p, ws))
  | 0x40 =>
    needSel0 cmd (needImm0 cmd ((takeTXTLIST txtMax args).andThen fun ids ws => .ok (.limit ids, ws)))
  | 0x50 => needSel0 cmd (needImm0 cmd ((takePT args).andThen fun p ws => .ok (.pt2str p, ws)))
  | 0x51 =>
    needSel0 cmd (needImm0 cmd ((takeTXT txtMax args).andThen fun token ws =>
      (takeW ws).andThen fun maxlen ws => .ok (.str2pt token maxlen, ws)))
  | 0xFF => .error .edgeNotCommand
  | _ => .error .reservedOpcode

/-- A reading that must use up every word (R87 (c)). -/
def wholeFrame {α : Type} (p : Parse α) : Except Reject α :=
  match p with
  | .error e => .error e
  | .ok (a, []) => .ok a
  | .ok (_, _ :: _) => .error .extraWord

/-- The command a frame of the CMD port carries, or the reason it is not well-formed (R87). -/
def decodeFrame (txtMax cmd : Word) (args : List Word) : Except Reject Instr :=
  wholeFrame (parseCommand txtMax cmd args)

/-- The word that stands for EDGE in a trace (R89). -/
def edgeWord : Word := 0xFF000000

/-- Reads one record of a trace of both agents' steps (R89): an EDGE record, else a command. -/
def parseTrace (txtMax : Word) : List Word → Parse Instr
  | [] => .error .empty
  | w :: args =>
    if w = edgeWord then (takeW args).andThen fun now ws => .ok (.edge now, ws)
    else parseCommand txtMax w args

/-- The step a whole trace record stands for (R89). -/
def decodeTrace (txtMax : Word) (ws : List Word) : Except Reject Instr := wholeFrame (parseTrace txtMax ws)

/-! ## Encoding -/

/-- The words of a PT item (R82). -/
def encodePT (p : Train) : List Word := BitVec.ofNat 32 p.length :: p

/-- The words of a TXT item (R82, R83). The count word holds the number of bytes modulo 2^32: a text of a
frame has fewer (R87), a text of a DEC record may not (log 26). -/
def encodeTXT (t : Text) : List Word := BitVec.ofNat 32 t.length :: packText t

/-- The words of a TXTLIST item (R82). -/
def encodeTXTLIST (ts : List Text) : List Word := BitVec.ofNat 32 ts.length :: ts.flatMap encodeTXT

/-- The command word of an instruction, by the opcode map of R90 (for EDGE, its trace word). -/
def commandWord : Instr → Word
  | .crr n => cmdWord 0x01 n 0
  | .crw n _ => cmdWord 0x02 n 0
  | .nextlen => cmdWord 0x10 0 0
  | .recv => cmdWord 0x11 0 0
  | .decode _ => cmdWord 0x20 0 0
  | .encode _ _ _ => cmdWord 0x30 0 0
  | .tx repeats _ => cmdWord 0x31 0 repeats
  | .limit _ => cmdWord 0x40 0 0
  | .pt2str _ => cmdWord 0x50 0 0
  | .str2pt _ _ => cmdWord 0x51 0 0
  | .edge _ => edgeWord

/-- The argument words of an instruction, in the order R90 lists its items. -/
def argumentWords : Instr → List Word
  | .crr _ => []
  | .crw _ v => [v]
  | .nextlen => []
  | .recv => []
  | .decode p => encodePT p
  | .encode id message capacity => encodeTXT id ++ encodeTXT message ++ [capacity]
  | .tx _ p => encodePT p
  | .limit ids => encodeTXTLIST ids
  | .pt2str p => encodePT p
  | .str2pt token maxlen => encodeTXT token ++ [maxlen]
  | .edge now => [now]

/-- The words of an instruction: its frame, or for EDGE its trace record (R80, R89). -/
def encode (i : Instr) : List Word := commandWord i :: argumentWords i

/-! ## Opcode-table words (log 14) -/

/-- `k` words of a number, least significant word first. -/
def wordsOf : Nat → Nat → List Word
  | 0, _ => []
  | k + 1, w => BitVec.ofNat 32 w :: wordsOf k (w / 2 ^ 32)

/-- The words of a table row's bits: `nbits` bits in whole words, at least the command word. -/
def rowWords (nbits w : Nat) : List Word := wordsOf (max 1 ((nbits + 31) / 32)) (w % 2 ^ nbits)

/-- A table row's instruction laid out as a whole record: the row's words, then as many zero words as its
argument items take (zero counts and zero values). Words that begin no record are left as they are. -/
def rowRecord (nbits w : Nat) : List Word :=
  let ws := rowWords nbits w ++ [0, 0, 0]
  match parseTrace 0 ws with
  | .ok (_, left) => ws.take (max (rowWords nbits w).length (ws.length - left.length))
  | .error _ => rowWords nbits w

/-- The instruction the decoder reads from a table row's bits. TXT_MAX does not matter: every text item
of such a record has zero bytes. -/
def decodeTableWord (nbits w : Nat) : Option Instr :=
  match decodeTrace 0 (rowRecord nbits w) with
  | .ok i => some i
  | .error _ => none

end Sys2Proof
end

