-- ==== Sys2Proof/Machine/State.lean ====
section
/-! DEFINITION. The state of the block (10_state.md), its outputs and inputs (00_scope.md rules R4, R8,
R9; 70_reset_and_hazards.md rule R336), the reasons a step can stop, and the state after reset (R331). -/

namespace Sys2Proof.Machine

open Sys2Proof.Config (nslots cap Instantiation)

/-- The two levels of the TX line (R8). -/
inductive Level where
  | low
  | high
  deriving DecidableEq, Repr

/-- One primitive of the TX observation (R8): `tx(level, us)` and `txlevel(level)`. -/
inductive TxPrim where
  | hold (level : Level) (us : Word)
  | level (level : Level)
  deriving DecidableEq, Repr

/-- The repeat status of a decoded message, in the source's order (R9, R85). -/
inductive Status where
  | first
  | invalid
  | valid
  | known
  deriving DecidableEq, Repr

/-- A record of the EVT port (R9). -/
inductive Record where
  | dec (protocolId messageText : Text) (status : Status) (repeatCount : Word) (deviceId : Text)
  | raw (pulses : Train)
  deriving DecidableEq, Repr

/-- A result frame: the signed result word and the payload words (R84). -/
structure Result where
  res     : Word
  payload : List Word
  deriving DecidableEq, Repr

/-- One input of the block, in the order the environment delivers them (R336): a command frame on CMD
(its command word and argument words, so never empty, R80), an edge on RX_EDGE with the CLOCK value the
sampler will read (R7, log 16), or a reset (R330). -/
inductive Input where
  | frame (cmd : Word) (args : List Word)
  | edge (now : Word)
  | reset
  deriving DecidableEq, Repr

/-- One slot of the ring (R35). `len < CAP` is the field's type. -/
structure Slot where
  len   : Fin cap
  pulse : Vector Word cap
  deriving DecidableEq, Repr

/-- A slot at reset: empty; the pulse words, which the spec leaves unspecified, are 0 (log 10). -/
def Slot.reset : Slot := { len := ⟨0, by decide⟩, pulse := Vector.replicate cap 0 }

/-- The mutable state DS[j] of one descriptor (R36). -/
structure DescState where
  repeats : Word
  firstV  : Bool
  first   : Word
  second  : Word
  snapV   : Bool
  snap    : Text
  rawlen  : Word
  deriving DecidableEq, Repr

/-- DS[j] at reset (R36). -/
def DescState.reset : DescState :=
  { repeats := 0, firstV := false, first := 0, second := 0, snapV := false, snap := [], rawlen := 0 }

/-- The state of the block, and beside it the instantiation and the environment's inputs. -/
structure State where
  /-- The instantiation: the OPEN parameters of R2. No step writes it (log 1). -/
  cfg        : Instantiation
  /-- RXEN.EN, CR 0 bit 0 (R24). -/
  rxEn       : Bool
  /-- CBEN.DEC, CR 1 bit 0 (R25). -/
  cbDec      : Bool
  /-- CBEN.RAW, CR 1 bit 1 (R25). -/
  cbRaw      : Bool
  /-- MINGAPLEN, CR 2 (R26). -/
  minGapLen  : Word
  /-- MINRAWLEN, CR 3 (R27). -/
  minRawLen  : Word
  /-- MAXRAWLEN, CR 4 (R28). -/
  maxRawLen  : Word
  /-- PROD, CR 5 (R29). -/
  prod       : Fin nslots
  /-- CONS, CR 6 (R30). -/
  cons       : Fin nslots
  /-- NRPULSES, CR 7 (R31). -/
  nrPulses   : Fin cap
  /-- LASTEDGE, CR 8 (R32). -/
  lastEdge   : Word
  /-- RING (R35). -/
  ring       : Vector Slot nslots
  /-- DS, one entry per descriptor (R36). -/
  ds         : List DescState
  /-- ACTIVE (R37). -/
  active     : List Nat
  /-- TXLEVEL (R38). -/
  txLevel    : Level
  /-- The EVT trace, oldest record first (R39). -/
  evt        : List Record
  /-- The TX trace, oldest primitive first (R39). -/
  tx         : List TxPrim
  /-- The result frames, oldest first (R337). -/
  results    : List Result
  /-- The inputs still to come, next first (log 7). -/
  inputs     : List Input
  /-- CLOCK values for DECODE's draws, next first (log 5). -/
  clockIn    : List Word
  /-- How many draws the free value has served (log 5). -/
  clockReads : Nat
  deriving DecidableEq, Repr

/-- Why a step faults. -/
inductive Fault where
  /-- Raised by ENCODE when a create capability returns more than its descriptor's maxrawlen pulses, or
  more than CAP: a fault of the configuration (R225, D20, 93_implementation_defined.md item 15; log 11).
  Safe: the model stops where the real block would write past the caller's buffer. -/
  | createOverrun
  deriving DecidableEq, Repr

/-- Why a step is refused. -/
inductive Refusal where
  /-- Raised only by an arm of `exec` whose instruction has no meaning yet. Safe. -/
  | notModelled (mnemonic : String)
  deriving DecidableEq, Repr

/-- The state after reset for a given instantiation (R331), with no inputs to come. -/
def State.resetWith (c : Instantiation) : State :=
  { cfg := c
    rxEn := false, cbDec := false, cbRaw := false
    minGapLen := Config.minGapLenRst, minRawLen := Config.minRawLenRst, maxRawLen := Config.maxRawLenRst
    prod := ⟨0, by decide⟩, cons := ⟨0, by decide⟩, nrPulses := ⟨0, by decide⟩, lastEdge := 0
    ring := Vector.replicate nslots Slot.reset
    ds := List.replicate c.nproto DescState.reset
    active := List.range c.nproto
    txLevel := .low
    evt := [], tx := [], results := [], inputs := [], clockIn := [], clockReads := 0 }

/-- The machine right after reset (R331). -/
def State.reset : State := State.resetWith Config.instantiation

end Sys2Proof.Machine
end

