-- ==== Sys2Proof/Machine/Flags.lean ====
section
/-! DEFINITION. What the block has in place of flags: PTE has none (10_state.md rule R22), every command
reports in its result word RES. The error codes (60_exceptions.md rule R300), the result frame
(30_encoding.md rule R84), and the EVT record frames (R85). -/

namespace Sys2Proof.Machine

/-- The error codes of R300. -/
inductive ErrorCode where
  | malformed
  | noProto
  | create
  | format
  | illegal
  | operand
  deriving DecidableEq, Repr

/-- The value of an error code, a negative number (R300). -/
def errorValue : ErrorCode → Int
  | .malformed => -1
  | .noProto => -2
  | .create => -3
  | .format => -4
  | .illegal => -5
  | .operand => -6

/-- The result word of an error: its value in two's complement (R84). -/
def errorWord (e : ErrorCode) : Word := BitVec.ofInt 32 (errorValue e)

/-- The result word of a count, modulo 2^32. R84 reads RES as signed and does not say what a count of 2^31 or
more gives, which DECODE and STR2PT can reach: log 13. -/
def countWord (n : Nat) : Word := BitVec.ofNat 32 n

/-- The words of a result frame: RES, then the payload (R84). -/
def resultFrame (r : Result) : List Word := r.res :: r.payload

/-- Ends a command: sends its result frame (R11 `return`, R84). -/
def answer (res : Word) (payload : List Word) (s : State) : State :=
  { s with results := s.results ++ [{ res := res, payload := payload }] }

/-- Ends a command with an error: RES is the code, no payload (R84). -/
def answerError (e : ErrorCode) (s : State) : State := answer (errorWord e) [] s

/-- The STATUS code of a DEC record (R85). -/
def statusCode : Status → BitVec 8
  | .first => 0
  | .invalid => 1
  | .valid => 2
  | .known => 3

/-- Word 0 of a record: TYPE in bits 7:0, STATUS in bits 15:8, bits 31:16 zero (R85). -/
def recordWord (type status : BitVec 8) : Word := (0 : BitVec 16) ++ status ++ type

end Sys2Proof.Machine
end

