-- ==== Sys2Proof/Machine/Operands.lean ====
section
/-! DEFINITION. The operand forms that reach state: the control registers (10_state.md rules R23 to R34,
read and write rules of 40_control.md), and the words of EVT records (30_encoding.md rule R85). The
items of a frame are read in `Sys2Proof/Decode.lean` (R86). -/

namespace Sys2Proof.Machine

open Sys2Proof.Config (nslots cap)

/-- RXEN as a word: EN in bit 0, the reserved bits 0 (R24). -/
def rxenWord (s : State) : Word := (BitVec.ofBool s.rxEn).setWidth 32

/-- CBEN as a word: DEC in bit 0, RAW in bit 1, the reserved bits 0 (R25). -/
def cbenWord (s : State) : Word := (BitVec.ofBool s.cbRaw ++ BitVec.ofBool s.cbDec).setWidth 32

/-- The value CRR reads from control register `n`, none for a reserved number (R23, R120, R121). ACTIVE_N
and NPROTO are numbers of 32 bits, of which R2 and R3 bound neither: log 25. -/
def readCR (s : State) (n : BitVec 8) : Option Word :=
  match n.toNat with
  | 0 => some (rxenWord s)
  | 1 => some (cbenWord s)
  | 2 => some s.minGapLen
  | 3 => some s.minRawLen
  | 4 => some s.maxRawLen
  | 5 => some (BitVec.ofNat 32 s.prod.val)
  | 6 => some (BitVec.ofNat 32 s.cons.val)
  | 7 => some (BitVec.ofNat 32 s.nrPulses.val)
  | 8 => some s.lastEdge
  | 9 => some (BitVec.ofNat 32 nslots)
  | 10 => some (BitVec.ofNat 32 cap)
  | 11 => some (BitVec.ofNat 32 s.active.length)
  | 12 => some (BitVec.ofNat 32 s.cfg.nproto)
  | _ => none

/-- The state after CRW stores `v` in control register `n`, none for a read-only or reserved number
(R122 to R126). -/
def writeCR (s : State) (n : BitVec 8) (v : Word) : Option State :=
  match n.toNat with
  | 0 => some { s with rxEn := v.getLsbD 0 }
  | 1 => some { s with cbDec := v.getLsbD 0, cbRaw := v.getLsbD 1 }
  | 2 => some { s with minGapLen := v }
  | 3 => some { s with minRawLen := v }
  | 4 => some { s with maxRawLen := v }
  | _ => none

/-- The words of an EVT record (R85). -/
def recordFrame : Record → List Word
  | .dec protocolId messageText status repeatCount deviceId =>
    recordWord 1 (statusCode status) :: repeatCount ::
      (encodeTXT protocolId ++ encodeTXT messageText ++ encodeTXT deviceId)
  | .raw pulses => recordWord 2 0 :: encodePT pulses

end Sys2Proof.Machine
end

