-- ==== Sys2Proof/Machine/Ops.lean ====
section
/-! DEFINITION. The named operations over the block's storage and ports: slots, cursors, descriptor state,
the clock, EVT, TX, configuration functions, the refusal of ill-formed operands, and the reset event. -/

namespace Sys2Proof.Machine

open Sys2Proof.Config (nslots cap Fn Instantiation)

/-! ## The configuration functions (R5, R6; log 2) -/

/-- The value of a configuration function: the first row of its table with that argument, else the
table's other answer; an external function's value is free. -/
def applyFn {α β : Type} [DecidableEq α] [Inhabited β] (f : Fn α β) (a : α) : β :=
  match f with
  | .table rows otherwise =>
    match rows.find? (fun row => row.1 = a) with
    | some row => row.2
    | none => otherwise
  | .external n => Config.external n a

/-! ## The ring (R35, R60) -/

/-- The slot after `k`, modulo NSLOTS (R29, R30). -/
def nextSlot (k : Fin nslots) : Fin nslots := ⟨(k.val + 1) % nslots, Nat.mod_lt _ (by decide)⟩

/-- The pulse count after `n`, modulo CAP (R31). -/
def nextCount (n : Fin cap) : Fin cap := ⟨(n.val + 1) % cap, Nat.mod_lt _ (by decide)⟩

/-- The slot numbered `k`. -/
def slotAt (s : State) (k : Fin nslots) : Slot := s.ring.get k

/-- `LenRead(k)`. -/
def lenRead (s : State) (k : Fin nslots) : Fin cap := (slotAt s k).len

/-- `MemRead((k, i), 1)` for an index below CAP; no rule uses another (R63), and it reads as 0. -/
def memRead (s : State) (k : Fin nslots) (i : Nat) : Word := (slotAt s k).pulse.toList.getD i 0

/-- Replaces slot `k`. -/
def setSlot (k : Fin nslots) (sl : Slot) (s : State) : State := { s with ring := s.ring.set k.val sl }

/-- `LenWrite(k, n)`. -/
def lenWrite (k : Fin nslots) (n : Fin cap) (s : State) : State :=
  setSlot k { slotAt s k with len := n } s

/-- `MemWrite((k, i), 1, v)`. -/
def memWrite (k : Fin nslots) (i : Fin cap) (v : Word) (s : State) : State :=
  setSlot k { slotAt s k with pulse := (slotAt s k).pulse.set i.val v } s

/-- The first `n` pulse words of slot `k`, in order. -/
def copyOut (s : State) (k : Fin nslots) (n : Nat) : Train := (List.range n).map (memRead s k)

/-! ## Descriptor state (R36) -/

/-- DS[j]; an index no descriptor has reads the reset value (log 17). -/
def dsAt (s : State) (j : Nat) : DescState := s.ds.getD j DescState.reset

/-- `DS[j] <- d`; an index no descriptor has changes nothing (log 17). -/
def setDs (j : Nat) (d : DescState) (s : State) : State := { s with ds := s.ds.set j d }

/-- `DS[j].RAWLEN <- n`. -/
def setRawlen (j : Nat) (n : Nat) (s : State) : State :=
  setDs j { dsAt s j with rawlen := BitVec.ofNat 32 n } s

/-! ## Ports -/

/-- `clock()`, DECODE's draw of CLOCK: the value the draw gives (R7, log 5). -/
def clockValue (s : State) : Word :=
  match s.clockIn with
  | v :: _ => v
  | [] => Config.freeClock s.clockReads

/-- `clock()`: the state after the draw. -/
def afterClock (s : State) : State :=
  match s.clockIn with
  | _ :: vs => { s with clockIn := vs }
  | [] => { s with clockReads := s.clockReads + 1 }

/-- `emit(r)` (R9). -/
def emit (r : Record) (s : State) : State := { s with evt := s.evt ++ [r] }

/-- Drives TX through a sequence of primitives, ending at `level` (R8, R38). -/
def driveTx (prims : List TxPrim) (level : Level) (s : State) : State :=
  { s with tx := s.tx ++ prims, txLevel := level }

/-! ## Refusal and reset -/

/-- The answer to a frame that is not well-formed: E_ILLEGAL, and nothing else changes (R87). -/
def illegalFrame (s : State) : State := answerError .illegal s

/-- Runs a command whose operands are within the bounds of R87 (d), (e), and answers E_ILLEGAL to one
whose operands are not (log 12). -/
def onWellFormed (i : Instr) (s : State) (run : Host.Outcome State Fault Refusal) :
    Host.Outcome State Fault Refusal :=
  if i.wellFormed s.cfg.txtMax = true then run else .next (illegalFrame s)

/-- The reset event (R330): every piece of state takes its reset value, the instantiation stays, and the
environment's inputs still to come are not the block's to lose (log 9). -/
def resetEvent (s : State) : State :=
  { State.resetWith s.cfg with inputs := s.inputs, clockIn := s.clockIn, clockReads := s.clockReads }

end Sys2Proof.Machine
end

