-- ==== Sys2Proof/Machine/Control.lean ====
section
/-! DEFINITION. The control commands CRR and CRW (40_control.md). -/

namespace Sys2Proof.Machine

/-- CRR (R120): RES = 0 and the register's value, or E_OPERAND for a reserved number (R121). -/
def execCrr (n : BitVec 8) (s : State) : Host.Outcome State Fault Refusal :=
  match readCR s n with
  | none => .next (answerError .operand s)
  | some v => .next (answer 0 [v] s)

/-- CRW (R122): stores the value and answers RES = 0, or E_OPERAND for a reserved (R121) or read-only
(R123) number. -/
def execCrw (n : BitVec 8) (v : Word) (s : State) : Host.Outcome State Fault Refusal :=
  match writeCR s n v with
  | none => .next (answerError .operand s)
  | some s' => .next (answer 0 [] s')

end Sys2Proof.Machine
end

