-- ==== Sys2Proof/Machine/Dispatcher.lean ====
section
/-! DEFINITION. The decode dispatcher and the repeat-detection state machine: DECODE (43_decode.md). -/

namespace Sys2Proof.Machine

/-! ## Decimal texts (R193, R275) -/

/-- The ASCII byte of a decimal digit (R12). -/
def digitByte (d : Nat) : Byte := BitVec.ofNat 8 (0x30 + d)

/-- The decimal digits of `n` put in front of `acc`, with `fuel` digits at most. -/
def decimalOnto : Nat → Nat → Text → Text
  | 0, _, acc => acc
  | fuel + 1, n, acc =>
    if n < 10 then digitByte n :: acc
    else decimalOnto fuel (n / 10) (digitByte (n % 10) :: acc)

/-- A natural number in decimal: digits only, no leading zero, `0` for zero (R193, R275). -/
def decimalText (n : Nat) : Text := decimalOnto (n + 1) n []

/-- An integer in decimal, with a leading '-' for a negative one (R193). -/
def integerText (v : Int) : Text := if v < 0 then 0x2D :: decimalText v.natAbs else decimalText v.natAbs

/-- The integer nearest to a rational, ties away from zero (R193). -/
def roundRational (x : Rat) : Int :=
  let m : Nat := (2 * x.num.natAbs + x.den) / (2 * x.den)
  if x.num < 0 then -(m : Int) else m

/-- The nearest integer, ties away from zero (R193). An irrational is no tie. -/
def roundAway : Config.Number → Int
  | .rational x => roundRational x
  | .irrational whole upper => if upper = true then whole + 1 else whole

/-- The device identifier of a message (R193). -/
def deviceId (c : Config.Instantiation) (m : Config.Doc) : Text :=
  match applyFn c.codec.num (m, c.devidKey) with
  | some x => integerText (roundAway x)
  | none =>
    match applyFn c.codec.str (m, c.devidKey) with
    | some t => t
    | none => []

/-! ## The state machine of one descriptor (R184 to R189) -/

/-- The shift of `second` into `first`, the new `second`, and the initialisation of `first` (R184). -/
def stampTimes (now : Word) (d : DescState) : DescState :=
  { d with first := if d.firstV = true then d.second else now, second := now, firstV := true }

/-- Burst timing on a successful validation: the times, then the burst reset of REPEATS (R184). -/
def burstTiming (now : Word) (d : DescState) : DescState :=
  let t := stampTimes now d
  if Config.burstWindow < elapsed t.second t.first then { t with repeats := 0 } else t

/-- The repeat/dedup machine on a message text: REPEATS counts it, then FIRST, VALID, INVALID or KNOWN
(R186 to R189). -/
def repeatMachine (msg : Text) (d : DescState) : Status × DescState :=
  let r := d.repeats + 1
  if r ≤ 1 ∨ d.snapV = false then (.first, { d with repeats := r, snap := msg, snapV := true })
  else if r < Config.repeatSentinel then
    if msg = d.snap then (.valid, { d with repeats := r + Config.repeatSentinel, snap := msg })
    else (.invalid, { d with repeats := r, snap := msg })
  else (.known, { d with repeats := r })

/-! ## The walk over ACTIVE (R180 to R193) -/

/-- What a message does to its entry: the machine runs, and a DEC record is emitted if CBEN.DEC is set
(R186 to R190). -/
def takeMessage (j : Nat) (id : Text) (m : Config.Doc) (s : State) : State :=
  let run := repeatMachine (applyFn s.cfg.codec.encode m) (dsAt s j)
  let s1 := setDs j run.2 s
  if s.cbDec = true then emit (.dec id run.2.snap run.1 run.2.repeats (deviceId s.cfg m)) s1 else s1

/-- A validated entry: the clock draw and burst timing, then parse (R184, R185). Answers the state and
how many messages the entry produced, 0 or 1. -/
def validatedEntry (j : Nat) (id : Text) (parsed : Option Config.Doc) (s : State) : State × Nat :=
  let s1 := setDs j (burstTiming (clockValue s) (dsAt s j)) (afterClock s)
  match parsed with
  | none => (s1, 0)
  | some m => (takeMessage j id m s1, 1)

/-- One entry of ACTIVE (R181 to R185): skipped if the descriptor lacks validate or parse (R182), else
RAWLEN is set and the train validated (R183). -/
def decodeEntry (train : Train) (j : Nat) (s : State) : State × Nat :=
  match s.cfg.protocols[j]? with
  | none => (s, 0)
  | some P =>
    match P.validate, P.parse with
    | some validate, some parse =>
      let s1 := setRawlen j train.length s
      if applyFn validate train = true then validatedEntry j P.id (applyFn parse train) s1 else (s1, 0)
    | _, _ => (s, 0)

/-- The walk over a list of entries, in order (R181), with the number of messages (R192). -/
def decodeWalk (train : Train) : List Nat → State → State × Nat
  | [], s => (s, 0)
  | j :: js, s =>
    let here := decodeEntry train j s
    let rest := decodeWalk train js here.1
    (rest.1, here.2 + rest.2)

/-- The raw record, last of the command (R191). -/
def emitRaw (train : Train) (s : State) : State := if s.cbRaw = true then emit (.raw train) s else s

/-- DECODE on a train within CAP (R180). RES of 2^31 or more messages: log 13. -/
def decodeStep (train : Train) (s : State) : State :=
  let walked := decodeWalk train s.active s
  answer (countWord walked.2) [] (emitRaw train walked.1)

/-- DECODE (R180). -/
def execDecode (train : Train) (s : State) : Host.Outcome State Fault Refusal :=
  onWellFormed (.decode train) s (.next (decodeStep train s))

end Sys2Proof.Machine
end

