-- ==== Sys2Proof/Machine/Encode.lean ====
section
/-! DEFINITION. The encode dispatcher ENCODE and the transmit waveform TX (44_encode_tx.md). -/

namespace Sys2Proof.Machine

open Sys2Proof.Config (Fn Doc Descriptor)

/-! ## ENCODE -/

/-- What the search of ENCODE finds: a descriptor's index, its maxrawlen and its create capability. -/
structure Encoder where
  index     : Nat
  maxrawlen : Word
  create    : Fn Doc (Option Train)
  deriving DecidableEq, Repr

/-- The search over the canonical registry in its order, from index `j` on: the first descriptor with the
id, a maxrawlen within the capacity and a create capability (R222). The empty id finds none, whatever the
registry holds (R226; log 27). -/
def findEncoder (id : Text) (capacity : Word) : Nat → List Descriptor → Option Encoder
  | _, [] => none
  | j, P :: Ps =>
    match P.create with
    | some create =>
      if id ≠ [] ∧ P.id = id ∧ P.maxrawlen ≤ capacity then
        some { index := j, maxrawlen := P.maxrawlen, create := create }
      else findEncoder id capacity (j + 1) Ps
    | none => findEncoder id capacity (j + 1) Ps

/-- A create result that is no train of its descriptor: longer than maxrawlen (R225) or than CAP (R6). -/
def createOverruns (e : Encoder) (r : Train) : Bool :=
  decide (e.maxrawlen.toNat < r.length ∨ Config.cap < r.length)

/-- The use of the descriptor found: RAWLEN is reset, create is invoked, and its result or its failure is
answered (R223 to R225). -/
def useEncoder (e : Encoder) (d : Doc) (s : State) : Host.Outcome State Fault Refusal :=
  let s0 := setRawlen e.index 0 s
  match applyFn e.create d with
  | none => .next (answerError .create s0)
  | some r =>
    if createOverruns e r = true then .fault .createOverrun
    else .next (answer (countWord r.length) r (setRawlen e.index r.length s0))

/-- ENCODE with operands within TXT_MAX (R220, R221, R222, R226). -/
def encodeCommand (id message : Text) (capacity : Word) (s : State) : Host.Outcome State Fault Refusal :=
  if applyFn s.cfg.codec.valid message = true then
    match findEncoder id capacity 0 s.cfg.protocols with
    | none => .next (answerError .noProto s)
    | some e => useEncoder e (applyFn s.cfg.codec.parse message) s
  else .next (answerError .malformed s)

/-- ENCODE (R220). -/
def execEncode (id message : Text) (capacity : Word) (s : State) : Host.Outcome State Fault Refusal :=
  onWellFormed (.encode id message capacity) s (encodeCommand id message capacity s)

/-! ## TX -/

/-- The other level. -/
def otherLevel : Level → Level
  | .high => .low
  | .low => .high

/-- One repetition of a train from a level on: the levels alternate (R230). -/
def txPulses : Level → Train → List TxPrim
  | _, [] => []
  | l, p :: ps => .hold l p :: txPulses (otherLevel l) ps

/-- The whole waveform: the repetitions, each beginning HIGH, then the line driven LOW (R230, R231). -/
def txWaveform (repeats : Nat) (train : Train) : List TxPrim :=
  (List.replicate repeats (txPulses .high train)).flatten ++ [.level .low]

/-- TX (R230). -/
def execTx (repeats : BitVec 16) (train : Train) (s : State) : Host.Outcome State Fault Refusal :=
  onWellFormed (.tx repeats train) s
    (.next (answer 0 [] (driveTx (txWaveform repeats.toNat train) .low s)))

end Sys2Proof.Machine
end

