-- ==== Sys2Proof/Machine/Sampler.lean ====
section
/-! DEFINITION. The sampler's step EDGE (41_sampler.md). -/

namespace Sys2Proof.Machine

open Sys2Proof.Config (cap)

/-- Closing: write the length last, then advance PROD (R144). -/
def closeSlot (n : Fin cap) (s : State) : State :=
  let published := lenWrite s.prod n s
  { published with prod := nextSlot s.prod }

/-- Whether a train of `n` pulses, gap included, is closed (R144). -/
def lengthQualifies (s : State) (n : Fin cap) : Bool :=
  decide (s.minRawLen.toNat ≤ n.val ∧ n.val ≤ s.maxRawLen.toNat)

/-- Appends a duration at the current index and counts it, modulo CAP (R142). -/
def appendPulse (d : Word) (s : State) : State :=
  { memWrite s.prod s.nrPulses d s with nrPulses := nextCount s.nrPulses }

/-- At a gap, after its append: close the train if its length qualifies, and start a fresh one either way
(R143, R144). -/
def endTrain (s : State) : State :=
  let closed := if lengthQualifies s s.nrPulses = true then closeSlot s.nrPulses s else s
  { closed with nrPulses := ⟨0, by decide⟩ }

/-- A duration within the filters: append it, and end the train if it is a gap (R142, R143). -/
def storePulse (d : Word) (s : State) : State :=
  if s.minGapLen < d then endTrain (appendPulse d s) else appendPulse d s

/-- Whether an edge is processed: the sampler is enabled and the slot at PROD is empty (R141). -/
def edgeAccepted (s : State) : Bool := s.rxEn && decide ((lenRead s s.prod).val = 0)

/-- The effect of one edge on an enabled sampler whose slot is empty (R140, R142, R145, R146). -/
def acceptEdge (now : Word) (s : State) : State :=
  let d := elapsed now s.lastEdge
  if s.cfg.minPulse < d then
    { (if d < s.cfg.maxPulse then storePulse d s else s) with lastEdge := now }
  else s

/-- The whole step (R140). -/
def edgeStep (now : Word) (s : State) : State := if edgeAccepted s = true then acceptEdge now s else s

/-- EDGE (R140): the sampler never reports and never fails. -/
def execEdge (now : Word) (s : State) : Host.Outcome State Fault Refusal := .next (edgeStep now s)

/-- Edges taken one after the other, in delivery order (R303). -/
def runEdges (nows : List Word) (s : State) : State := nows.foldl (fun s now => edgeStep now s) s

end Sys2Proof.Machine
end

