-- ==== Sys2Proof/Machine/Fifo.lean ====
section
/-! DEFINITION. The consumer side of the ring (42_fifo.md): NEXTLEN and RECV, and RECV's sub-steps with
sampler steps between them (20_memory.md rules R67, R71). -/

namespace Sys2Proof.Machine

open Sys2Proof.Config (nslots)

/-- The length of the slot at CONS, 0 if it is empty (R160). -/
def pendingLen (s : State) : Nat := (lenRead s s.cons).val

/-- NEXTLEN (R160). -/
def execNextlen (s : State) : Host.Outcome State Fault Refusal :=
  .next (answer (countWord (pendingLen s)) [] s)

/-- RECV's sub-step 3: release the slot at CONS (R161, R162). -/
def releaseSlot (s : State) : State := lenWrite s.cons ⟨0, by decide⟩ s

/-- RECV's sub-step 4: advance CONS (R161, R162). -/
def advanceCons (s : State) : State := { s with cons := nextSlot s.cons }

/-- RECV as one atomic step (R161, R71). -/
def recvStep (s : State) : State :=
  if pendingLen s = 0 then answer 0 [] s
  else
    let out := copyOut s s.cons (pendingLen s)
    answer (countWord (pendingLen s)) out (advanceCons (releaseSlot s))

/-- RECV (R161). -/
def execRecv (s : State) : Host.Outcome State Fault Refusal := .next (recvStep s)

/-- RECV's sub-step 2, the reads of pulses `i`, `i + 1`, ... of slot `k`, `n` of them, with the edges
`before j` taken just before the read of pulse `j`. Answers the words read and the state. -/
def copyInterleaved (before : Nat → List Word) (k : Fin nslots) : Nat → Nat → State → Train × State
  | 0, _, s => ([], s)
  | n + 1, i, s =>
    let here := runEdges (before i) s
    let rest := copyInterleaved before k n (i + 1) here
    (memRead here k i :: rest.1, rest.2)

/-- RECV in its sub-steps (R161, R67): the length is read in `s`; the edges `before j` fall before the
read of pulse `j`, the edges `beforeRelease` before the slot is released, and the edges `beforeAdvance`
between the release and the advance of CONS. -/
def recvInterleaved (before : Nat → List Word) (beforeRelease beforeAdvance : List Word) (s : State) :
    State :=
  if pendingLen s = 0 then answer 0 [] s
  else
    let copied := copyInterleaved before s.cons (pendingLen s) 0 s
    let released := releaseSlot (runEdges beforeRelease copied.2)
    answer (countWord (pendingLen s)) copied.1 (advanceCons (runEdges beforeAdvance released))

end Sys2Proof.Machine
end

