-- ==== Sys2Proof/Machine/Limit.lean ====
section
/-! DEFINITION. Registry limiting: LIMIT (45_limit.md). -/

namespace Sys2Proof.Machine

/-- The index of the descriptor with an id, byte for byte (R250, R251). -/
def findProtocol (ps : List Config.Descriptor) (id : Text) : Option Nat := ps.findIdx? (fun P => P.id = id)

/-- The list NEW of R250: each known id prepends its index, an unknown one adds nothing (R251, R252). -/
def matchedIds (ps : List Config.Descriptor) : List Text → List Nat → List Nat
  | [], new => new
  | id :: ids, new =>
    match findProtocol ps id with
    | some j => matchedIds ps ids (j :: new)
    | none => matchedIds ps ids new

/-- The new ACTIVE: NEW, or the whole canonical list if NEW is empty (R250, R253). -/
def limitedActive (ps : List Config.Descriptor) (ids : List Text) : List Nat :=
  match matchedIds ps ids [] with
  | [] => List.range ps.length
  | j :: js => j :: js

/-- LIMIT (R250). -/
def execLimit (ids : List Text) (s : State) : Host.Outcome State Fault Refusal :=
  onWellFormed (.limit ids) s
    (.next (answer 0 [] { s with active := limitedActive s.cfg.protocols ids }))

end Sys2Proof.Machine
end

