-- ==== Sys2Proof/Machine/TextCodec.lean ====
section
/-! DEFINITION. The pulse-train text codec: PT2STR and STR2PT (46_text_codec.md). -/

namespace Sys2Proof.Machine

open Sys2Proof.Config (tcMaxTypes tcBucket tcTol)

/-! ## The characters of a token (R12) -/

/-- `'c'` -/
def chC : Byte := 0x63
/-- `'p'` -/
def chP : Byte := 0x70
/-- `':'` -/
def chColon : Byte := 0x3A
/-- `';'` -/
def chSemicolon : Byte := 0x3B
/-- `','` -/
def chComma : Byte := 0x2C
/-- `'@'` -/
def chAt : Byte := 0x40
/-- `'0'` -/
def chZero : Byte := 0x30
/-- `'9'` -/
def chNine : Byte := 0x39

/-! ## PT2STR -/

/-- The quantization bucket of a duration (R271). -/
def bucket (p : Word) : Nat := p.toNat / tcBucket

/-- A duration matches a type when their buckets differ by at most TC_TOL, over the integers (R271). -/
def typeMatches (p t : Word) : Bool := decide (((bucket p : Int) - (bucket t : Int)).natAbs ≤ tcTol)

/-- The least index of a matching type (R271). -/
def findType (types : List Word) (p : Word) : Option Nat := types.findIdx? (typeMatches p)

/-- The index character of a type (R274). -/
def indexChar (t : Nat) : Byte := BitVec.ofNat 8 (0x30 + t)

/-- The loop of R270 over the pulses still to come, from a type table and the codes so far; none when a
17th type is needed (R271 to R274). -/
def codePulses : List Word → Text → Train → Option (List Word × Text)
  | types, codes, [] => some (types, codes)
  | types, codes, p :: ps =>
    match findType types p with
    | some t => codePulses types (codes ++ [indexChar t]) ps
    | none =>
      if types.length = tcMaxTypes then none
      else codePulses (types ++ [p]) (codes ++ [indexChar types.length]) ps

/-- The representatives in decimal, separated by single commas (R275). -/
def typeText : List Word → Text
  | [] => []
  | [t] => decimalText t.toNat
  | t :: ts => decimalText t.toNat ++ chComma :: typeText ts

/-- The token `c:<codes>;p:<types>@` (R275). -/
def tokenText (types : List Word) (codes : Text) : Text :=
  [chC, chColon] ++ codes ++ [chSemicolon, chP, chColon] ++ typeText types ++ [chAt]

/-- The token of a train, none when it needs too many types (R270). -/
def trainToken (p : Train) : Option Text :=
  match codePulses [] [] p with
  | some (types, codes) => some (tokenText types codes)
  | none => none

/-- PT2STR (R270): RES is the token's length and the payload its packed bytes, or the empty result for
too many types (R273). -/
def execPt2str (train : Train) (s : State) : Host.Outcome State Fault Refusal :=
  onWellFormed (.pt2str train) s
    (match trainToken train with
     | some tok => .next (answer (countWord tok.length) (packText tok) s)
     | none => .next (answer 0 [] s))

/-! ## STR2PT -/

/-- The bytes after the first occurrence of the two bytes `a`, `b` (R280, R282). -/
def afterMarker (a b : Byte) : Text → Option Text
  | [] => none
  | [_] => none
  | x :: y :: rest => if x = a ∧ y = b then some rest else afterMarker a b (y :: rest)

/-- Whether a byte is a decimal digit. -/
def isDigit (ch : Byte) : Bool := decide (chZero ≤ ch ∧ ch ≤ chNine)

/-- The value of a digit byte. -/
def digitValue (ch : Byte) : Nat := ch.toNat - 0x30

/-- Adds a number to the type table; none for a number of more than 32 bits or a 17th type (R283). -/
def pushType (types : List Word) (v : Nat) : Option (List Word) :=
  if 2 ^ 32 ≤ v then none
  else if types.length = tcMaxTypes then none
  else some (types ++ [BitVec.ofNat 32 v])

/-- The loop of R280 over the type list, `number` being the value of the digits just read, none where a
number must start. Answers none for a format error: an empty number, a byte that is no digit, comma or
'@', a number or table too large, or the end of the text before '@' (R283). -/
def scanTypes : Text → Option Nat → List Word → Option (List Word)
  | [], _, _ => none
  | ch :: rest, number, types =>
    if isDigit ch = true then scanTypes rest (some (10 * number.getD 0 + digitValue ch)) types
    else
      match number with
      | none => none
      | some v =>
        match pushType types v with
        | none => none
        | some types' =>
          if ch = chAt then some types'
          else if ch = chComma then scanTypes rest none types'
          else none

/-- The type table after `p:`: empty if '@' follows at once (R280, R283). -/
def typeTable (bytes : Text) : Option (List Word) :=
  match bytes with
  | [] => none
  | ch :: rest => if ch = chAt then some [] else scanTypes (ch :: rest) none []

/-- The loop of R280 over the codes: up to `';'`, '@', the end of the text or `maxlen` pulses; none for
an index outside the table (R281, R284). -/
def readCodes (types : List Word) : Nat → Text → Option Train
  | _, [] => some []
  | 0, _ :: _ => some []
  | maxlen + 1, ch :: rest =>
    if ch = chSemicolon ∨ ch = chAt then some []
    else if ch.toNat < 0x30 then none
    else
      match types[ch.toNat - 0x30]? with
      | none => none
      | some t =>
        match readCodes types maxlen rest with
        | none => none
        | some out => some (t :: out)

/-- The train of a token, none for a format error: the markers, then the type list, then the codes
(R280, R282, R306). -/
def tokenTrain (token : Text) (maxlen : Nat) : Option Train :=
  match afterMarker chC chColon token with
  | none => none
  | some codes =>
    match afterMarker chP chColon token with
    | none => none
    | some list =>
      match typeTable list with
      | none => none
      | some types => readCodes types maxlen codes

/-- STR2PT (R280): RES is the number of pulses and the payload the pulses, or E_FORMAT. The number can reach
2^31 where TXT_MAX allows such a token: log 13. -/
def execStr2pt (token : Text) (maxlen : Word) (s : State) : Host.Outcome State Fault Refusal :=
  onWellFormed (.str2pt token maxlen) s
    (match tokenTrain token maxlen.toNat with
     | some out => .next (answer (countWord out.length) out s)
     | none => .next (answerError .format s))

end Sys2Proof.Machine
end

