-- ==== Sys2Proof/Machine/Dispatch.lean ====
section
/-! DEFINITION. The meaning of every instruction, one arm per constructor. -/

namespace Sys2Proof.Machine

def exec (i : Instr) (s : State) : Host.Outcome State Fault Refusal :=
  match i with
  | .crr n => Sys2Proof.Machine.execCrr n s
  | .crw n v => Sys2Proof.Machine.execCrw n v s
  | .nextlen => Sys2Proof.Machine.execNextlen s
  | .recv => Sys2Proof.Machine.execRecv s
  | .decode train => Sys2Proof.Machine.execDecode train s
  | .encode id message capacity => Sys2Proof.Machine.execEncode id message capacity s
  | .tx repeats train => Sys2Proof.Machine.execTx repeats train s
  | .limit ids => Sys2Proof.Machine.execLimit ids s
  | .pt2str train => Sys2Proof.Machine.execPt2str train s
  | .str2pt token maxlen => Sys2Proof.Machine.execStr2pt token maxlen s
  | .edge now => Sys2Proof.Machine.execEdge now s

end Sys2Proof.Machine
end

