-- ==== Sys2Proof/Machine/Fetch.lean ====
section
/-! DEFINITION. Where the next step comes from: PTE fetches no instructions (10_state.md rule R21); the
environment delivers frames, edges and resets one at a time (R336, log 7). -/

namespace Sys2Proof.Machine

/-- The next input and the state with that input taken, none when there is none. -/
def takeInput (s : State) : Option (Input × State) :=
  match s.inputs with
  | [] => none
  | i :: rest => some (i, { s with inputs := rest })

/-- A trace record as the input that delivers it: an EDGE record is an edge, any other a frame; words
that are no record at all stay a frame, to be refused (R89). -/
def recordInput : List Word → Input
  | [] => .frame 0 []
  | [w] => .frame w []
  | w :: v :: args => if w = edgeWord ∧ args = [] then .edge v else .frame w (v :: args)

/-- The state with a table row's instruction as its next input (log 14). -/
def deliverRow (s : State) (nbits w : Nat) : State :=
  { s with inputs := recordInput (rowRecord nbits w) :: s.inputs }

end Sys2Proof.Machine
end

