-- ==== Sys2Proof/Machine/Step.lean ====
section
/-! DEFINITION. One step of the block: the next input of the interleaving (20_memory.md rule R67). -/

namespace Sys2Proof.Machine

/-- One step: a frame is decoded and its command run, or answered with E_ILLEGAL (R80, R87); an edge is the
sampler's step (R140); a reset is the reset event (R330); with no input the block waits, unchanged (log 8). -/
def step (s : State) : Host.Outcome State Fault Refusal :=
  match takeInput s with
  | none => .next s
  | some (.frame cmd args, s1) =>
    match decodeFrame s1.cfg.txtMax cmd args with
    | .ok i => exec i s1
    | .error _ => .next (illegalFrame s1)
  | some (.edge now, s1) => exec (.edge now) s1
  | some (.reset, s1) => .next (resetEvent s1)

/-- `s` with a table row's instruction as its next input: a frame on CMD, or for EDGE's row an edge whose
CLOCK value is the row's second word (log 14). -/
def State.withFetchWord (s : State) (nbits w : Nat) : State := deliverRow s nbits w

end Sys2Proof.Machine
end

