-- ==== Sys2Proof/Safety.lean ====
section
/-! DEFINITION. The terms the statements use: the invariants of 10_state.md (R42 to R44), the registry's
well-formedness, what the ring holds as a queue, edges given by their durations, and the configurations on
which no step stops (44_encode_tx.md rule R225). -/

namespace Sys2Proof.Machine

open Sys2Proof.Config (nslots cap Instantiation)

/-! ## Invariants -/

/-- DS has one entry per descriptor (R36), ACTIVE names descriptors only (R37), and is empty only if there
is no descriptor (R253). -/
abbrev RegistryOk (s : State) : Prop :=
  s.ds.length = s.cfg.nproto ∧ (∀ j ∈ s.active, j < s.cfg.nproto) ∧ (s.active = [] → s.cfg.nproto = 0)

/-- Whenever the slot at PROD is not empty, NRPULSES is 0 (R42). -/
abbrev ParkedEmpty (s : State) : Prop := (lenRead s s.prod).val ≠ 0 → s.nrPulses.val = 0

/-- The slot `i` places after `k`, modulo NSLOTS. -/
def slotFrom (k : Fin nslots) (i : Nat) : Fin nslots := ⟨(k.val + i) % nslots, Nat.mod_lt _ (by decide)⟩

/-- The non-empty slots are exactly the `n` slots from CONS on, and PROD is the slot after them (R44). With
`n = NSLOTS` every slot is non-empty and PROD = CONS. -/
abbrev RingRun (s : State) (n : Nat) : Prop :=
  n ≤ nslots ∧ s.prod = slotFrom s.cons n ∧
    ∀ i < nslots, ((lenRead s (slotFrom s.cons i)).val ≠ 0 ↔ i < n)

/-- The ring is ordered: some number of undrained trains stand in a run from CONS to PROD (R44). -/
abbrev RingOrdered (s : State) : Prop := ∃ n, RingRun s n

/-! ## The ring as a queue (R163) -/

/-- The closed train of a slot (R35). -/
def trainAt (s : State) (k : Fin nslots) : Train := copyOut s k (lenRead s k).val

/-- The trains of the `n` slots from CONS on, in slot order. -/
def queued (s : State) (n : Nat) : List Train := (List.range n).map fun i => trainAt s (slotFrom s.cons i)

/-- The pulses of the train in progress, in order (R31). -/
def inProgress (s : State) : Train := copyOut s s.prod s.nrPulses.val

/-! ## What no command can show (R43) -/

/-- The two states differ at most in pulse words that no closed train and not the train in progress covers:
the words at and beyond each slot's length, and at and beyond NRPULSES in the slot at PROD. -/
def SamePublished (s t : State) : Prop :=
  { s with ring := t.ring } = t ∧
  (∀ k, lenRead s k = lenRead t k) ∧
  (∀ k, ∀ i < (lenRead s k).val, memRead s k i = memRead t k i) ∧
  (∀ i < s.nrPulses.val, memRead s s.prod i = memRead t s.prod i)

/-! ## Edges by their durations -/

/-- The CLOCK values of edges that follow one another at the given durations, from a baseline on. -/
def edgeTimes : Word → List Word → List Word
  | _, [] => []
  | t, d :: ds => (t + d) :: edgeTimes (t + d) ds

/-- A duration the filters store (R142). -/
abbrev Stored (s : State) (d : Word) : Prop := s.cfg.minPulse < d ∧ d < s.cfg.maxPulse

/-- The statuses and the final state of the repeat machine on a list of message texts (R186 to R189). -/
def runMachine : List Text → DescState → List Status × DescState
  | [], d => ([], d)
  | msg :: msgs, d =>
    let here := repeatMachine msg d
    let rest := runMachine msgs here.2
    (here.1 :: rest.1, rest.2)

/-! ## The real numbers of J (R5) -/

/-- A number as the model holds it stands for a real (R5, log 4). -/
def Denotes : Config.Number → ℝ → Prop
  | .rational x, r => r = x
  | .irrational whole upper, r => Irrational r ∧ ⌊r⌋ = whole ∧ (upper = true ↔ 1 / 2 < Int.fract r)

/-! ## Texts read from frames (R82, R83) -/

/-- The words are a TXT item that reads as the text: its byte count, then the words that hold its bytes, with
any padding in the last of them (R82, R83). -/
def CarriesText (t : Text) (ws : List Word) : Prop :=
  ∃ data, ws = BitVec.ofNat 32 t.length :: data ∧ data.length = (t.length + 3) / 4 ∧
    unpackText t.length data = t

/-! ## Safe configurations and safe steps -/

/-- Every create capability returns at most its descriptor's maxrawlen pulses, and at most CAP (R6,
R225): the configurations the spec admits. -/
def CreatesFit (c : Instantiation) : Prop :=
  ∀ P ∈ c.protocols, ∀ f, P.create = some f → ∀ d r, applyFn f d = some r →
    r.length ≤ P.maxrawlen.toNat ∧ r.length ≤ cap

/-- A step is safe when it answers a next state: neither a fault nor a refusal. -/
def SafeStep (s : State) : Prop := ∃ t, step s = .next t

end Sys2Proof.Machine
end

