-- ==== Sys2Proof/Certificates/Slice0/Obligations.lean ====
section
/-! DEFINITION. The statements about the model, for the provers. Each docstring names the rules of spec/
it formalises; `log <n>` is a row notes/assumptions/<n>.md a clause rests on. -/

open Sys2Proof Sys2Proof.Machine
open Sys2Proof.Config (nslots cap Instantiation Descriptor)

/-! ## Encoding -/

/-- R80 to R83, R89, R90: decoding the words of a well-formed instruction gives it back, as a trace record
for every constructor and as a CMD frame for every command. -/
def Obligations.DecodeEncodeRoundTrip : Prop :=
  ∀ (txtMax : Word) (i : Instr), i.wellFormed txtMax = true →
    decodeTrace txtMax (encode i) = .ok i ∧
    (i.isCommand = true → decodeFrame txtMax (commandWord i) (argumentWords i) = .ok i)

/-- R82, R83, R87, R90, R91: a frame that decodes carries a command with operands within the bounds, its
command word is exactly the one R90 gives that command, and its argument words are the command's, up to the
padding bytes of texts: ENCODE's are two TXT items that read as its texts and then the capacity, LIMIT's the
count and one TXT item for each id, STR2PT's a TXT item and then maxlen; every other command's are equal. -/
def Obligations.DecodedFrameIsItsEncoding : Prop :=
  ∀ (txtMax cmd : Word) (args : List Word) (i : Instr), decodeFrame txtMax cmd args = .ok i →
    i.wellFormed txtMax = true ∧ i.isCommand = true ∧ cmd = commandWord i ∧
    (∀ id msg capacity, i = .encode id msg capacity →
      ∃ w1 w2, args = w1 ++ w2 ++ [capacity] ∧ CarriesText id w1 ∧ CarriesText msg w2) ∧
    (∀ ids, i = .limit ids → ∃ items, args = BitVec.ofNat 32 ids.length :: items.flatten ∧
      List.Forall₂ CarriesText ids items) ∧
    (∀ token maxlen, i = .str2pt token maxlen → ∃ w, args = w ++ [maxlen] ∧ CarriesText token w) ∧
    ((∀ a b c, i ≠ .encode a b c) → (∀ ids, i ≠ .limit ids) → (∀ t m, i ≠ .str2pt t m) →
      args = argumentWords i)

/-- R81, R82, R90: words written out from the opcode map decode to the instructions they stand for. -/
def Obligations.WrittenWordsDecode : Prop :=
  decodeFrame 255 0x01020000 [] = .ok (.crr 2) ∧
  decodeFrame 255 0x02000000 [0xFFFFFFFF] = .ok (.crw 0 0xFFFFFFFF) ∧
  decodeFrame 255 0x10000000 [] = .ok .nextlen ∧
  decodeFrame 255 0x11000000 [] = .ok .recv ∧
  decodeFrame 255 0x20000000 [2, 300, 900] = .ok (.decode [300, 900]) ∧
  decodeFrame 255 0x30000000 [2, 0x00007074, 2, 0x00007D7B, 0xFF] =
    .ok (.encode [0x74, 0x70] [0x7B, 0x7D] 255) ∧
  decodeFrame 255 0x31000002 [2, 500, 1000] = .ok (.tx 2 [500, 1000]) ∧
  decodeFrame 255 0x40000000 [2, 2, 0x00007174, 2, 0x00007174] =
    .ok (.limit [[0x74, 0x71], [0x74, 0x71]]) ∧
  decodeFrame 255 0x50000000 [4, 300, 310, 9000, 305] = .ok (.pt2str [300, 310, 9000, 305]) ∧
  decodeFrame 255 0x51000000 [6, 0x703B3A63, 0x0000403A, 9] =
    .ok (.str2pt [0x63, 0x3A, 0x3B, 0x70, 0x3A, 0x40] 9) ∧
  decodeTrace 255 [0xFF000000, 0x1234] = .ok (.edge 0x1234)

/-- R91: a reserved OPC, or a non-zero SEL or IMM where R90 requires 0, is answered with E_ILLEGAL and
changes nothing; a CRR or CRW naming a reserved register is well-formed and returns E_OPERAND. -/
def Obligations.ReservedEncodingsAnswered : Prop :=
  ∀ (s : State) (cmd : Word) (args : List Word) (rest : List Input), s.inputs = .frame cmd args :: rest →
    (((opcOf cmd).toNat ∉ [0x01, 0x02, 0x10, 0x11, 0x20, 0x30, 0x31, 0x40, 0x50, 0x51] ∨
      ((opcOf cmd).toNat ∉ [0x01, 0x02] ∧ selOf cmd ≠ 0) ∨
      ((opcOf cmd).toNat ≠ 0x31 ∧ immOf cmd ≠ 0)) →
        step s = .next (answerError .illegal { s with inputs := rest })) ∧
    (opcOf cmd = 0x01 → immOf cmd = 0 → args = [] → 12 < (selOf cmd).toNat →
        step s = .next (answerError .operand { s with inputs := rest })) ∧
    (opcOf cmd = 0x02 → immOf cmd = 0 → args.length = 1 → 12 < (selOf cmd).toNat →
        step s = .next (answerError .operand { s with inputs := rest }))

/-- R83: byte i of a text is bits [8·(i mod 4) + 7 : 8·(i mod 4)] of data word ⌊i / 4⌋; the words written
are ⌈b / 4⌉ (R82) and their padding bytes 0x00; of the words read, bytes at positions ≥ b are ignored. -/
def Obligations.TextPackingLittleEndian : Prop :=
  (∀ (t : Text), (packText t).length = (t.length + 3) / 4 ∧
    ∀ (i : Nat) (w : Word), (packText t)[i / 4]? = some w →
      w.extractLsb' (8 * (i % 4)) 8 = t.getD i 0) ∧
  (∀ (b : Nat) (ws : List Word) (i : Nat) (w : Word), i < b → ws[i / 4]? = some w →
      (unpackText b ws)[i]? = some (w.extractLsb' (8 * (i % 4)) 8)) ∧
  (∀ (b : Nat) (ws : List Word), (unpackText b ws).length = min b (4 * ws.length))

/-- R85: the words of DEC and RAW records, with STATUS 0 FIRST, 1 INVALID, 2 VALID, 3 KNOWN. (For a text of
2^32 bytes or more the count word is the model's choice: log 26.) -/
def Obligations.EvtRecordWords : Prop :=
  (∀ (id msg dev : Text) (r : Word),
    let tail := r :: (encodeTXT id ++ encodeTXT msg ++ encodeTXT dev)
    recordFrame (.dec id msg .first r dev) = 0x00000001 :: tail ∧
    recordFrame (.dec id msg .invalid r dev) = 0x00000101 :: tail ∧
    recordFrame (.dec id msg .valid r dev) = 0x00000201 :: tail ∧
    recordFrame (.dec id msg .known r dev) = 0x00000301 :: tail) ∧
  (∀ (p : Train), recordFrame (.raw p) = 0x00000002 :: BitVec.ofNat 32 p.length :: p)

/-- R300: the error codes are the distinct negative values -1 to -6. -/
def Obligations.ErrorCodeValues : Prop :=
  (errorWord .malformed).toInt = -1 ∧ (errorWord .noProto).toInt = -2 ∧ (errorWord .create).toInt = -3 ∧
  (errorWord .format).toInt = -4 ∧ (errorWord .illegal).toInt = -5 ∧ (errorWord .operand).toInt = -6

/-! ## The step -/

/-- A step runs the decoded instruction (R67, R80, R87, R140): a frame that decodes runs its command, one
that does not is answered with E_ILLEGAL and changes nothing, an edge is the sampler's step; with no input
nothing changes (log 8). -/
def Obligations.StepRunsDecodedInstruction : Prop :=
  ∀ (s : State) (rest : List Input),
    (∀ cmd args i, s.inputs = .frame cmd args :: rest → decodeFrame s.cfg.txtMax cmd args = .ok i →
      step s = exec i { s with inputs := rest }) ∧
    (∀ cmd args e, s.inputs = .frame cmd args :: rest → decodeFrame s.cfg.txtMax cmd args = .error e →
      step s = .next { s with inputs := rest, results := s.results ++ [⟨BitVec.ofInt 32 (-5), []⟩] }) ∧
    (∀ now, s.inputs = .edge now :: rest → step s = exec (.edge now) { s with inputs := rest }) ∧
    (s.inputs = [] → step s = .next s)

/-- The host's entry to the machine (log 14): a table word that the decoder reads as an instruction runs
exactly that instruction as the very next step, from any state. -/
def Obligations.TableWordRunsNext : Prop :=
  ∀ (s : State) (nbits w : Nat) (i : Instr), decodeTableWord nbits w = some i →
    step (s.withFetchWord nbits w) = exec i s

/-- R87: an instruction whose operands are out of bounds is answered with E_ILLEGAL by its meaning as well
(log 12): whatever it is, nothing but the result frame changes. -/
def Obligations.OversizedOperandsIllegal : Prop :=
  ∀ (s : State) (i : Instr), i.wellFormed s.cfg.txtMax = false →
    exec i s = .next { s with results := s.results ++ [⟨BitVec.ofInt 32 (-5), []⟩] }

/-- R80: the block answers each command frame with exactly one result frame; an edge sends none. -/
def Obligations.OneResultPerFrame : Prop :=
  ∀ (s t : State) (rest : List Input), step s = .next t →
    (∀ cmd args, s.inputs = .frame cmd args :: rest →
      t.inputs = rest ∧ ∃ r, t.results = s.results ++ [r]) ∧
    (∀ now, s.inputs = .edge now :: rest → t.inputs = rest ∧ t.results = s.results)

/-- R39: EVT, TX and the result frames are append-only, but for a reset, which empties them (R331; for the
result frames log 9). -/
def Obligations.OutputsAppendOnly : Prop :=
  ∀ (s t : State), step s = .next t → (∀ rest, s.inputs ≠ .reset :: rest) →
    s.evt <+: t.evt ∧ s.tx <+: t.tx ∧ s.results <+: t.results

/-- R331: the reset value of every piece of state the spec gives one, for any instantiation. (The pulse
words, which the spec leaves unspecified, are not named here. ACTIVE_N and NPROTO of a registry of 2^32 or
more descriptors are the model's choice: log 25.) -/
def Obligations.ResetValues : Prop :=
  ∀ (c : Instantiation),
    let s := State.resetWith c
    s.cfg = c ∧ s.rxEn = false ∧ s.cbDec = false ∧ s.cbRaw = false ∧
    s.minGapLen = 5100 ∧ s.minRawLen = 5 ∧ s.maxRawLen = 255 ∧
    s.prod.val = 0 ∧ s.cons.val = 0 ∧ s.nrPulses.val = 0 ∧ s.lastEdge = 0 ∧
    readCR s 9 = some 10 ∧ readCR s 10 = some 255 ∧
    readCR s 11 = some (BitVec.ofNat 32 c.protocols.length) ∧
    readCR s 12 = some (BitVec.ofNat 32 c.protocols.length) ∧
    (∀ k, (lenRead s k).val = 0) ∧
    s.ds.length = c.protocols.length ∧
    (∀ j, dsAt s j = ⟨0, false, 0, 0, false, [], 0⟩) ∧
    s.active = List.range c.protocols.length ∧ s.txLevel = .low ∧ s.evt = [] ∧ s.tx = []

/-- The reset event (R330): every piece of state takes its reset value, the instantiation is the same, and
the environment's inputs stay (log 9). From the opaque instantiation this state is `State.reset`'s. -/
def Obligations.ResetEventRestarts : Prop :=
  (∀ (s : State) (rest : List Input), s.inputs = .reset :: rest →
    step s = .next { State.resetWith s.cfg with
      inputs := rest, clockIn := s.clockIn, clockReads := s.clockReads }) ∧
  State.reset = State.resetWith Config.instantiation

/-- R338 and R225: from any state whose configuration's create capabilities fit, every step answers a next
state; on any configuration a step never refuses, and it faults only on an ENCODE frame. -/
def Obligations.StepsNeverHang : Prop :=
  (∀ s : State, CreatesFit s.cfg → SafeStep s) ∧
  (∀ (s : State) (r : Refusal), step s ≠ .refused r) ∧
  (∀ (s : State) (f : Fault), step s = .fault f →
    ∃ cmd args rest id msg capacity, s.inputs = .frame cmd args :: rest ∧
      decodeFrame s.cfg.txtMax cmd args = .ok (.encode id msg capacity))

/-! ## Control registers -/

/-- The values of R23 to R34 that CRR reads: for every register number it completes with RES = 0 and the
register's value, and nothing else changes (R120). (Registers 11 and 12 for a registry of 2^32 or more
descriptors are the model's choice: log 25.) -/
def Obligations.CrrReadsEveryRegister : Prop :=
  ∀ s : State,
    exec (.crr 0) s = .next (answer 0 [if s.rxEn = true then 1 else 0] s) ∧
    exec (.crr 1) s = .next (answer 0
      [(if s.cbDec = true then 1 else 0) + (if s.cbRaw = true then 2 else 0)] s) ∧
    exec (.crr 2) s = .next (answer 0 [s.minGapLen] s) ∧
    exec (.crr 3) s = .next (answer 0 [s.minRawLen] s) ∧
    exec (.crr 4) s = .next (answer 0 [s.maxRawLen] s) ∧
    exec (.crr 5) s = .next (answer 0 [BitVec.ofNat 32 s.prod.val] s) ∧
    exec (.crr 6) s = .next (answer 0 [BitVec.ofNat 32 s.cons.val] s) ∧
    exec (.crr 7) s = .next (answer 0 [BitVec.ofNat 32 s.nrPulses.val] s) ∧
    exec (.crr 8) s = .next (answer 0 [s.lastEdge] s) ∧
    exec (.crr 9) s = .next (answer 0 [10] s) ∧
    exec (.crr 10) s = .next (answer 0 [255] s) ∧
    exec (.crr 11) s = .next (answer 0 [BitVec.ofNat 32 s.active.length] s) ∧
    exec (.crr 12) s = .next (answer 0 [BitVec.ofNat 32 s.cfg.protocols.length] s)

/-- R121: CRR and CRW of a register number 13 to 255 return E_OPERAND with no payload and change nothing. -/
def Obligations.ReservedRegisterRefused : Prop :=
  ∀ (s : State) (n : BitVec 8) (v : Word), 13 ≤ n.toNat →
    exec (.crr n) s = .next (answer (BitVec.ofInt 32 (-6)) [] s) ∧
    exec (.crw n v) s = .next (answer (BitVec.ofInt 32 (-6)) [] s)

/-- R123: CRW of a read-only register returns E_OPERAND and changes nothing; only the sampler moves PROD and
only RECV moves CONS, in any step that is no reset. -/
def Obligations.CursorsHaveOneOwner : Prop :=
  (∀ (s : State) (n : BitVec 8) (v : Word), 5 ≤ n.toNat → n.toNat ≤ 12 →
    exec (.crw n v) s = .next (answer (BitVec.ofInt 32 (-6)) [] s)) ∧
  (∀ (s t : State) (i : Input) (rest : List Input), s.inputs = i :: rest → i ≠ .reset → step s = .next t →
    (t.prod ≠ s.prod → t.prod = nextSlot s.prod ∧ ∃ now, i = .edge now) ∧
    (t.cons ≠ s.cons → t.cons = nextSlot s.cons ∧
      ∃ cmd args, i = .frame cmd args ∧ decodeFrame s.cfg.txtMax cmd args = .ok .recv))

/-- R124: a CRW of RXEN changes only RXEN.EN, which takes bit 0 of the value; while EN = 0 no sequence of
edges changes anything, so a later enabled edge measures from the LASTEDGE of before the disable. -/
def Obligations.CrwRxenChangesOnlyEn : Prop :=
  (∀ (s : State) (v : Word), exec (.crw 0 v) s = .next (answer 0 [] { s with rxEn := v.getLsbD 0 })) ∧
  (∀ (s : State) (nows : List Word), s.rxEn = false → runEdges nows s = s)

/-- R125, R126: CRW of CBEN takes bits 0 and 1; CRW of MINGAPLEN, MINRAWLEN and MAXRAWLEN stores all 32 bits
of any value; nothing else changes; and the register then reads back as written, CBEN with its reserved
bits 0. -/
def Obligations.CrwWritesConfiguration : Prop :=
  ∀ (s : State) (v : Word),
    exec (.crw 1 v) s = .next (answer 0 [] { s with cbDec := v.getLsbD 0, cbRaw := v.getLsbD 1 }) ∧
    exec (.crw 2 v) s = .next (answer 0 [] { s with minGapLen := v }) ∧
    exec (.crw 3 v) s = .next (answer 0 [] { s with minRawLen := v }) ∧
    exec (.crw 4 v) s = .next (answer 0 [] { s with maxRawLen := v }) ∧
    (∀ t, exec (.crw 0 v) s = .next t → readCR t 0 = some (v &&& 1)) ∧
    (∀ t, exec (.crw 1 v) s = .next t → readCR t 1 = some (v &&& 3)) ∧
    (∀ n t, 2 ≤ n.toNat → n.toNat ≤ 4 → exec (.crw n v) s = .next t → readCR t n = some v)

/-! ## The sampler -/

/-- R141: a disabled sampler, or one whose slot at PROD is not empty, changes nothing. -/
def Obligations.EdgeGatedChangesNothing : Prop :=
  ∀ (s : State) (now : Word), (s.rxEn = false ∨ (lenRead s s.prod).val ≠ 0) →
    exec (.edge now) s = .next s

/-- R146 (with R145): on an enabled sampler with an empty slot, an edge with d ≤ MIN_PULSE changes nothing,
and one with d ≥ MAX_PULSE only moves LASTEDGE; both of an admissible instantiation (R3). -/
def Obligations.EdgeRejectedByFilters : Prop :=
  ∀ (s : State) (now : Word), s.cfg.Admissible → s.rxEn = true → (lenRead s s.prod).val = 0 →
    (now - s.lastEdge ≤ s.cfg.minPulse → exec (.edge now) s = .next s) ∧
    (s.cfg.maxPulse ≤ now - s.lastEdge → exec (.edge now) s = .next { s with lastEdge := now })

/-- R142 to R145: an accepted edge within the filters stores its duration at index NRPULSES of slot PROD and
moves LASTEDGE; below the gap threshold NRPULSES counts it modulo CAP and the slot stays open; at a gap the
slot closes with the counted length and PROD advances if the length qualifies, and NRPULSES is 0 either
way. -/
def Obligations.EdgeStoresPulse : Prop :=
  ∀ (s : State) (now : Word), s.rxEn = true → (lenRead s s.prod).val = 0 → Stored s (now - s.lastEdge) →
    ∃ t, exec (.edge now) s = .next t ∧ t.lastEdge = now ∧
      memRead t s.prod s.nrPulses.val = now - s.lastEdge ∧
      (now - s.lastEdge ≤ s.minGapLen →
        t.nrPulses.val = (s.nrPulses.val + 1) % 255 ∧ t.prod = s.prod ∧ (lenRead t s.prod).val = 0) ∧
      (s.minGapLen < now - s.lastEdge → t.nrPulses.val = 0 ∧
        (s.minRawLen.toNat ≤ (s.nrPulses.val + 1) % 255 ∧ (s.nrPulses.val + 1) % 255 ≤ s.maxRawLen.toNat →
          (lenRead t s.prod).val = (s.nrPulses.val + 1) % 255 ∧ t.prod.val = (s.prod.val + 1) % 10) ∧
        (¬ (s.minRawLen.toNat ≤ (s.nrPulses.val + 1) % 255 ∧
            (s.nrPulses.val + 1) % 255 ≤ s.maxRawLen.toNat) →
          (lenRead t s.prod).val = 0 ∧ t.prod = s.prod))

/-- The frame of EDGE (R140 and the ownership rules R29 to R32 and R35): the step completes in every state;
nothing but RING, PROD, NRPULSES and LASTEDGE changes; every pulse word but the one at (PROD, NRPULSES) and
the length of every slot but PROD are unchanged. -/
def Obligations.EdgeFrame : Prop :=
  ∀ (s : State) (now : Word), ∃ t, exec (.edge now) s = .next t ∧
    t = { s with ring := t.ring, prod := t.prod, nrPulses := t.nrPulses, lastEdge := t.lastEdge } ∧
    (∀ k i, (k ≠ s.prod ∨ i ≠ s.nrPulses.val) → memRead t k i = memRead s k i) ∧
    (∀ k, k ≠ s.prod → lenRead t k = lenRead s k)

/-- R148: k sub-gap pulses and a gap pulse, with no wrap (k + 1 < CAP), close the slot with length k + 1,
holding the k pulses and the gap duration, when the length qualifies, and are discarded otherwise; with
the reset configuration they close exactly when 4 ≤ k ≤ 253. Said of the machine's own run over the edges. -/
def Obligations.PulseTrainCapture : Prop :=
  ∀ (s : State) (ds : List Word) (g : Word) (rest : List Input),
    s.rxEn = true → (lenRead s s.prod).val = 0 → s.nrPulses.val = 0 →
    (∀ d ∈ ds, Stored s d ∧ d ≤ s.minGapLen) → Stored s g → s.minGapLen < g → ds.length + 1 < 255 →
    s.inputs = (edgeTimes s.lastEdge (ds ++ [g])).map .edge ++ rest →
    ∃ t, core.run (ds.length + 1) s = .next t ∧ t.inputs = rest ∧ t.nrPulses.val = 0 ∧
      ((s.minRawLen.toNat ≤ ds.length + 1 ∧ ds.length + 1 ≤ s.maxRawLen.toNat) →
        (lenRead t s.prod).val = ds.length + 1 ∧ trainAt t s.prod = ds ++ [g] ∧ t.prod = nextSlot s.prod) ∧
      (¬ (s.minRawLen.toNat ≤ ds.length + 1 ∧ ds.length + 1 ≤ s.maxRawLen.toNat) →
        (lenRead t s.prod).val = 0 ∧ t.prod = s.prod) ∧
      (s.minRawLen = 5 → s.maxRawLen = 255 →
        (t.prod = nextSlot s.prod ↔ 4 ≤ ds.length ∧ ds.length ≤ 253))

/-- R147, R350: an overlong train wraps. After k sub-gap pulses and a gap the count is (k + 1) mod CAP; if
that qualifies, the slot closes with that length and holds the last (k + 1) mod CAP durations. -/
def Obligations.OverlongTrainKeepsSuffix : Prop :=
  ∀ (s : State) (ds : List Word) (g : Word),
    s.rxEn = true → (lenRead s s.prod).val = 0 → s.nrPulses.val = 0 →
    (∀ d ∈ ds, Stored s d ∧ d ≤ s.minGapLen) → Stored s g → s.minGapLen < g →
    s.minRawLen.toNat ≤ (ds.length + 1) % 255 → (ds.length + 1) % 255 ≤ s.maxRawLen.toNat →
    let t := runEdges (edgeTimes s.lastEdge (ds ++ [g])) s
    t.prod = nextSlot s.prod ∧ (lenRead t s.prod).val = (ds.length + 1) % 255 ∧
    trainAt t s.prod = (ds ++ [g]).drop (ds.length + 1 - (ds.length + 1) % 255)

/-! ## The ring -/

/-- R42: whenever the slot at PROD is not empty, NRPULSES is 0; every step keeps it. -/
def Obligations.ParkedEmptyKept : Prop :=
  ∀ s t : State, ParkedEmpty s → step s = .next t → ParkedEmpty t

/-- R44: while MINRAWLEN ≥ 1, every step keeps the non-empty slots a run from CONS up to PROD. -/
def Obligations.RingOrderKept : Prop :=
  ∀ s t : State, RingOrdered s → 1 ≤ s.minRawLen.toNat → step s = .next t → RingOrdered t

/-- The invariants R42, R44 and the registry's hold at reset, for any instantiation and for the model's. -/
def Obligations.InvariantsAtReset : Prop :=
  (∀ c : Instantiation, RegistryOk (State.resetWith c) ∧ ParkedEmpty (State.resetWith c) ∧
    RingRun (State.resetWith c) 0) ∧
  RegistryOk State.reset ∧ ParkedEmpty State.reset ∧ RingOrdered State.reset

/-- R43, R68: no step shows a pulse word that no closed train and not the train in progress covers: two
states that differ only in such words step to states that differ only in such words, so with the same
result frames, records and primitives. -/
def Obligations.StalePulsesNeverShown : Prop :=
  ∀ s t : State, SamePublished s t →
    (∀ s', step s = .next s' → ∃ t', step t = .next t' ∧ SamePublished s' t') ∧
    (∀ f, step s = .fault f → step t = .fault f)

/-- R160: NEXTLEN returns the length of the slot at CONS and changes no state; a length that is not 0 is
what the next RECV returns, whatever edges fall between. -/
def Obligations.NextlenPeeks : Prop :=
  ∀ s : State,
    exec .nextlen s = .next (answer (BitVec.ofNat 32 (lenRead s s.cons).val) [] s) ∧
    ∀ nows : List Word, (lenRead s s.cons).val ≠ 0 →
      ∃ t out, exec .recv (runEdges nows s) = .next t ∧ out.length = (lenRead s s.cons).val ∧
        t.results = s.results ++ [⟨BitVec.ofNat 32 (lenRead s s.cons).val, out⟩]

/-- R161, R162: on an empty slot RECV returns 0 and nothing moves; else it returns the length L and the L
pulse words of the slot at CONS, leaves that slot's length 0 and advances CONS by one modulo NSLOTS. -/
def Obligations.RecvDrainsSlot : Prop :=
  ∀ s : State,
    ((lenRead s s.cons).val = 0 → exec .recv s = .next (answer 0 [] s)) ∧
    ((lenRead s s.cons).val ≠ 0 →
      ∃ t out, exec .recv s = .next t ∧ out.length = (lenRead s s.cons).val ∧
        (∀ i < out.length, out[i]? = some (memRead s s.cons i)) ∧
        t.results = s.results ++ [⟨BitVec.ofNat 32 (lenRead s s.cons).val, out⟩] ∧
        (lenRead t s.cons).val = 0 ∧ t.cons.val = (s.cons.val + 1) % 10)

/-- The frame of RECV (R161, R311): it completes in every state; nothing but RING, CONS and the result
frames changes, no pulse word changes, and no length but that of the slot at CONS. -/
def Obligations.RecvFrame : Prop :=
  ∀ s : State, ∃ t, exec .recv s = .next t ∧
    t = { s with ring := t.ring, cons := t.cons, results := t.results } ∧
    (∀ k i, memRead t k i = memRead s k i) ∧ (∀ k, k ≠ s.cons → lenRead t k = lenRead s k)

/-- R163: with the ring ordered and MINRAWLEN ≥ 1 the ring is a queue. RECV answers the oldest closed train
and takes it off; an edge leaves the queue or adds, at the end, the train in progress with the gap. -/
def Obligations.RingIsQueue : Prop :=
  ∀ (s : State) (n : Nat), RingRun s n →
    (n = 0 → exec .recv s = .next (answer 0 [] s)) ∧
    (∀ m, n = m + 1 → ∃ t first, exec .recv s = .next t ∧ RingRun t m ∧
      queued s n = first :: queued t m ∧
      t.results = s.results ++ [⟨BitVec.ofNat 32 first.length, first⟩]) ∧
    (∀ now, 1 ≤ s.minRawLen.toNat → ∃ t, exec (.edge now) s = .next t ∧
      ((RingRun t n ∧ queued t n = queued s n) ∨
       (n < nslots ∧ RingRun t (n + 1) ∧
        queued t (n + 1) = queued s n ++ [inProgress s ++ [now - s.lastEdge]])))

/-- R71, in the form that holds (log 6): RECV with edges between its sub-steps ends as the atomic RECV does
with the edges before the release of the slot moved before the command and the later ones after it. -/
def Obligations.RecvSubstepsEquivalent : Prop :=
  ∀ (s : State) (before : Nat → List Word) (beforeRelease beforeAdvance : List Word),
    (lenRead s s.cons).val ≠ 0 →
    let early := ((List.range (lenRead s s.cons).val).map before).flatten ++ beforeRelease
    exec .recv (runEdges early s) = .next (recvStep (runEdges early s)) ∧
    recvInterleaved before beforeRelease beforeAdvance s =
      runEdges beforeAdvance (recvStep (runEdges early s))

/-- R71 as its text reads, for RECV: every edge that fell inside the command may be moved to just after it.
Expected to FAIL: with the ring full, an edge before the release is dropped, and after the command it is
not (log 6). -/
def Obligations.RecvEdgesMoveAfterCommand : Prop :=
  ∀ (s : State) (before : Nat → List Word) (beforeRelease beforeAdvance : List Word),
    (lenRead s s.cons).val ≠ 0 →
    let early := ((List.range (lenRead s s.cons).val).map before).flatten ++ beforeRelease
    recvInterleaved before beforeRelease beforeAdvance s =
      runEdges (early ++ beforeAdvance) (recvStep s)

/-! ## DECODE -/

/-- R182, R183, R191: entries that lack validate or parse have no effect, and an entry whose validate fails
sets RAWLEN alone; the RAW record, if CBEN.RAW is set, is the last record. RES is 0. -/
def Obligations.DecodeSkipsEntries : Prop :=
  (∀ (s : State) (T : Train), T.length ≤ 255 →
    (∀ j ∈ s.active, ∀ P, s.cfg.protocols[j]? = some P → P.validate = none ∨ P.parse = none) →
    exec (.decode T) s = .next (answer 0 [] (if s.cbRaw = true then emit (.raw T) s else s))) ∧
  (∀ (s : State) (T : Train) (j : Nat) (P : Descriptor) v p, T.length ≤ 255 → s.active = [j] →
    s.cfg.protocols[j]? = some P → P.validate = some v → P.parse = some p → applyFn v T = false →
    exec (.decode T) s = .next (answer 0 []
      (emitRaw T { s with ds := s.ds.set j { dsAt s j with rawlen := BitVec.ofNat 32 T.length } })))

/-- R184, R185, R199: a validated entry whose parse produces nothing draws the clock once, sets RAWLEN and
SECOND, moves the old SECOND (or, the first time, the new one) into FIRST, resets REPEATS to 0 when SECOND -
FIRST exceeds 500000 modulo 2^32, emits no DEC record and counts no match. -/
def Obligations.DecodeBurstTiming : Prop :=
  ∀ (s : State) (T : Train) (j : Nat) (P : Descriptor) v p, T.length ≤ 255 → s.active = [j] →
    s.cfg.protocols[j]? = some P → P.validate = some v → P.parse = some p → applyFn v T = true →
    applyFn p T = none → j < s.ds.length →
    let d := dsAt s j
    let now := clockValue s
    let first := if d.firstV = true then d.second else now
    let d' : DescState := { d with
      rawlen := BitVec.ofNat 32 T.length, firstV := true, first := first, second := now,
      repeats := if 500000 < (now - first).toNat then 0 else d.repeats }
    exec (.decode T) s =
      .next (answer 0 [] (emitRaw T { afterClock s with ds := s.ds.set j d' }))

/-- R186 to R190, R192, R196: the repeat machine on a message, for an ACTIVE of one entry. With r the count
after burst timing plus one modulo 2^32: FIRST if r ≤ 1 or there is no snapshot; else below 100 VALID with
r + 100 on equal texts and INVALID on unequal ones; else KNOWN with the snapshot unchanged. One DEC record
with the machine's results if CBEN.DEC is set, and RES = 1 in any case. -/
def Obligations.DecodeRepeatMachine : Prop :=
  ∀ (s : State) (T : Train) (j : Nat) (P : Descriptor) v p m, T.length ≤ 255 → s.active = [j] →
    s.cfg.protocols[j]? = some P → P.validate = some v → P.parse = some p → applyFn v T = true →
    applyFn p T = some m → j < s.ds.length →
    let d := burstTiming (clockValue s) { dsAt s j with rawlen := BitVec.ofNat 32 T.length }
    let r := d.repeats + 1
    let msg := applyFn s.cfg.codec.encode m
    let ends := fun (status : Status) (d' : DescState) =>
      let s1 : State := { afterClock s with ds := s.ds.set j d' }
      exec (.decode T) s = .next (answer 1 [] (emitRaw T
        (if s.cbDec = true then emit (.dec P.id d'.snap status d'.repeats (deviceId s.cfg m)) s1 else s1)))
    (r.toNat ≤ 1 ∨ d.snapV = false → ends .first { d with repeats := r, snap := msg, snapV := true }) ∧
    (1 < r.toNat → r.toNat < 100 → d.snapV = true → msg = d.snap →
      ends .valid { d with repeats := r + 100, snap := msg }) ∧
    (1 < r.toNat → r.toNat < 100 → d.snapV = true → msg ≠ d.snap →
      ends .invalid { d with repeats := r, snap := msg }) ∧
    (100 ≤ r.toNat → d.snapV = true → ends .known { d with repeats := r })

/-- R181, R192, R197: DECODE over an ACTIVE that is one list followed by another does what a DECODE over the
first does (with no RAW record) and then a DECODE of the same train over the second, in the state the first
left; the two counts add up to RES. An index listed twice is so processed twice. (RES for 2^31 or more messages
is the model's choice, the count modulo 2^32: log 13.) -/
def Obligations.DecodeComposes : Prop :=
  ∀ (s : State) (T : Train) (a b : List Nat), T.length ≤ 255 → s.active = a ++ b →
    ∃ t1 t2 n1 n2,
      exec (.decode T) { s with active := a, cbRaw := false } = .next t1 ∧
      exec (.decode T) { t1 with active := b, cbRaw := s.cbRaw } = .next t2 ∧
      t1.results = s.results ++ [⟨BitVec.ofNat 32 n1, []⟩] ∧
      t2.results = t1.results ++ [⟨BitVec.ofNat 32 n2, []⟩] ∧
      exec (.decode T) s = .next { t2 with
        active := s.active, results := s.results ++ [⟨BitVec.ofNat 32 (n1 + n2), []⟩] }

/-- R181, R190 to R192: one DECODE emits, if CBEN.DEC is set, exactly RES many DEC records, and then, if
CBEN.RAW is set, RAW with the train as given; RES counts at most the entries of ACTIVE. The DEC records come
in ACTIVE order: their protocol ids are those of a sublist of ACTIVE, entry by entry. (RES for 2^31 or more
messages is the model's choice, the count modulo 2^32: log 13.) -/
def Obligations.DecodeRecordsInOrder : Prop :=
  ∀ (s : State) (T : Train), T.length ≤ 255 →
    ∃ t matched decs, exec (.decode T) s = .next t ∧ matched ≤ s.active.length ∧
      t.results = s.results ++ [⟨BitVec.ofNat 32 matched, []⟩] ∧
      t.evt = s.evt ++ decs ++ (if s.cbRaw = true then [.raw T] else []) ∧
      decs.length = (if s.cbDec = true then matched else 0) ∧
      ∃ js, js.Sublist s.active ∧
        List.Forall₂ (fun j r => ∃ P, s.cfg.protocols[j]? = some P ∧
          ∃ msg st n dev, r = Record.dec P.id msg st n dev) js decs

/-- The frame of DECODE (R180, R194): it completes on every train within CAP; it touches no ring, cursor,
sampler or control-register state, not ACTIVE and not TX, and DS only of the descriptors ACTIVE lists. -/
def Obligations.DecodeFrame : Prop :=
  ∀ (s : State) (T : Train), T.length ≤ 255 →
    ∃ t, exec (.decode T) s = .next t ∧
      t = { s with ds := t.ds, evt := t.evt, results := t.results, clockIn := t.clockIn,
                   clockReads := t.clockReads } ∧
      t.ds.length = s.ds.length ∧ ∀ j, j ∉ s.active → dsAt t j = dsAt s j

/-- R195: from REPEATS = 0 or a burst reset, three messages with equal text, each validated within 500 ms of
the one before, give FIRST, VALID, KNOWN with counts 1, 102, 103; a second message with another text gives
INVALID with count 2; a second message after more than 500 ms gives FIRST with count 1. -/
def Obligations.BurstStatuses : Prop :=
  ∀ (s : State) (j : Nat) (P : Descriptor) v p (T1 T2 T3 : Train) m1 m2 m3 (c1 c2 c3 : Word) cs,
    s.active = [j] → s.cfg.protocols[j]? = some P → P.validate = some v → P.parse = some p →
    j < s.ds.length → s.cbDec = true → s.cbRaw = false → s.clockIn = c1 :: c2 :: c3 :: cs →
    T1.length ≤ 255 → T2.length ≤ 255 → T3.length ≤ 255 →
    applyFn v T1 = true → applyFn v T2 = true → applyFn v T3 = true →
    applyFn p T1 = some m1 → applyFn p T2 = some m2 → applyFn p T3 = some m3 →
    ((dsAt s j).repeats = 0 ∨
      ((dsAt s j).firstV = true ∧ 500000 < (c1 - (dsAt s j).second).toNat)) →
    let text := fun m => applyFn s.cfg.codec.encode m
    let dev := fun m => deviceId s.cfg m
    ∃ t1 t2, exec (.decode T1) s = .next t1 ∧ exec (.decode T2) t1 = .next t2 ∧
      t1.evt = s.evt ++ [.dec P.id (text m1) .first 1 (dev m1)] ∧
      ((c2 - c1).toNat ≤ 500000 → text m2 ≠ text m1 →
        t2.evt = t1.evt ++ [.dec P.id (text m2) .invalid 2 (dev m2)]) ∧
      (500000 < (c2 - c1).toNat →
        t2.evt = t1.evt ++ [.dec P.id (text m2) .first 1 (dev m2)]) ∧
      ((c2 - c1).toNat ≤ 500000 → (c3 - c2).toNat ≤ 500000 → text m2 = text m1 → text m3 = text m1 →
        t2.evt = t1.evt ++ [.dec P.id (text m1) .valid 102 (dev m2)] ∧
        ∃ t3, exec (.decode T3) t2 = .next t3 ∧
          t3.evt = t2.evt ++ [.dec P.id (text m1) .known 103 (dev m3)])

/-- R198: from a burst reset, a FIRST and 98 consecutive INVALID results bring REPEATS to 99, and the 100th
message of the burst gets KNOWN with REPEATS = 100, whatever its text. A count that wraps to 0, or reaches 1,
gives FIRST. -/
def Obligations.InvalidRunReachesKnown : Prop :=
  (∀ (d : DescState) (msgs : List Text) (last : Text), d.repeats = 0 → msgs.length = 99 →
    msgs.IsChain (· ≠ ·) →
    (runMachine msgs d).1 = .first :: List.replicate 98 .invalid ∧
    (runMachine msgs d).2.repeats = 99 ∧
    (repeatMachine last (runMachine msgs d).2).1 = .known ∧
    (repeatMachine last (runMachine msgs d).2).2.repeats = 100) ∧
  (∀ (d : DescState) (msg : Text), d.repeats = 0xFFFFFFFF ∨ d.repeats = 0 →
    (repeatMachine msg d).1 = .first ∧ (repeatMachine msg d).2.repeats = d.repeats + 1)

/-- R193: the number of a device identifier, whatever real it denotes (R5, log 4), is the nearest integer, a
tie going away from zero, and its text is '-' for a negative one and then its decimal digits with no leading
zero, '0' for zero; a message with no number gives its string, or the empty text. -/
def Obligations.DeviceIdText : Prop :=
  (∀ (x : Config.Number) (r : ℝ), Denotes x r → |r - roundAway x| ≤ 1 / 2 ∧
    (|r - roundAway x| = 1 / 2 → |r| < |(roundAway x : ℝ)|)) ∧
  (∀ n : Nat, (decimalText n).foldl (fun v ch => 10 * v + (ch.toNat - 48)) 0 = n ∧
    (∀ ch ∈ decimalText n, 48 ≤ ch.toNat ∧ ch.toNat ≤ 57) ∧ decimalText n ≠ [] ∧
    ((decimalText n).head? = some 48 → decimalText n = [48])) ∧
  (∀ v : Int, integerText v = (if v < 0 then [0x2D] else []) ++ decimalText v.natAbs) ∧
  (∀ (c : Instantiation) (m : Config.Doc),
    (∀ x, applyFn c.codec.num (m, c.devidKey) = some x → deviceId c m = integerText (roundAway x)) ∧
    (applyFn c.codec.num (m, c.devidKey) = none → ∀ t, applyFn c.codec.str (m, c.devidKey) = some t →
      deviceId c m = t) ∧
    (applyFn c.codec.num (m, c.devidKey) = none → applyFn c.codec.str (m, c.devidKey) = none →
      deviceId c m = []))

/-! ## ENCODE -/

/-- R221, R222: a message text that is not well-formed returns E_MALFORMED and nothing else happens. If it is
and no canonical descriptor has the id, a maxrawlen within the capacity and a create capability, ENCODE
returns E_NOPROTO and nothing else happens; ids being unique (R3), one descriptor with the id that fails a
condition is enough for that. R226: the empty id returns E_NOPROTO too, even where a descriptor's own id is
empty (the model's reading of R226 against R222: log 27). -/
def Obligations.EncodeRefusals : Prop :=
  ∀ (s : State) (id msg : Text) (capacity : Word), id.length ≤ s.cfg.txtMax.toNat →
    msg.length ≤ s.cfg.txtMax.toNat →
    (applyFn s.cfg.codec.valid msg = false →
      exec (.encode id msg capacity) s = .next (answer (BitVec.ofInt 32 (-1)) [] s)) ∧
    (applyFn s.cfg.codec.valid msg = true →
      (∀ P ∈ s.cfg.protocols, P.id = id → P.maxrawlen ≤ capacity → P.create = none) →
      exec (.encode id msg capacity) s = .next (answer (BitVec.ofInt 32 (-2)) [] s)) ∧
    (applyFn s.cfg.codec.valid msg = true → s.cfg.Admissible →
      ∀ P ∈ s.cfg.protocols, P.id = id → (capacity < P.maxrawlen ∨ P.create = none) →
      exec (.encode id msg capacity) s = .next (answer (BitVec.ofInt 32 (-2)) [] s)) ∧
    (applyFn s.cfg.codec.valid msg = true → id = [] →
      exec (.encode id msg capacity) s = .next (answer (BitVec.ofInt 32 (-2)) [] s))

/-- R222 to R225: the first canonical descriptor with the id, a maxrawlen within the capacity and a create
capability is used, whatever ACTIVE says, unless the id is empty (EncodeRefusals says what then: log 27). A
train within maxrawlen is answered with its length and words and RAWLEN is its length; a failure is answered
E_CREATE and RAWLEN is 0; a train beyond maxrawlen is the fault of the configuration (log 11). Nothing else
changes. -/
def Obligations.EncodeBuildsTrain : Prop :=
  ∀ (s : State) (id msg : Text) (capacity : Word) (j : Nat) (P : Descriptor) f,
    id.length ≤ s.cfg.txtMax.toNat → msg.length ≤ s.cfg.txtMax.toNat →
    applyFn s.cfg.codec.valid msg = true → id ≠ [] → s.cfg.protocols[j]? = some P → P.id = id →
    P.maxrawlen ≤ capacity → P.create = some f →
    (∀ i < j, ∀ Q, s.cfg.protocols[i]? = some Q → Q.id = id → Q.maxrawlen ≤ capacity → Q.create = none) →
    let doc := applyFn s.cfg.codec.parse msg
    (∀ r, applyFn f doc = some r → r.length ≤ P.maxrawlen.toNat → r.length ≤ 255 →
      exec (.encode id msg capacity) s = .next (answer (BitVec.ofNat 32 r.length) r
        { s with ds := s.ds.set j { dsAt s j with rawlen := BitVec.ofNat 32 r.length } })) ∧
    (applyFn f doc = none →
      exec (.encode id msg capacity) s = .next (answer (BitVec.ofInt 32 (-3)) []
        { s with ds := s.ds.set j { dsAt s j with rawlen := 0 } })) ∧
    (∀ r, applyFn f doc = some r → P.maxrawlen.toNat < r.length →
      exec (.encode id msg capacity) s = .fault .createOverrun)

/-- The frame of ENCODE (R222 to R224, R226, R227; that the search never finds a descriptor of empty id is
the model's reading, log 27): a next state differs in one result frame and in the RAWLEN of
the descriptor the search finds, which is the length of the created train, or 0 if create fails. DS is
unchanged where the search finds none, the message is malformed or an operand is out of bounds. No other DS
field, no ring, cursor, control register, ACTIVE, EVT or TX changes. -/
def Obligations.EncodeFrame : Prop :=
  ∀ (s t : State) (id msg : Text) (capacity : Word), exec (.encode id msg capacity) s = .next t →
    t = { s with ds := t.ds, results := t.results } ∧
    (∃ r, t.results = s.results ++ [r]) ∧
    (∀ e, (Instr.encode id msg capacity).wellFormed s.cfg.txtMax = true →
      applyFn s.cfg.codec.valid msg = true → findEncoder id capacity 0 s.cfg.protocols = some e →
      t.ds = s.ds.set e.index { dsAt s e.index with
        rawlen := match applyFn e.create (applyFn s.cfg.codec.parse msg) with
          | none => 0
          | some train => BitVec.ofNat 32 train.length }) ∧
    (((Instr.encode id msg capacity).wellFormed s.cfg.txtMax = false ∨
      applyFn s.cfg.codec.valid msg = false ∨ findEncoder id capacity 0 s.cfg.protocols = none) →
      t.ds = s.ds)

/-! ## TX, LIMIT -/

/-- R230, R231: TX appends `repeats` times the pulses of the train, even positions HIGH and odd ones LOW,
each repetition beginning HIGH, then the line driven LOW; TXLEVEL is LOW and RES is 0. Nothing else changes
(R233). -/
def Obligations.TxWaveformShape : Prop :=
  ∀ (s : State) (repeats : BitVec 16) (T : Train), T.length ≤ 255 →
    ∃ prims, exec (.tx repeats T) s =
        .next (answer 0 [] { s with tx := s.tx ++ prims ++ [.level .low], txLevel := .low }) ∧
      prims.length = repeats.toNat * T.length ∧
      ∀ q p, q < repeats.toNat * T.length → T[q % T.length]? = some p →
        prims[q]? = some (.hold (if (q % T.length) % 2 = 0 then .high else .low) p)

/-- R250 to R254: LIMIT sets ACTIVE to the indices of the known ids in reverse input order, an id given twice
twice, unknown ids skipped; or, if there is none, to the whole canonical list. RES is 0 and nothing else
changes; what ACTIVE was before does not matter. -/
def Obligations.LimitReplacesActive : Prop :=
  ∀ (s : State) (ids : List Text), textsOk s.cfg.txtMax ids = true →
    ∃ new, exec (.limit ids) s = .next (answer 0 [] { s with active := new }) ∧
      (let known := ids.reverse.filterMap fun id =>
          (List.range s.cfg.protocols.length).find? fun j =>
            (s.cfg.protocols[j]?.map Descriptor.id) = some id
       (known ≠ [] → new = known) ∧ (known = [] → new = List.range s.cfg.protocols.length))

/-- The registry's well-formedness (R36, R37, R253): every step keeps DS one entry per descriptor and ACTIVE
a list of descriptors, non-empty if there is one. -/
def Obligations.RegistryKept : Prop :=
  ∀ s t : State, RegistryOk s → step s = .next t → RegistryOk t

/-! ## The text codec -/

/-- R277: the empty train gives `c:;p:@` with RES = 6, and a train of one pulse d gives `c:0;p:<dec(d)>@`. -/
def Obligations.Pt2strSmallTrains : Prop :=
  ∀ s : State,
    exec (.pt2str []) s = .next (answer 6 (packText [0x63, 0x3A, 0x3B, 0x70, 0x3A, 0x40]) s) ∧
    ∀ d : Word,
      let tok : Text := [0x63, 0x3A, 0x30, 0x3B, 0x70, 0x3A] ++ decimalText d.toNat ++ [0x40]
      exec (.pt2str [d]) s = .next (answer (BitVec.ofNat 32 tok.length) (packText tok) s)

/-- R271, R272, R274, R275: a train within CAP that needs at most 16 types is answered with the token: the
bytes `c:`, the codes, `;p:`, the types in decimal joined by single commas, `@`. There is one code a pulse, the
byte 0x30 plus an index; the pulse is near the type its code names, and near no earlier one, where near says
that the quotients by 50 differ by at most 2. No two types are near each other, and a type is the first pulse
that its code stands for, the types before it having been met already. -/
def Obligations.Pt2strCodesNameTypes : Prop :=
  ∀ (s : State) (p : Train) (types : List Word) (codes : Text), p.length ≤ 255 →
    codePulses [] [] p = some (types, codes) →
    let near := fun (x rep : Word) => (((x.toNat / 50 : Nat) : Int) - ((rep.toNat / 50 : Nat) : Int)).natAbs ≤ 2
    let token : Text := [0x63, 0x3A] ++ codes ++ [0x3B, 0x70, 0x3A] ++
      ((types.map fun t => decimalText t.toNat).intersperse [0x2C]).flatten ++ [0x40]
    exec (.pt2str p) s = .next (answer (BitVec.ofNat 32 token.length) (packText token) s) ∧
    types.length ≤ 16 ∧ codes.length = p.length ∧ (∀ t ∈ types, t ∈ p) ∧
    types.Pairwise (fun a b => ¬ near b a) ∧
    ∀ (k : Nat) (x : Word) (ch : Byte), p[k]? = some x → codes[k]? = some ch →
      48 ≤ ch.toNat ∧ (∃ rep, types[ch.toNat - 48]? = some rep ∧ near x rep) ∧
      (∀ i < ch.toNat - 48, ∀ rep, types[i]? = some rep → ¬ near x rep) ∧
      ((∀ j < k, codes[j]? ≠ some ch) → types[ch.toNat - 48]? = some x ∧
        ∀ i < ch.toNat - 48, ∃ j < k, codes[j]? = some (BitVec.ofNat 8 (48 + i)))

/-- R271, R273: a train whose prefix fills the type table with 16 types and whose next pulse is near none of
them (the quotients by 50 differ by more than 2) is answered with the empty result, RES = 0 and no payload;
and no other train within CAP is. -/
def Obligations.Pt2strTooManyTypes : Prop :=
  ∀ (s : State) (p : Train), p.length ≤ 255 →
    let near := fun (x rep : Word) => (((x.toNat / 50 : Nat) : Int) - ((rep.toNat / 50 : Nat) : Int)).natAbs ≤ 2
    ((∃ q x rest types codes, p = q ++ x :: rest ∧ codePulses [] [] q = some (types, codes) ∧
        types.length = 16 ∧ ∀ t ∈ types, ¬ near x t) ↔
      exec (.pt2str p) s = .next (answer 0 [] s))

/-- R275, R278, C6: for a train of at most 11 types, decoding its token (the bytes `c:`, the codes, `;p:`, the
types in decimal joined by single commas, `@`) gives a train of the same length whose token is the same. -/
def Obligations.TextCodecRoundTrip : Prop :=
  ∀ (p : Train) (types : List Word) (codes : Text) (maxlen : Nat),
    codePulses [] [] p = some (types, codes) → types.length ≤ 11 → p.length ≤ maxlen →
    let token : Text := [0x63, 0x3A] ++ codes ++ [0x3B, 0x70, 0x3A] ++
      ((types.map fun t => decimalText t.toNat).intersperse [0x2C]).flatten ++ [0x40]
    trainToken p = some token ∧
    ∃ q, tokenTrain token maxlen = some q ∧ q.length = p.length ∧ trainToken q = some token

/-- R275, R280, R281: the token (as R275 lays it out) of a type table of at most 16 numbers and of codes that
name its entries, none of them ';' or '@', is decoded to the entries its codes name, cut at maxlen pulses; RES
is their number. (RES for 2^31 or more pulses is the model's choice, the count modulo 2^32, which R84 reads as
negative: log 13.) -/
def Obligations.Str2ptReadsTokens : Prop :=
  ∀ (s : State) (types : List Word) (codes : Text) (maxlen : Word),
    types.length ≤ 16 →
    (∀ ch : Byte, ch ∈ codes → 48 ≤ ch.toNat ∧ ch.toNat - 48 < types.length ∧ ch ≠ 0x3B) →
    let token : Text := [0x63, 0x3A] ++ codes ++ [0x3B, 0x70, 0x3A] ++
      ((types.map fun t => decimalText t.toNat).intersperse [0x2C]).flatten ++ [0x40]
    token.length ≤ s.cfg.txtMax.toNat →
    let out := (codes.take maxlen.toNat).map fun ch => types.getD (ch.toNat - 48) 0
    exec (.str2pt token maxlen) s = .next (answer (BitVec.ofNat 32 out.length) out s)

/-- R282 to R285: a text without `c:` or without `p:` is a format error; so is one with both whose type list
is malformed, whatever its codes, and one with a proper type list of which maxlen lets the code loop reach a
byte that is no end of the section and names no entry of the table. With both markers and a proper type
list, maxlen = 0 returns RES = 0. -/
def Obligations.Str2ptFormatErrors : Prop :=
  ∀ (s : State) (token : Text) (maxlen : Word), token.length ≤ s.cfg.txtMax.toNat →
    ((¬ [0x63, 0x3A] <:+: token ∨ ¬ [0x70, 0x3A] <:+: token) →
      exec (.str2pt token maxlen) s = .next (answer (BitVec.ofInt 32 (-4)) [] s)) ∧
    (∀ pre list, token = pre ++ [0x70, 0x3A] ++ list → ¬ [0x70, 0x3A] <:+: pre ++ [0x70] →
      typeTable list = none →
      exec (.str2pt token maxlen) s = .next (answer (BitVec.ofInt 32 (-4)) [] s)) ∧
    (∀ pre list types, token = pre ++ [0x70, 0x3A] ++ list → ¬ [0x70, 0x3A] <:+: pre ++ [0x70] →
      typeTable list = some types →
      (∀ before good ch rest, token = before ++ [0x63, 0x3A] ++ good ++ ch :: rest →
        ¬ [0x63, 0x3A] <:+: before ++ [0x63] →
        (∀ g : Byte, g ∈ good → 48 ≤ g.toNat ∧ g.toNat - 48 < types.length ∧ g ≠ 0x3B ∧ g ≠ 0x40) →
        good.length < maxlen.toNat → ch ≠ 0x3B → ch ≠ 0x40 →
        (ch.toNat < 48 ∨ 48 + types.length ≤ ch.toNat) →
        exec (.str2pt token maxlen) s = .next (answer (BitVec.ofInt 32 (-4)) [] s)) ∧
      ([0x63, 0x3A] <:+: token →
        exec (.str2pt token 0) s = .next (answer 0 [] s)))

/-- R282 to R284: the type list is read right: numbers in decimal with any number of leading zeros, separated
by single commas and closed by '@', give their values if there are 1 to 16 of them, each below 2^32; whatever
follows the '@' is not examined, and '@' alone gives the empty table. It is a format error where a number must
start and no digit does (two commas, a comma before '@', another byte), where a byte after a number is no
digit, comma or '@', and in a list that no '@' closes. A byte of the code section below '0', or at or above
'0' plus the table's length, is a format error when the loop reaches it. -/
def Obligations.TokenGrammar : Prop :=
  (∀ (numbers : List Text) (after : Text), numbers ≠ [] →
    (∀ n ∈ numbers, n ≠ [] ∧ ∀ ch ∈ n, 48 ≤ ch.toNat ∧ ch.toNat ≤ 57) →
    let value := fun (n : Text) => n.foldl (fun v ch => 10 * v + (ch.toNat - 48)) 0
    let list := (numbers.intersperse [0x2C]).flatten ++ 0x40 :: after
    ((numbers.length ≤ 16 ∧ ∀ n ∈ numbers, value n < 2 ^ 32) →
      typeTable list = some (numbers.map fun n => BitVec.ofNat 32 (value n))) ∧
    (¬ (numbers.length ≤ 16 ∧ ∀ n ∈ numbers, value n < 2 ^ 32) → typeTable list = none)) ∧
  (∀ after : Text, typeTable (0x40 :: after) = some []) ∧
  (∀ (numbers : List Text) (ch : Byte) (rest : Text),
    (∀ n ∈ numbers, n ≠ [] ∧ ∀ d ∈ n, 48 ≤ d.toNat ∧ d.toNat ≤ 57) →
    ¬ (48 ≤ ch.toNat ∧ ch.toNat ≤ 57) → (numbers = [] → ch ≠ 0x40) →
    typeTable ((numbers.map fun n => n ++ [0x2C]).flatten ++ ch :: rest) = none) ∧
  (∀ (numbers : List Text) (last : Text) (ch : Byte) (rest : Text),
    (∀ n ∈ last :: numbers, n ≠ [] ∧ ∀ d ∈ n, 48 ≤ d.toNat ∧ d.toNat ≤ 57) →
    ¬ (48 ≤ ch.toNat ∧ ch.toNat ≤ 57) → ch ≠ 0x2C → ch ≠ 0x40 →
    typeTable ((numbers.map fun n => n ++ [0x2C]).flatten ++ last ++ ch :: rest) = none) ∧
  (∀ list : Text, 0x40 ∉ list → typeTable list = none) ∧
  (∀ (types : List Word) (maxlen : Nat) (good : Text) (ch : Byte) (rest : Text),
    (∀ g : Byte, g ∈ good → 48 ≤ g.toNat ∧ g.toNat - 48 < types.length ∧ g ≠ 0x3B ∧ g ≠ 0x40) →
    good.length < maxlen → ch ≠ 0x3B → ch ≠ 0x40 → (ch.toNat < 48 ∨ 48 + types.length ≤ ch.toNat) →
    readCodes types maxlen (good ++ ch :: rest) = none)

/-! ## Ownership and frames of the host's commands -/

/-- The frames of CRR, NEXTLEN, PT2STR, STR2PT and CRW (R22, R64, R122): each completes on all operands and
in every state. The first four change nothing but the result frames; CRW changes nothing but the control
register it writes and the result frames. Each sends one result frame. -/
def Obligations.ReaderAndCrwFrames : Prop :=
  (∀ (s : State) (i : Instr),
    ((∃ n, i = .crr n) ∨ i = .nextlen ∨ (∃ p, i = .pt2str p) ∨ (∃ t m, i = .str2pt t m)) →
    ∃ r, exec i s = .next { s with results := s.results ++ [r] }) ∧
  (∀ (s : State) (n : BitVec 8) (v : Word), ∃ t r, exec (.crw n v) s = .next t ∧
    t.results = s.results ++ [r] ∧
    t = { s with rxEn := t.rxEn, cbDec := t.cbDec, cbRaw := t.cbRaw, minGapLen := t.minGapLen,
                 minRawLen := t.minRawLen, maxRawLen := t.maxRawLen, results := t.results } ∧
    (n.toNat ≠ 0 → t.rxEn = s.rxEn) ∧ (n.toNat ≠ 1 → t.cbDec = s.cbDec ∧ t.cbRaw = s.cbRaw) ∧
    (n.toNat ≠ 2 → t.minGapLen = s.minGapLen) ∧ (n.toNat ≠ 3 → t.minRawLen = s.minRawLen) ∧
    (n.toNat ≠ 4 → t.maxRawLen = s.maxRawLen))

/-- R24 to R32, R35 to R38, R69, R72, R162, R311: who writes what, over every step that is no reset. The
instantiation never changes; only the sampler writes a pulse word or a length that is not 0, and moves
NRPULSES and LASTEDGE; only RECV makes a length 0; only CRW changes a configuration register; only
LIMIT changes ACTIVE; only DECODE and ENCODE change DS; only TX changes TXLEVEL and the TX trace; only DECODE
adds to the EVT trace. -/
def Obligations.StateHasOwners : Prop :=
  ∀ (s t : State) (i : Input) (rest : List Input), s.inputs = i :: rest → i ≠ .reset → step s = .next t →
    let runs := fun (p : Instr → Prop) =>
      ∃ cmd args c, i = .frame cmd args ∧ decodeFrame s.cfg.txtMax cmd args = .ok c ∧ p c
    t.cfg = s.cfg ∧
    (∀ k w, memRead t k w ≠ memRead s k w → ∃ now, i = .edge now) ∧
    (∀ k, lenRead t k ≠ lenRead s k →
      ((lenRead t k).val ≠ 0 → ∃ now, i = .edge now) ∧ ((lenRead t k).val = 0 → runs fun c => c = .recv)) ∧
    ((t.nrPulses ≠ s.nrPulses ∨ t.lastEdge ≠ s.lastEdge) → ∃ now, i = .edge now) ∧
    ((t.rxEn ≠ s.rxEn ∨ t.cbDec ≠ s.cbDec ∨ t.cbRaw ≠ s.cbRaw ∨ t.minGapLen ≠ s.minGapLen ∨
      t.minRawLen ≠ s.minRawLen ∨ t.maxRawLen ≠ s.maxRawLen) → runs fun c => ∃ n v, c = .crw n v) ∧
    (t.active ≠ s.active → runs fun c => ∃ ids, c = .limit ids) ∧
    (t.ds ≠ s.ds → runs fun c => (∃ T, c = .decode T) ∨ ∃ id msg n, c = .encode id msg n) ∧
    ((t.txLevel ≠ s.txLevel ∨ t.tx ≠ s.tx) → runs fun c => ∃ n T, c = .tx n T) ∧
    (t.evt ≠ s.evt → runs fun c => ∃ T, c = .decode T)
end

