-- ==== Sys2Proof/Laws/Decode.lean ====
section
/-! SUPPORT. The fields of a command word, text packing, and each argument item read back from its own
words, whatever words follow. -/

namespace Sys2Proof

/-! ## The command word (R81) -/

@[simp] theorem opcOf_cmdWord (opc sel : BitVec 8) (imm : BitVec 16) : opcOf (cmdWord opc sel imm) = opc := by
  apply BitVec.eq_of_getLsbD_eq
  intro i hi
  simp only [opcOf, cmdWord, BitVec.getLsbD_extractLsb', BitVec.getLsbD_append]
  have h1 : ¬ (24 + i < 16) := by omega
  have h2 : ¬ (24 + i - 16 < 8) := by omega
  simp only [h1, h2, hi, if_false, decide_true, Bool.true_and]
  congr 1
  omega

@[simp] theorem selOf_cmdWord (opc sel : BitVec 8) (imm : BitVec 16) : selOf (cmdWord opc sel imm) = sel := by
  apply BitVec.eq_of_getLsbD_eq
  intro i hi
  simp only [selOf, cmdWord, BitVec.getLsbD_extractLsb', BitVec.getLsbD_append]
  have h1 : ¬ (16 + i < 16) := by omega
  have h2 : 16 + i - 16 < 8 := by omega
  simp only [h1, h2, hi, if_false, if_true, decide_true, Bool.true_and]
  congr 1
  omega

@[simp] theorem immOf_cmdWord (opc sel : BitVec 8) (imm : BitVec 16) : immOf (cmdWord opc sel imm) = imm := by
  apply BitVec.eq_of_getLsbD_eq
  intro i hi
  simp only [immOf, cmdWord, BitVec.getLsbD_extractLsb', BitVec.getLsbD_append, Nat.zero_add, hi, if_true,
    decide_true, Bool.true_and]

/-- A command word is the word of its fields. -/
theorem cmdWord_fields (w : Word) : cmdWord (opcOf w) (selOf w) (immOf w) = w := by
  apply BitVec.eq_of_getLsbD_eq
  intro i hi
  simp only [opcOf, selOf, immOf, cmdWord, BitVec.getLsbD_extractLsb', BitVec.getLsbD_append]
  by_cases h1 : i < 16
  · simp [h1]
  · by_cases h2 : i - 16 < 8
    · simp only [h1, h2, if_false, if_true, decide_true, Bool.true_and]
      congr 1
      omega
    · have h3 : i - 16 - 8 < 8 := by omega
      simp only [h1, h2, h3, if_false, decide_true, Bool.true_and]
      congr 1
      omega

/-! ## Text packing (R83) -/

theorem unpackWord_packWord (a b c d : Byte) : unpackWord (packWord a b c d) = [a, b, c, d] := by
  have h0 : (packWord a b c d).extractLsb' 0 8 = a := by
    apply BitVec.eq_of_getLsbD_eq
    intro i hi
    simp only [packWord, BitVec.getLsbD_extractLsb', BitVec.getLsbD_append, Nat.zero_add, hi, if_true,
      decide_true, Bool.true_and]
  have h1 : (packWord a b c d).extractLsb' 8 8 = b := by
    apply BitVec.eq_of_getLsbD_eq
    intro i hi
    have e1 : ¬ (8 + i < 8) := by omega
    have e3 : 8 + i - 8 = i := by omega
    simp only [packWord, BitVec.getLsbD_extractLsb', BitVec.getLsbD_append, e1, e3, hi, if_false,
      if_true, decide_true, Bool.true_and]
  have h2 : (packWord a b c d).extractLsb' 16 8 = c := by
    apply BitVec.eq_of_getLsbD_eq
    intro i hi
    have e1 : ¬ (16 + i < 8) := by omega
    have e2 : ¬ (16 + i - 8 < 8) := by omega
    have e3 : 16 + i - 8 - 8 = i := by omega
    simp only [packWord, BitVec.getLsbD_extractLsb', BitVec.getLsbD_append, e1, e2, e3, hi, if_false,
      if_true, decide_true, Bool.true_and]
  have h3 : (packWord a b c d).extractLsb' 24 8 = d := by
    apply BitVec.eq_of_getLsbD_eq
    intro i hi
    have e1 : ¬ (24 + i < 8) := by omega
    have e2 : ¬ (24 + i - 8 < 8) := by omega
    have e3 : ¬ (24 + i - 8 - 8 < 8) := by omega
    have e4 : 24 + i - 8 - 8 - 8 = i := by omega
    simp only [packWord, BitVec.getLsbD_extractLsb', BitVec.getLsbD_append, e1, e2, e3, e4, hi, if_false,
      decide_true, Bool.true_and]
  rw [unpackWord, h0, h1, h2, h3]

@[simp] theorem packText_length (t : Text) : (packText t).length = textWords t.length := by
  induction t using packText.induct with
  | case1 | case2 | case3 | case4 => simp [packText, textWords]
  | case5 a b c d rest ih =>
    simp only [packText, List.length_cons, ih, textWords]
    omega

/-- The bytes of a text come back from its packed words. -/
@[simp] theorem unpackText_packText (t : Text) : unpackText t.length (packText t) = t := by
  unfold unpackText
  induction t using packText.induct with
  | case1 => rfl
  | case2 | case3 | case4 => simp [packText, unpackWord_packWord]
  | case5 a b c d rest ih =>
    simp only [packText, List.flatMap_cons, unpackWord_packWord, List.length_cons, List.cons_append,
      List.nil_append, List.take_succ_cons, ih]

@[simp] theorem unpackText_length (b : Nat) (ws : List Word) :
    (unpackText b ws).length = min b (4 * ws.length) := by
  have h : (ws.flatMap unpackWord).length = 4 * ws.length := by
    induction ws with
    | nil => rfl
    | cons w ws ih => rw [List.flatMap_cons, List.length_append, ih, List.length_cons, unpackWord,
        List.length_cons, List.length_cons, List.length_cons, List.length_cons, List.length_nil]; omega
  rw [unpackText, List.length_take, h]

/-! ## Items (R82) -/

@[simp] theorem takeW_cons (w : Word) (ws : List Word) : takeW (w :: ws) = .ok (w, ws) := rfl

/-- A PT item within CAP is read back from its words. -/
theorem takePT_encodePT (p : Train) (rest : List Word) (h : trainOk p = true) :
    takePT (encodePT p ++ rest) = .ok (p, rest) := by
  have hp : p.length ≤ 255 := of_decide_eq_true h
  have hn : (BitVec.ofNat 32 p.length).toNat = p.length := by
    rw [BitVec.toNat_ofNat]; omega
  have h1 : ¬ Config.cap < p.length := by show ¬ 255 < p.length; omega
  have h2 : ¬ (p ++ rest).length < p.length := by simp
  simp only [takePT, encodePT, List.cons_append, hn, if_neg h1, if_neg h2, List.take_left, List.drop_left]

theorem textOk_iff (txtMax : Word) (t : Text) : textOk txtMax t = true ↔ t.length ≤ txtMax.toNat := by
  simp [textOk]

/-- A TXT item within TXT_MAX is read back from its words. -/
theorem takeTXT_encodeTXT (txtMax : Word) (t : Text) (rest : List Word) (h : textOk txtMax t = true) :
    takeTXT txtMax (encodeTXT t ++ rest) = .ok (t, rest) := by
  have ht := (textOk_iff txtMax t).mp h
  have hm := txtMax.isLt
  have hn : (BitVec.ofNat 32 t.length).toNat = t.length := by
    rw [BitVec.toNat_ofNat]; omega
  have h1 : ¬ txtMax.toNat < t.length := by omega
  have h2 : ¬ (packText t ++ rest).length < textWords t.length := by simp
  have h3 : (packText t ++ rest).take (textWords t.length) = packText t := by
    rw [← packText_length, List.take_left]
  have h4 : (packText t ++ rest).drop (textWords t.length) = rest := by
    rw [← packText_length, List.drop_left]
  simp only [takeTXT, encodeTXT, List.cons_append, hn, if_neg h1, if_neg h2, h3, h4, unpackText_packText]

/-- The texts of a TXTLIST item are read back from their words. -/
theorem takeTexts_encode (txtMax : Word) (ts : List Text) (rest : List Word)
    (h : ts.all (textOk txtMax) = true) :
    takeTexts txtMax ts.length (ts.flatMap encodeTXT ++ rest) = .ok (ts, rest) := by
  induction ts with
  | nil => rfl
  | cons t ts ih =>
    obtain ⟨ht, hts⟩ : textOk txtMax t = true ∧ ts.all (textOk txtMax) = true := by simpa using h
    simp only [List.flatMap_cons, List.append_assoc, List.length_cons, takeTexts,
      takeTXT_encodeTXT txtMax t _ ht, ih hts]

/-- A TXTLIST item is read back from its words. -/
theorem takeTXTLIST_encode (txtMax : Word) (ts : List Text) (rest : List Word)
    (h : textsOk txtMax ts = true) :
    takeTXTLIST txtMax (encodeTXTLIST ts ++ rest) = .ok (ts, rest) := by
  obtain ⟨hl, ht⟩ : ts.length < 2 ^ 32 ∧ ts.all (textOk txtMax) = true := by
    simpa only [textsOk, Bool.and_eq_true, decide_eq_true_eq] using h
  have hn : (BitVec.ofNat 32 ts.length).toNat = ts.length := by
    rw [BitVec.toNat_ofNat]; omega
  simp only [takeTXTLIST, encodeTXTLIST, List.cons_append, hn, takeTexts_encode txtMax ts rest ht]

/-! ## What an item's reading says of the item (R87) -/

/-- A reading of a PT item: its count and words are the item's, and it is within CAP. -/
theorem takePT_ok (ws : List Word) (p : Train) (rest : List Word) (h : takePT ws = .ok (p, rest)) :
    trainOk p = true ∧ ws = encodePT p ++ rest := by
  cases ws with
  | nil => simp [takePT] at h
  | cons n ws =>
    simp only [takePT] at h
    split at h
    · cases h
    · next h1 =>
      split at h
      · cases h
      · next h2 =>
        obtain ⟨rfl, rfl⟩ : ws.take n.toNat = p ∧ ws.drop n.toNat = rest := by simpa using h
        have h1 : ¬ 255 < n.toNat := h1
        have hl : (ws.take n.toNat).length = n.toNat := by rw [List.length_take]; omega
        refine ⟨?_, ?_⟩
        · rw [trainOk, hl]
          exact decide_eq_true (show n.toNat ≤ 255 by omega)
        · simp [encodePT, hl]

/-- A reading of a TXT item is within TXT_MAX. -/
theorem takeTXT_ok (txtMax : Word) (ws : List Word) (t : Text) (rest : List Word)
    (h : takeTXT txtMax ws = .ok (t, rest)) : textOk txtMax t = true := by
  cases ws with
  | nil => simp [takeTXT] at h
  | cons b ws =>
    simp only [takeTXT] at h
    split at h
    · cases h
    · split at h
      · cases h
      · obtain ⟨rfl, -⟩ := Prod.mk.inj (Except.ok.inj h)
        rw [textOk_iff, unpackText_length]
        omega

/-- A reading of `m` texts gives `m` texts within TXT_MAX. -/
theorem takeTexts_ok (txtMax : Word) (m : Nat) (ws : List Word) (ts : List Text) (rest : List Word)
    (h : takeTexts txtMax m ws = .ok (ts, rest)) : ts.length = m ∧ ts.all (textOk txtMax) = true := by
  induction m generalizing ws ts rest with
  | zero =>
    obtain ⟨rfl, -⟩ := Prod.mk.inj (Except.ok.inj h)
    exact ⟨rfl, rfl⟩
  | succ m ih =>
    simp only [takeTexts] at h
    split at h
    · cases h
    · next t ws' ht =>
      split at h
      · cases h
      · next ts' ws'' hts =>
        obtain ⟨rfl, -⟩ := Prod.mk.inj (Except.ok.inj h)
        obtain ⟨hl, ha⟩ := ih _ _ _ hts
        exact ⟨by simp [hl], by simp [takeTXT_ok txtMax _ _ _ ht, ha]⟩

theorem takeTXTLIST_ok (txtMax : Word) (ws : List Word) (ts : List Text) (rest : List Word)
    (h : takeTXTLIST txtMax ws = .ok (ts, rest)) : textsOk txtMax ts = true := by
  cases ws with
  | nil => simp [takeTXTLIST] at h
  | cons m ws =>
    obtain ⟨hl, ha⟩ := takeTexts_ok txtMax _ _ _ _ h
    rw [textsOk, hl, ha, Bool.and_true]
    exact decide_eq_true m.isLt

/-! ## Sequencing -/

@[simp] theorem andThen_ok {α β : Type} (a : α) (ws : List Word) (k : α → List Word → Parse β) :
    Parse.andThen (.ok (a, ws)) k = k a ws := rfl

theorem andThen_eq_ok {α β : Type} (p : Parse α) (k : α → List Word → Parse β) (r : β × List Word) :
    p.andThen k = .ok r ↔ ∃ a ws, p = .ok (a, ws) ∧ k a ws = .ok r := by
  cases p with
  | error e => simp [Parse.andThen]
  | ok v =>
    obtain ⟨a, ws⟩ := v
    exact ⟨fun h => ⟨a, ws, rfl, h⟩, fun ⟨_, _, e, h⟩ => by cases e; exact h⟩

theorem needSel0_eq_ok {α : Type} (cmd : Word) (k : Parse α) (r : α × List Word) :
    needSel0 cmd k = .ok r ↔ selOf cmd = 0 ∧ k = .ok r := by
  unfold needSel0
  split <;> rename_i h
  · exact ⟨fun e => ⟨h, e⟩, And.right⟩
  · exact ⟨fun e => (by cases e), fun e => absurd e.1 h⟩

theorem needImm0_eq_ok {α : Type} (cmd : Word) (k : Parse α) (r : α × List Word) :
    needImm0 cmd k = .ok r ↔ immOf cmd = 0 ∧ k = .ok r := by
  unfold needImm0
  split <;> rename_i h
  · exact ⟨fun e => ⟨h, e⟩, And.right⟩
  · exact ⟨fun e => (by cases e), fun e => absurd e.1 h⟩

theorem wholeFrame_eq_ok {α : Type} (p : Parse α) (a : α) : wholeFrame p = .ok a ↔ p = .ok (a, []) := by
  unfold wholeFrame
  split <;> simp

/-- A frame never decodes to EDGE (R89). -/
theorem decodeFrame_isCommand (txtMax cmd : Word) (args : List Word) (i : Instr)
    (h : decodeFrame txtMax cmd args = .ok i) : i.isCommand = true := by
  rw [decodeFrame, wholeFrame_eq_ok] at h
  unfold parseCommand at h
  split at h <;> (try simp only [needSel0_eq_ok, needImm0_eq_ok, andThen_eq_ok] at h)
  · obtain ⟨-, h⟩ := h; cases h; rfl
  · obtain ⟨-, _, _, -, h⟩ := h; cases h; rfl
  · obtain ⟨-, -, h⟩ := h; cases h; rfl
  · obtain ⟨-, -, h⟩ := h; cases h; rfl
  · obtain ⟨-, -, _, _, -, h⟩ := h; cases h; rfl
  · obtain ⟨-, -, _, _, -, _, _, -, _, _, -, h⟩ := h; cases h; rfl
  · obtain ⟨-, _, _, -, h⟩ := h; cases h; rfl
  · obtain ⟨-, -, _, _, -, h⟩ := h; cases h; rfl
  · obtain ⟨-, -, _, _, -, h⟩ := h; cases h; rfl
  · obtain ⟨-, -, _, _, -, _, _, -, h⟩ := h; cases h; rfl
  · cases h
  · cases h

end Sys2Proof
end

