-- ==== Sys2Proof/Laws/State.lean ====
section
/-! SUPPORT. One lemma per field per primitive update of the state. -/

namespace Sys2Proof.Machine

@[simp] theorem answer_cfg (res : Word) (payload : List Word) (s : State) : (answer res payload s).cfg = s.cfg := rfl
@[simp] theorem answer_rxEn (res : Word) (payload : List Word) (s : State) : (answer res payload s).rxEn = s.rxEn := rfl
@[simp] theorem answer_cbDec (res : Word) (payload : List Word) (s : State) : (answer res payload s).cbDec = s.cbDec := rfl
@[simp] theorem answer_cbRaw (res : Word) (payload : List Word) (s : State) : (answer res payload s).cbRaw = s.cbRaw := rfl
@[simp] theorem answer_minGapLen (res : Word) (payload : List Word) (s : State) : (answer res payload s).minGapLen = s.minGapLen := rfl
@[simp] theorem answer_minRawLen (res : Word) (payload : List Word) (s : State) : (answer res payload s).minRawLen = s.minRawLen := rfl
@[simp] theorem answer_maxRawLen (res : Word) (payload : List Word) (s : State) : (answer res payload s).maxRawLen = s.maxRawLen := rfl
@[simp] theorem answer_prod (res : Word) (payload : List Word) (s : State) : (answer res payload s).prod = s.prod := rfl
@[simp] theorem answer_cons (res : Word) (payload : List Word) (s : State) : (answer res payload s).cons = s.cons := rfl
@[simp] theorem answer_nrPulses (res : Word) (payload : List Word) (s : State) : (answer res payload s).nrPulses = s.nrPulses := rfl
@[simp] theorem answer_lastEdge (res : Word) (payload : List Word) (s : State) : (answer res payload s).lastEdge = s.lastEdge := rfl
@[simp] theorem answer_ring (res : Word) (payload : List Word) (s : State) : (answer res payload s).ring = s.ring := rfl
@[simp] theorem answer_ds (res : Word) (payload : List Word) (s : State) : (answer res payload s).ds = s.ds := rfl
@[simp] theorem answer_active (res : Word) (payload : List Word) (s : State) : (answer res payload s).active = s.active := rfl
@[simp] theorem answer_txLevel (res : Word) (payload : List Word) (s : State) : (answer res payload s).txLevel = s.txLevel := rfl
@[simp] theorem answer_evt (res : Word) (payload : List Word) (s : State) : (answer res payload s).evt = s.evt := rfl
@[simp] theorem answer_tx (res : Word) (payload : List Word) (s : State) : (answer res payload s).tx = s.tx := rfl
@[simp] theorem answer_results (res : Word) (payload : List Word) (s : State) : (answer res payload s).results = s.results ++ [{ res := res, payload := payload }] := rfl
@[simp] theorem answer_inputs (res : Word) (payload : List Word) (s : State) : (answer res payload s).inputs = s.inputs := rfl
@[simp] theorem answer_clockIn (res : Word) (payload : List Word) (s : State) : (answer res payload s).clockIn = s.clockIn := rfl
@[simp] theorem answer_clockReads (res : Word) (payload : List Word) (s : State) : (answer res payload s).clockReads = s.clockReads := rfl

@[simp] theorem setSlot_cfg (k : Fin Config.nslots) (sl : Slot) (s : State) : (setSlot k sl s).cfg = s.cfg := rfl
@[simp] theorem setSlot_rxEn (k : Fin Config.nslots) (sl : Slot) (s : State) : (setSlot k sl s).rxEn = s.rxEn := rfl
@[simp] theorem setSlot_cbDec (k : Fin Config.nslots) (sl : Slot) (s : State) : (setSlot k sl s).cbDec = s.cbDec := rfl
@[simp] theorem setSlot_cbRaw (k : Fin Config.nslots) (sl : Slot) (s : State) : (setSlot k sl s).cbRaw = s.cbRaw := rfl
@[simp] theorem setSlot_minGapLen (k : Fin Config.nslots) (sl : Slot) (s : State) : (setSlot k sl s).minGapLen = s.minGapLen := rfl
@[simp] theorem setSlot_minRawLen (k : Fin Config.nslots) (sl : Slot) (s : State) : (setSlot k sl s).minRawLen = s.minRawLen := rfl
@[simp] theorem setSlot_maxRawLen (k : Fin Config.nslots) (sl : Slot) (s : State) : (setSlot k sl s).maxRawLen = s.maxRawLen := rfl
@[simp] theorem setSlot_prod (k : Fin Config.nslots) (sl : Slot) (s : State) : (setSlot k sl s).prod = s.prod := rfl
@[simp] theorem setSlot_cons (k : Fin Config.nslots) (sl : Slot) (s : State) : (setSlot k sl s).cons = s.cons := rfl
@[simp] theorem setSlot_nrPulses (k : Fin Config.nslots) (sl : Slot) (s : State) : (setSlot k sl s).nrPulses = s.nrPulses := rfl
@[simp] theorem setSlot_lastEdge (k : Fin Config.nslots) (sl : Slot) (s : State) : (setSlot k sl s).lastEdge = s.lastEdge := rfl
@[simp] theorem setSlot_ring (k : Fin Config.nslots) (sl : Slot) (s : State) : (setSlot k sl s).ring = s.ring.set k.val sl := rfl
@[simp] theorem setSlot_ds (k : Fin Config.nslots) (sl : Slot) (s : State) : (setSlot k sl s).ds = s.ds := rfl
@[simp] theorem setSlot_active (k : Fin Config.nslots) (sl : Slot) (s : State) : (setSlot k sl s).active = s.active := rfl
@[simp] theorem setSlot_txLevel (k : Fin Config.nslots) (sl : Slot) (s : State) : (setSlot k sl s).txLevel = s.txLevel := rfl
@[simp] theorem setSlot_evt (k : Fin Config.nslots) (sl : Slot) (s : State) : (setSlot k sl s).evt = s.evt := rfl
@[simp] theorem setSlot_tx (k : Fin Config.nslots) (sl : Slot) (s : State) : (setSlot k sl s).tx = s.tx := rfl
@[simp] theorem setSlot_results (k : Fin Config.nslots) (sl : Slot) (s : State) : (setSlot k sl s).results = s.results := rfl
@[simp] theorem setSlot_inputs (k : Fin Config.nslots) (sl : Slot) (s : State) : (setSlot k sl s).inputs = s.inputs := rfl
@[simp] theorem setSlot_clockIn (k : Fin Config.nslots) (sl : Slot) (s : State) : (setSlot k sl s).clockIn = s.clockIn := rfl
@[simp] theorem setSlot_clockReads (k : Fin Config.nslots) (sl : Slot) (s : State) : (setSlot k sl s).clockReads = s.clockReads := rfl

@[simp] theorem setDs_cfg (j : Nat) (d : DescState) (s : State) : (setDs j d s).cfg = s.cfg := rfl
@[simp] theorem setDs_rxEn (j : Nat) (d : DescState) (s : State) : (setDs j d s).rxEn = s.rxEn := rfl
@[simp] theorem setDs_cbDec (j : Nat) (d : DescState) (s : State) : (setDs j d s).cbDec = s.cbDec := rfl
@[simp] theorem setDs_cbRaw (j : Nat) (d : DescState) (s : State) : (setDs j d s).cbRaw = s.cbRaw := rfl
@[simp] theorem setDs_minGapLen (j : Nat) (d : DescState) (s : State) : (setDs j d s).minGapLen = s.minGapLen := rfl
@[simp] theorem setDs_minRawLen (j : Nat) (d : DescState) (s : State) : (setDs j d s).minRawLen = s.minRawLen := rfl
@[simp] theorem setDs_maxRawLen (j : Nat) (d : DescState) (s : State) : (setDs j d s).maxRawLen = s.maxRawLen := rfl
@[simp] theorem setDs_prod (j : Nat) (d : DescState) (s : State) : (setDs j d s).prod = s.prod := rfl
@[simp] theorem setDs_cons (j : Nat) (d : DescState) (s : State) : (setDs j d s).cons = s.cons := rfl
@[simp] theorem setDs_nrPulses (j : Nat) (d : DescState) (s : State) : (setDs j d s).nrPulses = s.nrPulses := rfl
@[simp] theorem setDs_lastEdge (j : Nat) (d : DescState) (s : State) : (setDs j d s).lastEdge = s.lastEdge := rfl
@[simp] theorem setDs_ring (j : Nat) (d : DescState) (s : State) : (setDs j d s).ring = s.ring := rfl
@[simp] theorem setDs_ds (j : Nat) (d : DescState) (s : State) : (setDs j d s).ds = s.ds.set j d := rfl
@[simp] theorem setDs_active (j : Nat) (d : DescState) (s : State) : (setDs j d s).active = s.active := rfl
@[simp] theorem setDs_txLevel (j : Nat) (d : DescState) (s : State) : (setDs j d s).txLevel = s.txLevel := rfl
@[simp] theorem setDs_evt (j : Nat) (d : DescState) (s : State) : (setDs j d s).evt = s.evt := rfl
@[simp] theorem setDs_tx (j : Nat) (d : DescState) (s : State) : (setDs j d s).tx = s.tx := rfl
@[simp] theorem setDs_results (j : Nat) (d : DescState) (s : State) : (setDs j d s).results = s.results := rfl
@[simp] theorem setDs_inputs (j : Nat) (d : DescState) (s : State) : (setDs j d s).inputs = s.inputs := rfl
@[simp] theorem setDs_clockIn (j : Nat) (d : DescState) (s : State) : (setDs j d s).clockIn = s.clockIn := rfl
@[simp] theorem setDs_clockReads (j : Nat) (d : DescState) (s : State) : (setDs j d s).clockReads = s.clockReads := rfl

@[simp] theorem emit_cfg (r : Record) (s : State) : (emit r s).cfg = s.cfg := rfl
@[simp] theorem emit_rxEn (r : Record) (s : State) : (emit r s).rxEn = s.rxEn := rfl
@[simp] theorem emit_cbDec (r : Record) (s : State) : (emit r s).cbDec = s.cbDec := rfl
@[simp] theorem emit_cbRaw (r : Record) (s : State) : (emit r s).cbRaw = s.cbRaw := rfl
@[simp] theorem emit_minGapLen (r : Record) (s : State) : (emit r s).minGapLen = s.minGapLen := rfl
@[simp] theorem emit_minRawLen (r : Record) (s : State) : (emit r s).minRawLen = s.minRawLen := rfl
@[simp] theorem emit_maxRawLen (r : Record) (s : State) : (emit r s).maxRawLen = s.maxRawLen := rfl
@[simp] theorem emit_prod (r : Record) (s : State) : (emit r s).prod = s.prod := rfl
@[simp] theorem emit_cons (r : Record) (s : State) : (emit r s).cons = s.cons := rfl
@[simp] theorem emit_nrPulses (r : Record) (s : State) : (emit r s).nrPulses = s.nrPulses := rfl
@[simp] theorem emit_lastEdge (r : Record) (s : State) : (emit r s).lastEdge = s.lastEdge := rfl
@[simp] theorem emit_ring (r : Record) (s : State) : (emit r s).ring = s.ring := rfl
@[simp] theorem emit_ds (r : Record) (s : State) : (emit r s).ds = s.ds := rfl
@[simp] theorem emit_active (r : Record) (s : State) : (emit r s).active = s.active := rfl
@[simp] theorem emit_txLevel (r : Record) (s : State) : (emit r s).txLevel = s.txLevel := rfl
@[simp] theorem emit_evt (r : Record) (s : State) : (emit r s).evt = s.evt ++ [r] := rfl
@[simp] theorem emit_tx (r : Record) (s : State) : (emit r s).tx = s.tx := rfl
@[simp] theorem emit_results (r : Record) (s : State) : (emit r s).results = s.results := rfl
@[simp] theorem emit_inputs (r : Record) (s : State) : (emit r s).inputs = s.inputs := rfl
@[simp] theorem emit_clockIn (r : Record) (s : State) : (emit r s).clockIn = s.clockIn := rfl
@[simp] theorem emit_clockReads (r : Record) (s : State) : (emit r s).clockReads = s.clockReads := rfl

@[simp] theorem driveTx_cfg (prims : List TxPrim) (l : Level) (s : State) : (driveTx prims l s).cfg = s.cfg := rfl
@[simp] theorem driveTx_rxEn (prims : List TxPrim) (l : Level) (s : State) : (driveTx prims l s).rxEn = s.rxEn := rfl
@[simp] theorem driveTx_cbDec (prims : List TxPrim) (l : Level) (s : State) : (driveTx prims l s).cbDec = s.cbDec := rfl
@[simp] theorem driveTx_cbRaw (prims : List TxPrim) (l : Level) (s : State) : (driveTx prims l s).cbRaw = s.cbRaw := rfl
@[simp] theorem driveTx_minGapLen (prims : List TxPrim) (l : Level) (s : State) : (driveTx prims l s).minGapLen = s.minGapLen := rfl
@[simp] theorem driveTx_minRawLen (prims : List TxPrim) (l : Level) (s : State) : (driveTx prims l s).minRawLen = s.minRawLen := rfl
@[simp] theorem driveTx_maxRawLen (prims : List TxPrim) (l : Level) (s : State) : (driveTx prims l s).maxRawLen = s.maxRawLen := rfl
@[simp] theorem driveTx_prod (prims : List TxPrim) (l : Level) (s : State) : (driveTx prims l s).prod = s.prod := rfl
@[simp] theorem driveTx_cons (prims : List TxPrim) (l : Level) (s : State) : (driveTx prims l s).cons = s.cons := rfl
@[simp] theorem driveTx_nrPulses (prims : List TxPrim) (l : Level) (s : State) : (driveTx prims l s).nrPulses = s.nrPulses := rfl
@[simp] theorem driveTx_lastEdge (prims : List TxPrim) (l : Level) (s : State) : (driveTx prims l s).lastEdge = s.lastEdge := rfl
@[simp] theorem driveTx_ring (prims : List TxPrim) (l : Level) (s : State) : (driveTx prims l s).ring = s.ring := rfl
@[simp] theorem driveTx_ds (prims : List TxPrim) (l : Level) (s : State) : (driveTx prims l s).ds = s.ds := rfl
@[simp] theorem driveTx_active (prims : List TxPrim) (l : Level) (s : State) : (driveTx prims l s).active = s.active := rfl
@[simp] theorem driveTx_txLevel (prims : List TxPrim) (l : Level) (s : State) : (driveTx prims l s).txLevel = l := rfl
@[simp] theorem driveTx_evt (prims : List TxPrim) (l : Level) (s : State) : (driveTx prims l s).evt = s.evt := rfl
@[simp] theorem driveTx_tx (prims : List TxPrim) (l : Level) (s : State) : (driveTx prims l s).tx = s.tx ++ prims := rfl
@[simp] theorem driveTx_results (prims : List TxPrim) (l : Level) (s : State) : (driveTx prims l s).results = s.results := rfl
@[simp] theorem driveTx_inputs (prims : List TxPrim) (l : Level) (s : State) : (driveTx prims l s).inputs = s.inputs := rfl
@[simp] theorem driveTx_clockIn (prims : List TxPrim) (l : Level) (s : State) : (driveTx prims l s).clockIn = s.clockIn := rfl
@[simp] theorem driveTx_clockReads (prims : List TxPrim) (l : Level) (s : State) : (driveTx prims l s).clockReads = s.clockReads := rfl

@[simp] theorem afterClock_cfg (s : State) : (afterClock s).cfg = s.cfg := by unfold afterClock; split <;> rfl
@[simp] theorem afterClock_rxEn (s : State) : (afterClock s).rxEn = s.rxEn := by unfold afterClock; split <;> rfl
@[simp] theorem afterClock_cbDec (s : State) : (afterClock s).cbDec = s.cbDec := by unfold afterClock; split <;> rfl
@[simp] theorem afterClock_cbRaw (s : State) : (afterClock s).cbRaw = s.cbRaw := by unfold afterClock; split <;> rfl
@[simp] theorem afterClock_minGapLen (s : State) : (afterClock s).minGapLen = s.minGapLen := by unfold afterClock; split <;> rfl
@[simp] theorem afterClock_minRawLen (s : State) : (afterClock s).minRawLen = s.minRawLen := by unfold afterClock; split <;> rfl
@[simp] theorem afterClock_maxRawLen (s : State) : (afterClock s).maxRawLen = s.maxRawLen := by unfold afterClock; split <;> rfl
@[simp] theorem afterClock_prod (s : State) : (afterClock s).prod = s.prod := by unfold afterClock; split <;> rfl
@[simp] theorem afterClock_cons (s : State) : (afterClock s).cons = s.cons := by unfold afterClock; split <;> rfl
@[simp] theorem afterClock_nrPulses (s : State) : (afterClock s).nrPulses = s.nrPulses := by unfold afterClock; split <;> rfl
@[simp] theorem afterClock_lastEdge (s : State) : (afterClock s).lastEdge = s.lastEdge := by unfold afterClock; split <;> rfl
@[simp] theorem afterClock_ring (s : State) : (afterClock s).ring = s.ring := by unfold afterClock; split <;> rfl
@[simp] theorem afterClock_ds (s : State) : (afterClock s).ds = s.ds := by unfold afterClock; split <;> rfl
@[simp] theorem afterClock_active (s : State) : (afterClock s).active = s.active := by unfold afterClock; split <;> rfl
@[simp] theorem afterClock_txLevel (s : State) : (afterClock s).txLevel = s.txLevel := by unfold afterClock; split <;> rfl
@[simp] theorem afterClock_evt (s : State) : (afterClock s).evt = s.evt := by unfold afterClock; split <;> rfl
@[simp] theorem afterClock_tx (s : State) : (afterClock s).tx = s.tx := by unfold afterClock; split <;> rfl
@[simp] theorem afterClock_results (s : State) : (afterClock s).results = s.results := by unfold afterClock; split <;> rfl
@[simp] theorem afterClock_inputs (s : State) : (afterClock s).inputs = s.inputs := by unfold afterClock; split <;> rfl

end Sys2Proof.Machine
end

