-- ==== Sys2Proof/Laws/Dispatcher.lean ====
section
/-! SUPPORT. What the decode dispatcher changes, how its walk splits, and its state machine in numbers. -/

namespace Sys2Proof.Machine

/-- The two states agree off DS, the EVT trace and the clock's supply. -/
def SameOffDecoder (s t : State) : Prop :=
  t = { s with ds := t.ds, evt := t.evt, clockIn := t.clockIn, clockReads := t.clockReads }

theorem SameOffDecoder.refl (s : State) : SameOffDecoder s s := rfl

theorem SameOffDecoder.trans {s t u : State} (h : SameOffDecoder s t) (h' : SameOffDecoder t u) :
    SameOffDecoder s u := by
  unfold SameOffDecoder at *
  refine h'.trans ?_
  rw [h]

theorem setDs_sameOffDecoder (j : Nat) (d : DescState) (s : State) : SameOffDecoder s (setDs j d s) := rfl
theorem emit_sameOffDecoder (r : Record) (s : State) : SameOffDecoder s (emit r s) := rfl
theorem afterClock_sameOffDecoder (s : State) : SameOffDecoder s (afterClock s) := by
  unfold afterClock SameOffDecoder
  split <;> rfl

theorem takeMessage_sameOffDecoder (j : Nat) (id : Text) (m : Config.Doc) (s : State) :
    SameOffDecoder s (takeMessage j id m s) := by
  unfold takeMessage
  dsimp only
  split
  · exact SameOffDecoder.trans (setDs_sameOffDecoder _ _ s) (emit_sameOffDecoder _ _)
  · exact setDs_sameOffDecoder _ _ s

theorem validatedEntry_sameOffDecoder (j : Nat) (id : Text) (p : Option Config.Doc) (s : State) :
    SameOffDecoder s (validatedEntry j id p s).1 := by
  have h := SameOffDecoder.trans (afterClock_sameOffDecoder s)
    (setDs_sameOffDecoder j (burstTiming (clockValue s) (dsAt s j)) (afterClock s))
  cases p with
  | none => exact h
  | some m => exact SameOffDecoder.trans h (takeMessage_sameOffDecoder j id m _)

/-- One entry changes at most DS, the EVT trace and the clock's supply (R194). -/
theorem decodeEntry_sameOffDecoder (T : Train) (j : Nat) (s : State) :
    SameOffDecoder s (decodeEntry T j s).1 := by
  unfold decodeEntry
  split
  · exact SameOffDecoder.refl s
  · split
    · dsimp only
      split
      · exact SameOffDecoder.trans (setDs_sameOffDecoder _ _ s) (validatedEntry_sameOffDecoder _ _ _ _)
      · exact setDs_sameOffDecoder _ _ s
    · exact SameOffDecoder.refl s

/-- The walk changes at most DS, the EVT trace and the clock's supply (R194). -/
theorem decodeWalk_sameOffDecoder (T : Train) (js : List Nat) (s : State) :
    SameOffDecoder s (decodeWalk T js s).1 := by
  induction js generalizing s with
  | nil => exact SameOffDecoder.refl s
  | cons j js ih => exact SameOffDecoder.trans (decodeEntry_sameOffDecoder T j s) (ih _)

/-- The walk over two lists is the walk over the first, then over the second (R181). -/
theorem decodeWalk_append (T : Train) (js ks : List Nat) (s : State) :
    decodeWalk T (js ++ ks) s =
      ((decodeWalk T ks (decodeWalk T js s).1).1,
        (decodeWalk T js s).2 + (decodeWalk T ks (decodeWalk T js s).1).2) := by
  induction js generalizing s with
  | nil => simp [decodeWalk]
  | cons j js ih => simp [decodeWalk, ih, Nat.add_assoc]

theorem decodeEntry_count_le (T : Train) (j : Nat) (s : State) : (decodeEntry T j s).2 ≤ 1 := by
  unfold decodeEntry
  split
  · exact Nat.zero_le 1
  · split
    · dsimp only
      split
      · unfold validatedEntry
        dsimp only
        split <;> simp
      · exact Nat.zero_le 1
    · exact Nat.zero_le 1

/-! ## DS of the other descriptors -/

theorem dsAt_setDs (s : State) (j k : Nat) (d : DescState) :
    dsAt (setDs j d s) k = if k = j ∧ j < s.ds.length then d else dsAt s k := by
  unfold dsAt
  rw [setDs_ds, List.getD_eq_getElem?_getD, List.getD_eq_getElem?_getD, List.getElem?_set]
  by_cases h : j = k
  · subst h
    by_cases hl : j < s.ds.length <;> simp [hl]
  · have h' : ¬ k = j := fun e => h e.symm
    simp [h, h']

/-- Of two settings of RAWLEN of one descriptor the later stays. -/
@[simp] theorem setRawlen_setRawlen (j m n : Nat) (s : State) :
    setRawlen j n (setRawlen j m s) = setRawlen j n s := by
  unfold setRawlen
  rw [dsAt_setDs]
  split
  · simp [setDs]
  · next h =>
    have h : s.ds.length ≤ j := by simpa using h
    simp [setDs, List.set_eq_of_length_le, h]

@[simp] theorem dsAt_emit (r : Record) (s : State) (j : Nat) : dsAt (emit r s) j = dsAt s j := rfl
@[simp] theorem dsAt_afterClock (s : State) (j : Nat) : dsAt (afterClock s) j = dsAt s j := by
  simp [dsAt]

/-- An entry keeps the number of descriptors and every other descriptor's state. -/
theorem decodeEntry_ds (T : Train) (j : Nat) (s : State) :
    (decodeEntry T j s).1.ds.length = s.ds.length ∧
      ∀ k, k ≠ j → dsAt (decodeEntry T j s).1 k = dsAt s k := by
  unfold decodeEntry
  split
  · exact ⟨rfl, fun _ _ => rfl⟩
  · split
    · dsimp only
      split
      · unfold validatedEntry takeMessage
        dsimp only
        split
        · refine ⟨by simp [setRawlen], fun k hk => by simp [setRawlen, dsAt_setDs, hk]⟩
        · split
          · refine ⟨by simp [setRawlen], fun k hk => by simp [setRawlen, dsAt_setDs, hk]⟩
          · refine ⟨by simp [setRawlen], fun k hk => by simp [setRawlen, dsAt_setDs, hk]⟩
      · refine ⟨by simp [setRawlen], fun k hk => by simp [setRawlen, dsAt_setDs, hk]⟩
    · exact ⟨rfl, fun _ _ => rfl⟩

/-- A message adds one DEC record with the machine's results if CBEN.DEC is set, else none (R190). -/
theorem takeMessage_evt (j : Nat) (id : Text) (m : Config.Doc) (s : State) :
    let run := repeatMachine (applyFn s.cfg.codec.encode m) (dsAt s j)
    (takeMessage j id m s).evt = s.evt ++ if s.cbDec = true then
      [.dec id run.2.snap run.1 run.2.repeats (deviceId s.cfg m)] else [] := by
  unfold takeMessage
  dsimp only
  split
  · rfl
  · rw [setDs_evt, List.append_nil]

/-- The records of one entry: at most one, a DEC record of the entry's own descriptor, and, if CBEN.DEC is
set, one exactly when there is a message (R190). -/
theorem decodeEntry_records (T : Train) (j : Nat) (s : State) :
    ∃ decs, (decodeEntry T j s).1.evt = s.evt ++ decs ∧
      decs.length = (if s.cbDec = true then (decodeEntry T j s).2 else 0) ∧
      (decs = [] ∨ ∃ P, s.cfg.protocols[j]? = some P ∧
        ∃ msg st n dev, decs = [Record.dec P.id msg st n dev]) := by
  unfold decodeEntry
  split
  · exact ⟨[], by simp⟩
  · next P hP =>
    split
    · dsimp only
      split
      · unfold validatedEntry
        dsimp only
        split
        · exact ⟨[], by simp [setRawlen]⟩
        · simp only [takeMessage_evt, setRawlen, setDs_evt, setDs_cbDec, afterClock_evt, afterClock_cbDec]
          refine ⟨_, rfl, ?_, ?_⟩
          · simp [apply_ite List.length]
          · split
            · exact .inr ⟨P, hP, _, _, _, _, rfl⟩
            · exact .inl rfl
      · exact ⟨[], by simp [setRawlen]⟩
    · exact ⟨[], by simp⟩

/-! ## The state machine in numbers -/

/-- The four outcomes of the repeat machine, by the number REPEATS counts to (R186 to R189). -/
theorem repeatMachine_cases (msg : Text) (d : DescState) :
    (((d.repeats + 1).toNat ≤ 1 ∨ d.snapV = false) ∧
      repeatMachine msg d = (.first, { d with repeats := d.repeats + 1, snap := msg, snapV := true })) ∨
    (1 < (d.repeats + 1).toNat ∧ d.snapV = true ∧
      (((d.repeats + 1).toNat < 100 ∧ msg = d.snap ∧
          repeatMachine msg d = (.valid, { d with repeats := d.repeats + 1 + 100, snap := msg })) ∨
       ((d.repeats + 1).toNat < 100 ∧ msg ≠ d.snap ∧
          repeatMachine msg d = (.invalid, { d with repeats := d.repeats + 1, snap := msg })) ∨
       (100 ≤ (d.repeats + 1).toNat ∧
          repeatMachine msg d = (.known, { d with repeats := d.repeats + 1 })))) := by
  have h1 : d.repeats + 1 ≤ 1 ↔ (d.repeats + 1).toNat ≤ 1 := by simp [BitVec.le_def]
  have h2 : d.repeats + 1 < Config.repeatSentinel ↔ (d.repeats + 1).toNat < 100 := by
    simp [BitVec.lt_def]
  by_cases hf : (d.repeats + 1).toNat ≤ 1 ∨ d.snapV = false
  · exact .inl ⟨hf, by simp only [repeatMachine, h1, if_pos hf]⟩
  obtain ⟨hr, hv⟩ := not_or.mp hf
  refine .inr ⟨by omega, by simpa using hv, ?_⟩
  by_cases hs : (d.repeats + 1).toNat < 100
  · by_cases hm : msg = d.snap
    · exact .inl ⟨hs, hm, by simp only [repeatMachine, h1, h2, if_neg hf, if_pos hs, if_pos hm]⟩
    · exact .inr (.inl ⟨hs, hm, by simp only [repeatMachine, h1, h2, if_neg hf, if_pos hs, if_neg hm]⟩)
  · exact .inr (.inr ⟨by omega, by simp only [repeatMachine, h1, h2, if_neg hf, if_neg hs]⟩)

end Sys2Proof.Machine
end

