-- ==== Sys2Proof/Laws/Encode.lean ====
section
/-! SUPPORT. What ENCODE can answer, what its search finds, and the shape of the TX waveform. -/

namespace Sys2Proof.Machine

open Sys2Proof.Config (Descriptor)

/-- The inversion of ENCODE: malformed, no protocol, create failed, overrun or built (R220 to R225). -/
theorem encodeCommand_cases (id msg : Text) (capacity : Word) (s : State) :
    (applyFn s.cfg.codec.valid msg = false ∧
      encodeCommand id msg capacity s = .next (answerError .malformed s)) ∨
    (applyFn s.cfg.codec.valid msg = true ∧
      ((findEncoder id capacity 0 s.cfg.protocols = none ∧
        encodeCommand id msg capacity s = .next (answerError .noProto s)) ∨
       ∃ e, findEncoder id capacity 0 s.cfg.protocols = some e ∧
        ((applyFn e.create (applyFn s.cfg.codec.parse msg) = none ∧
          encodeCommand id msg capacity s = .next (answerError .create (setRawlen e.index 0 s))) ∨
         ∃ r, applyFn e.create (applyFn s.cfg.codec.parse msg) = some r ∧
          ((createOverruns e r = true ∧ encodeCommand id msg capacity s = .fault .createOverrun) ∨
           (createOverruns e r = false ∧ encodeCommand id msg capacity s =
            .next (answer (countWord r.length) r
              (setRawlen e.index r.length (setRawlen e.index 0 s)))))))) := by
  unfold encodeCommand useEncoder
  by_cases hv : applyFn s.cfg.codec.valid msg = true
  swap
  · exact .inl ⟨by simpa using hv, by rw [if_neg hv]⟩
  refine .inr ⟨hv, ?_⟩
  rw [if_pos hv]
  cases hf : findEncoder id capacity 0 s.cfg.protocols with
  | none => exact .inl ⟨rfl, rfl⟩
  | some e =>
    refine .inr ⟨e, rfl, ?_⟩
    dsimp only
    cases hc : applyFn e.create (applyFn s.cfg.codec.parse msg) with
    | none => exact .inl ⟨rfl, rfl⟩
    | some r =>
      refine .inr ⟨r, rfl, ?_⟩
      dsimp only
      by_cases ho : createOverruns e r = true
      · exact .inl ⟨ho, by rw [if_pos ho]⟩
      · exact .inr ⟨by simpa using ho, by rw [if_neg ho]⟩

/-- A failed search: the id is empty, or no descriptor of the list meets the three conditions (R222, R226). -/
theorem findEncoder_eq_none (id : Text) (capacity : Word) (j : Nat) (ps : List Descriptor) :
    findEncoder id capacity j ps = none ↔
      id = [] ∨ ∀ P ∈ ps, P.id = id → P.maxrawlen ≤ capacity → P.create = none := by
  by_cases hne : id = []
  · subst hne
    refine ⟨fun _ => .inl rfl, fun _ => ?_⟩
    induction ps generalizing j with
    | nil => rfl
    | cons P ps ih => cases hc : P.create <;> simp [findEncoder, hc, ih]
  · simp only [hne, false_or]
    induction ps generalizing j with
    | nil => simp [findEncoder]
    | cons P ps ih =>
      cases hc : P.create with
      | none => simp [findEncoder, hc, ih]
      | some f =>
        by_cases h : P.id = id ∧ P.maxrawlen ≤ capacity
        · simp [findEncoder, hc, hne, h]
        · have h' : P.id = id → P.maxrawlen ≤ capacity → False := fun a b => h ⟨a, b⟩
          simp only [findEncoder, hc, if_neg fun H : id ≠ [] ∧ _ => h H.2, ih, List.forall_mem_cons]
          exact ⟨fun H => ⟨fun a b => (h' a b).elim, H⟩, fun H => H.2⟩

/-- The search for the empty id fails, whatever the registry holds (R226). -/
@[simp] theorem findEncoder_nil (capacity : Word) (j : Nat) (ps : List Descriptor) :
    findEncoder [] capacity j ps = none := (findEncoder_eq_none [] capacity j ps).mpr (.inl rfl)

/-- A search for an id that is not empty finds the first descriptor that meets the three conditions, wherever
it starts (R222). -/
theorem findEncoder_first (id : Text) (capacity : Word) (ps : List Descriptor) (j k : Nat)
    (P : Descriptor) (f : Config.Fn Config.Doc (Option Train)) (hne : id ≠ []) (hk : ps[k]? = some P)
    (hid : P.id = id) (hcap : P.maxrawlen ≤ capacity) (hf : P.create = some f)
    (hfirst : ∀ i < k, ∀ Q, ps[i]? = some Q → Q.id = id → Q.maxrawlen ≤ capacity → Q.create = none) :
    findEncoder id capacity j ps = some { index := j + k, maxrawlen := P.maxrawlen, create := f } := by
  induction ps generalizing j k with
  | nil => simp at hk
  | cons Q ps ih =>
    cases k with
    | zero =>
      obtain rfl : Q = P := by simpa using hk
      simp [findEncoder, hf, hne, hid, hcap]
    | succ k =>
      have hQ := hfirst 0 (Nat.succ_pos k) Q rfl
      have step := ih (j + 1) k (by simpa using hk)
        fun i hi R hR => hfirst (i + 1) (by omega) R (by simpa using hR)
      rw [show j + 1 + k = j + (k + 1) by omega] at step
      cases hc : Q.create with
      | none => simpa [findEncoder, hc] using step
      | some g =>
        have : ¬ (Q.id = id ∧ Q.maxrawlen ≤ capacity) := fun h => by simp [hQ h.1 h.2] at hc
        simpa [findEncoder, hc, this] using step

/-- What a search finds is a descriptor of the list: its create and its maxrawlen. -/
theorem findEncoder_mem (id : Text) (capacity : Word) (j : Nat) (ps : List Descriptor) (e : Encoder)
    (h : findEncoder id capacity j ps = some e) :
    ∃ P ∈ ps, P.create = some e.create ∧ P.maxrawlen = e.maxrawlen := by
  induction ps generalizing j with
  | nil => simp [findEncoder] at h
  | cons P ps ih =>
    unfold findEncoder at h
    split at h
    · next f hf =>
      split at h
      · obtain rfl := Option.some.inj h
        exact ⟨P, List.mem_cons_self, hf, rfl⟩
      · obtain ⟨Q, hQ, h'⟩ := ih _ h
        exact ⟨Q, List.mem_cons_of_mem _ hQ, h'⟩
    · obtain ⟨Q, hQ, h'⟩ := ih _ h
      exact ⟨Q, List.mem_cons_of_mem _ hQ, h'⟩

@[simp] theorem txPulses_length (l : Level) (p : Train) : (txPulses l p).length = p.length := by
  induction p generalizing l with
  | nil => rfl
  | cons x xs ih => simp [txPulses, ih]

end Sys2Proof.Machine
end

