-- ==== Sys2Proof/Laws/Ring.lean ====
section
/-! SUPPORT. What the ring operations read and leave: lengths and pulse words after each write. -/

namespace Sys2Proof.Machine

open Sys2Proof.Config (nslots cap)

theorem slotAt_setSlot (s : State) (k k' : Fin nslots) (sl : Slot) :
    slotAt (setSlot k sl s) k' = if k' = k then sl else slotAt s k' := by
  simp only [slotAt, setSlot_ring, Vector.get_eq_getElem, Vector.getElem_set]
  by_cases h : k' = k
  · simp [h]
  · have : ¬ k.val = k'.val := fun e => h (Fin.ext e.symm)
    simp [h, this]

@[simp] theorem lenRead_lenWrite (s : State) (k k' : Fin nslots) (n : Fin cap) :
    lenRead (lenWrite k n s) k' = if k' = k then n else lenRead s k' := by
  unfold lenRead lenWrite
  rw [slotAt_setSlot]
  split <;> rfl

@[simp] theorem memRead_lenWrite (s : State) (k k' : Fin nslots) (n : Fin cap) (i : Nat) :
    memRead (lenWrite k n s) k' i = memRead s k' i := by
  unfold memRead lenWrite
  rw [slotAt_setSlot]
  split
  · next h => rw [h]
  · rfl

@[simp] theorem lenRead_memWrite (s : State) (k k' : Fin nslots) (i : Fin cap) (v : Word) :
    lenRead (memWrite k i v s) k' = lenRead s k' := by
  unfold lenRead memWrite
  rw [slotAt_setSlot]
  split
  · next h => rw [h]
  · rfl

@[simp] theorem memRead_memWrite (s : State) (k k' : Fin nslots) (i : Fin cap) (v : Word) (i' : Nat) :
    memRead (memWrite k i v s) k' i' = if k' = k ∧ i' = i.val then v else memRead s k' i' := by
  unfold memRead memWrite
  rw [slotAt_setSlot]
  by_cases hk : k' = k
  · subst hk
    by_cases hi : i' = i.val
    · subst hi
      simp [List.getD, Vector.toList_set]
    · have : ¬ i.val = i' := fun e => hi e.symm
      simp [hi, List.getD, Vector.toList_set, this]
  · simp [hk]

/-- A length write changes the ring alone. -/
theorem lenWrite_frame (s : State) (k : Fin nslots) (n : Fin cap) :
    lenWrite k n s = { s with ring := (lenWrite k n s).ring } := rfl

/-- A pulse write changes the ring alone. -/
theorem memWrite_frame (s : State) (k : Fin nslots) (i : Fin cap) (v : Word) :
    memWrite k i v s = { s with ring := (memWrite k i v s).ring } := rfl

@[simp] theorem copyOut_length (s : State) (k : Fin nslots) (n : Nat) : (copyOut s k n).length = n := by
  simp [copyOut]

theorem copyOut_getElem? (s : State) (k : Fin nslots) (n i : Nat) (h : i < n) :
    (copyOut s k n)[i]? = some (memRead s k i) := by
  simp [copyOut, h]

theorem copyOut_succ (s : State) (k : Fin nslots) (n : Nat) :
    copyOut s k (n + 1) = copyOut s k n ++ [memRead s k n] := by
  simp [copyOut, List.range_succ]

/-- Two slots that agree on their first words give the same copy. -/
theorem copyOut_congr (s t : State) (k k' : Fin nslots) (n : Nat)
    (h : ∀ i < n, memRead s k i = memRead t k' i) : copyOut s k n = copyOut t k' n := by
  apply List.map_congr_left
  intro i hi
  exact h i (List.mem_range.mp hi)

@[simp] theorem nextSlot_val (k : Fin nslots) : (nextSlot k).val = (k.val + 1) % 10 := rfl
@[simp] theorem nextCount_val (n : Fin cap) : (nextCount n).val = (n.val + 1) % cap := rfl

end Sys2Proof.Machine
end

