-- ==== Sys2Proof/Laws/Sampler.lean ====
section
/-! SUPPORT. Everything the sampler's step can do, said once; the later lemmas cite it. -/

namespace Sys2Proof.Machine

open Sys2Proof.Config (nslots cap)

theorem edgeAccepted_iff (s : State) :
    edgeAccepted s = true ↔ s.rxEn = true ∧ (lenRead s s.prod).val = 0 := by
  simp [edgeAccepted]

theorem edgeStep_of_not_accepted (s : State) (now : Word) (h : edgeAccepted s ≠ true) :
    edgeStep now s = s := by
  simp [edgeStep, h]

/-- The state after an accepted edge whose duration is too long to store (R145). -/
def movedState (now : Word) (s : State) : State := { s with lastEdge := now }

/-- The state after an accepted edge whose duration is stored below the gap threshold. -/
def storedState (now : Word) (s : State) : State :=
  { appendPulse (elapsed now s.lastEdge) s with lastEdge := now }

/-- The state after an accepted gap edge whose train closes. -/
def closedState (now : Word) (s : State) : State :=
  { closeSlot (nextCount s.nrPulses) (appendPulse (elapsed now s.lastEdge) s) with
    nrPulses := ⟨0, by decide⟩, lastEdge := now }

/-- The state after an accepted gap edge whose train is discarded. -/
def discardedState (now : Word) (s : State) : State :=
  { appendPulse (elapsed now s.lastEdge) s with nrPulses := ⟨0, by decide⟩, lastEdge := now }

/-- A closing edge as one update of the four fields the sampler owns. -/
theorem closedState_eq (now : Word) (s : State) :
    closedState now s = { s with
      ring := (lenWrite s.prod (nextCount s.nrPulses) (appendPulse (elapsed now s.lastEdge) s)).ring
      prod := nextSlot s.prod
      nrPulses := ⟨0, by decide⟩
      lastEdge := now } := by
  unfold closedState closeSlot appendPulse memWrite lenWrite setSlot
  rfl

/-- Whether a gap edge in state `s` closes its train (R144): the counted length qualifies. -/
abbrev gapCloses (s : State) : Prop :=
  s.minRawLen.toNat ≤ (s.nrPulses.val + 1) % cap ∧ (s.nrPulses.val + 1) % cap ≤ s.maxRawLen.toNat

/-- EDGE as one decision over its four outcomes (R140). -/
theorem edgeStep_eq (now : Word) (s : State) :
    edgeStep now s =
      if edgeAccepted s = true ∧ s.cfg.minPulse < elapsed now s.lastEdge then
        if elapsed now s.lastEdge < s.cfg.maxPulse then
          if s.minGapLen < elapsed now s.lastEdge then
            if gapCloses s then closedState now s else discardedState now s
          else storedState now s
        else movedState now s
      else s := by
  have hq : lengthQualifies (appendPulse (elapsed now s.lastEdge) s)
      (appendPulse (elapsed now s.lastEdge) s).nrPulses = true ↔ gapCloses s := decide_eq_true_iff
  have hg : (appendPulse (elapsed now s.lastEdge) s).minGapLen = s.minGapLen := rfl
  by_cases ha : edgeAccepted s = true
  swap
  · rw [edgeStep_of_not_accepted s now ha, if_neg fun h => ha h.1]
  by_cases hm : s.cfg.minPulse < elapsed now s.lastEdge
  swap
  · rw [if_neg fun h => hm h.2]
    simp only [edgeStep, ha, acceptEdge, hm, if_true, if_false]
  rw [if_pos ⟨ha, hm⟩]
  simp only [edgeStep, ha, acceptEdge, hm, storePulse, if_true]
  by_cases hx : elapsed now s.lastEdge < s.cfg.maxPulse
  swap
  · simp only [hx, if_false]
    rfl
  by_cases hd : s.minGapLen < elapsed now s.lastEdge
  swap
  · simp only [hx, hd, if_true, if_false]
    rfl
  by_cases hc : gapCloses s
  · simp only [hx, hd, endTrain, hq.mpr hc, if_true, if_pos hc]
    rfl
  · simp only [hx, hd, endTrain, if_true, if_neg hc, if_neg (fun h => hc (hq.mp h))]
    rfl

/-- The inversion of EDGE: not accepted or a glitch, an over-long pulse, a stored pulse, or a gap that closes
or discards its train (R140 to R146). -/
theorem edgeStep_cases (now : Word) (s : State) :
    (edgeStep now s = s ∧
      (edgeAccepted s = false ∨ elapsed now s.lastEdge ≤ s.cfg.minPulse)) ∨
    (edgeAccepted s = true ∧ s.cfg.minPulse < elapsed now s.lastEdge ∧
      ((s.cfg.maxPulse ≤ elapsed now s.lastEdge ∧ edgeStep now s = movedState now s) ∨
       (elapsed now s.lastEdge < s.cfg.maxPulse ∧
        ((elapsed now s.lastEdge ≤ s.minGapLen ∧ edgeStep now s = storedState now s) ∨
         (s.minGapLen < elapsed now s.lastEdge ∧
          ((gapCloses s ∧ edgeStep now s = closedState now s) ∨
           (¬ gapCloses s ∧ edgeStep now s = discardedState now s))))))) := by
  rw [edgeStep_eq]
  by_cases h : edgeAccepted s = true ∧ s.cfg.minPulse < elapsed now s.lastEdge
  swap
  · refine .inl ⟨if_neg h, ?_⟩
    by_cases ha : edgeAccepted s = true
    · exact .inr (BitVec.not_lt.mp fun hm => h ⟨ha, hm⟩)
    · exact .inl (by simpa using ha)
  rw [if_pos h]
  refine .inr ⟨h.1, h.2, ?_⟩
  by_cases hx : elapsed now s.lastEdge < s.cfg.maxPulse
  swap
  · exact .inl ⟨BitVec.not_lt.mp hx, if_neg hx⟩
  rw [if_pos hx]
  by_cases hg : s.minGapLen < elapsed now s.lastEdge
  swap
  · exact .inr ⟨hx, .inl ⟨BitVec.not_lt.mp hg, if_neg hg⟩⟩
  rw [if_pos hg]
  by_cases hc : gapCloses s
  · exact .inr ⟨hx, .inr ⟨hg, .inl ⟨hc, if_pos hc⟩⟩⟩
  · exact .inr ⟨hx, .inr ⟨hg, .inr ⟨hc, if_neg hc⟩⟩⟩

/-! ## The fields after each outcome -/

@[simp] theorem movedState_cfg (now : Word) (s : State) : (movedState now s).cfg = s.cfg := rfl
@[simp] theorem movedState_rxEn (now : Word) (s : State) : (movedState now s).rxEn = s.rxEn := rfl
@[simp] theorem movedState_cbDec (now : Word) (s : State) : (movedState now s).cbDec = s.cbDec := rfl
@[simp] theorem movedState_cbRaw (now : Word) (s : State) : (movedState now s).cbRaw = s.cbRaw := rfl
@[simp] theorem movedState_minGapLen (now : Word) (s : State) : (movedState now s).minGapLen = s.minGapLen := rfl
@[simp] theorem movedState_minRawLen (now : Word) (s : State) : (movedState now s).minRawLen = s.minRawLen := rfl
@[simp] theorem movedState_maxRawLen (now : Word) (s : State) : (movedState now s).maxRawLen = s.maxRawLen := rfl
@[simp] theorem movedState_prod (now : Word) (s : State) : (movedState now s).prod = s.prod := rfl
@[simp] theorem movedState_cons (now : Word) (s : State) : (movedState now s).cons = s.cons := rfl
@[simp] theorem movedState_nrPulses (now : Word) (s : State) : (movedState now s).nrPulses = s.nrPulses := rfl
@[simp] theorem movedState_lastEdge (now : Word) (s : State) : (movedState now s).lastEdge = now := rfl
@[simp] theorem movedState_ring (now : Word) (s : State) : (movedState now s).ring = s.ring := rfl
@[simp] theorem movedState_ds (now : Word) (s : State) : (movedState now s).ds = s.ds := rfl
@[simp] theorem movedState_active (now : Word) (s : State) : (movedState now s).active = s.active := rfl
@[simp] theorem movedState_txLevel (now : Word) (s : State) : (movedState now s).txLevel = s.txLevel := rfl
@[simp] theorem movedState_evt (now : Word) (s : State) : (movedState now s).evt = s.evt := rfl
@[simp] theorem movedState_tx (now : Word) (s : State) : (movedState now s).tx = s.tx := rfl
@[simp] theorem movedState_results (now : Word) (s : State) : (movedState now s).results = s.results := rfl
@[simp] theorem movedState_inputs (now : Word) (s : State) : (movedState now s).inputs = s.inputs := rfl
@[simp] theorem movedState_clockIn (now : Word) (s : State) : (movedState now s).clockIn = s.clockIn := rfl
@[simp] theorem movedState_clockReads (now : Word) (s : State) : (movedState now s).clockReads = s.clockReads := rfl

@[simp] theorem storedState_cfg (now : Word) (s : State) : (storedState now s).cfg = s.cfg := rfl
@[simp] theorem storedState_rxEn (now : Word) (s : State) : (storedState now s).rxEn = s.rxEn := rfl
@[simp] theorem storedState_cbDec (now : Word) (s : State) : (storedState now s).cbDec = s.cbDec := rfl
@[simp] theorem storedState_cbRaw (now : Word) (s : State) : (storedState now s).cbRaw = s.cbRaw := rfl
@[simp] theorem storedState_minGapLen (now : Word) (s : State) : (storedState now s).minGapLen = s.minGapLen := rfl
@[simp] theorem storedState_minRawLen (now : Word) (s : State) : (storedState now s).minRawLen = s.minRawLen := rfl
@[simp] theorem storedState_maxRawLen (now : Word) (s : State) : (storedState now s).maxRawLen = s.maxRawLen := rfl
@[simp] theorem storedState_prod (now : Word) (s : State) : (storedState now s).prod = s.prod := rfl
@[simp] theorem storedState_cons (now : Word) (s : State) : (storedState now s).cons = s.cons := rfl
@[simp] theorem storedState_nrPulses (now : Word) (s : State) : (storedState now s).nrPulses = nextCount s.nrPulses := rfl
@[simp] theorem storedState_lastEdge (now : Word) (s : State) : (storedState now s).lastEdge = now := rfl
@[simp] theorem storedState_ds (now : Word) (s : State) : (storedState now s).ds = s.ds := rfl
@[simp] theorem storedState_active (now : Word) (s : State) : (storedState now s).active = s.active := rfl
@[simp] theorem storedState_txLevel (now : Word) (s : State) : (storedState now s).txLevel = s.txLevel := rfl
@[simp] theorem storedState_evt (now : Word) (s : State) : (storedState now s).evt = s.evt := rfl
@[simp] theorem storedState_tx (now : Word) (s : State) : (storedState now s).tx = s.tx := rfl
@[simp] theorem storedState_results (now : Word) (s : State) : (storedState now s).results = s.results := rfl
@[simp] theorem storedState_inputs (now : Word) (s : State) : (storedState now s).inputs = s.inputs := rfl
@[simp] theorem storedState_clockIn (now : Word) (s : State) : (storedState now s).clockIn = s.clockIn := rfl
@[simp] theorem storedState_clockReads (now : Word) (s : State) : (storedState now s).clockReads = s.clockReads := rfl

@[simp] theorem closedState_cfg (now : Word) (s : State) : (closedState now s).cfg = s.cfg := by rw [closedState_eq]
@[simp] theorem closedState_rxEn (now : Word) (s : State) : (closedState now s).rxEn = s.rxEn := by rw [closedState_eq]
@[simp] theorem closedState_cbDec (now : Word) (s : State) : (closedState now s).cbDec = s.cbDec := by rw [closedState_eq]
@[simp] theorem closedState_cbRaw (now : Word) (s : State) : (closedState now s).cbRaw = s.cbRaw := by rw [closedState_eq]
@[simp] theorem closedState_minGapLen (now : Word) (s : State) : (closedState now s).minGapLen = s.minGapLen := by rw [closedState_eq]
@[simp] theorem closedState_minRawLen (now : Word) (s : State) : (closedState now s).minRawLen = s.minRawLen := by rw [closedState_eq]
@[simp] theorem closedState_maxRawLen (now : Word) (s : State) : (closedState now s).maxRawLen = s.maxRawLen := by rw [closedState_eq]
@[simp] theorem closedState_prod (now : Word) (s : State) : (closedState now s).prod = nextSlot s.prod := by rw [closedState_eq]
@[simp] theorem closedState_cons (now : Word) (s : State) : (closedState now s).cons = s.cons := by rw [closedState_eq]
@[simp] theorem closedState_nrPulses (now : Word) (s : State) : (closedState now s).nrPulses = ⟨0, by decide⟩ := by rw [closedState_eq]
@[simp] theorem closedState_lastEdge (now : Word) (s : State) : (closedState now s).lastEdge = now := by rw [closedState_eq]
@[simp] theorem closedState_ds (now : Word) (s : State) : (closedState now s).ds = s.ds := by rw [closedState_eq]
@[simp] theorem closedState_active (now : Word) (s : State) : (closedState now s).active = s.active := by rw [closedState_eq]
@[simp] theorem closedState_txLevel (now : Word) (s : State) : (closedState now s).txLevel = s.txLevel := by rw [closedState_eq]
@[simp] theorem closedState_evt (now : Word) (s : State) : (closedState now s).evt = s.evt := by rw [closedState_eq]
@[simp] theorem closedState_tx (now : Word) (s : State) : (closedState now s).tx = s.tx := by rw [closedState_eq]
@[simp] theorem closedState_results (now : Word) (s : State) : (closedState now s).results = s.results := by rw [closedState_eq]
@[simp] theorem closedState_inputs (now : Word) (s : State) : (closedState now s).inputs = s.inputs := by rw [closedState_eq]
@[simp] theorem closedState_clockIn (now : Word) (s : State) : (closedState now s).clockIn = s.clockIn := by rw [closedState_eq]
@[simp] theorem closedState_clockReads (now : Word) (s : State) : (closedState now s).clockReads = s.clockReads := by rw [closedState_eq]

@[simp] theorem discardedState_cfg (now : Word) (s : State) : (discardedState now s).cfg = s.cfg := rfl
@[simp] theorem discardedState_rxEn (now : Word) (s : State) : (discardedState now s).rxEn = s.rxEn := rfl
@[simp] theorem discardedState_cbDec (now : Word) (s : State) : (discardedState now s).cbDec = s.cbDec := rfl
@[simp] theorem discardedState_cbRaw (now : Word) (s : State) : (discardedState now s).cbRaw = s.cbRaw := rfl
@[simp] theorem discardedState_minGapLen (now : Word) (s : State) : (discardedState now s).minGapLen = s.minGapLen := rfl
@[simp] theorem discardedState_minRawLen (now : Word) (s : State) : (discardedState now s).minRawLen = s.minRawLen := rfl
@[simp] theorem discardedState_maxRawLen (now : Word) (s : State) : (discardedState now s).maxRawLen = s.maxRawLen := rfl
@[simp] theorem discardedState_prod (now : Word) (s : State) : (discardedState now s).prod = s.prod := rfl
@[simp] theorem discardedState_cons (now : Word) (s : State) : (discardedState now s).cons = s.cons := rfl
@[simp] theorem discardedState_nrPulses (now : Word) (s : State) : (discardedState now s).nrPulses = ⟨0, by decide⟩ := rfl
@[simp] theorem discardedState_lastEdge (now : Word) (s : State) : (discardedState now s).lastEdge = now := rfl
@[simp] theorem discardedState_ds (now : Word) (s : State) : (discardedState now s).ds = s.ds := rfl
@[simp] theorem discardedState_active (now : Word) (s : State) : (discardedState now s).active = s.active := rfl
@[simp] theorem discardedState_txLevel (now : Word) (s : State) : (discardedState now s).txLevel = s.txLevel := rfl
@[simp] theorem discardedState_evt (now : Word) (s : State) : (discardedState now s).evt = s.evt := rfl
@[simp] theorem discardedState_tx (now : Word) (s : State) : (discardedState now s).tx = s.tx := rfl
@[simp] theorem discardedState_results (now : Word) (s : State) : (discardedState now s).results = s.results := rfl
@[simp] theorem discardedState_inputs (now : Word) (s : State) : (discardedState now s).inputs = s.inputs := rfl
@[simp] theorem discardedState_clockIn (now : Word) (s : State) : (discardedState now s).clockIn = s.clockIn := rfl
@[simp] theorem discardedState_clockReads (now : Word) (s : State) : (discardedState now s).clockReads = s.clockReads := rfl

@[simp] theorem lenRead_appendPulse (d : Word) (s : State) (k : Fin nslots) :
    lenRead (appendPulse d s) k = lenRead s k := lenRead_memWrite s s.prod k s.nrPulses d

@[simp] theorem memRead_appendPulse (d : Word) (s : State) (k : Fin nslots) (i : Nat) :
    memRead (appendPulse d s) k i = if k = s.prod ∧ i = s.nrPulses.val then d else memRead s k i :=
  memRead_memWrite s s.prod k s.nrPulses d i

@[simp] theorem lenRead_storedState (now : Word) (s : State) (k : Fin nslots) :
    lenRead (storedState now s) k = lenRead s k := lenRead_appendPulse _ s k

@[simp] theorem memRead_storedState (now : Word) (s : State) (k : Fin nslots) (i : Nat) :
    memRead (storedState now s) k i =
      if k = s.prod ∧ i = s.nrPulses.val then elapsed now s.lastEdge else memRead s k i :=
  memRead_appendPulse _ s k i

@[simp] theorem lenRead_discardedState (now : Word) (s : State) (k : Fin nslots) :
    lenRead (discardedState now s) k = lenRead s k := lenRead_appendPulse _ s k

@[simp] theorem memRead_discardedState (now : Word) (s : State) (k : Fin nslots) (i : Nat) :
    memRead (discardedState now s) k i =
      if k = s.prod ∧ i = s.nrPulses.val then elapsed now s.lastEdge else memRead s k i :=
  memRead_appendPulse _ s k i

@[simp] theorem lenRead_closedState (now : Word) (s : State) (k : Fin nslots) :
    lenRead (closedState now s) k = if k = s.prod then nextCount s.nrPulses else lenRead s k := by
  refine (lenRead_lenWrite (appendPulse (elapsed now s.lastEdge) s) s.prod k (nextCount s.nrPulses)).trans ?_
  simp

@[simp] theorem memRead_closedState (now : Word) (s : State) (k : Fin nslots) (i : Nat) :
    memRead (closedState now s) k i =
      if k = s.prod ∧ i = s.nrPulses.val then elapsed now s.lastEdge else memRead s k i := by
  refine (memRead_lenWrite (appendPulse (elapsed now s.lastEdge) s) s.prod k (nextCount s.nrPulses) i).trans ?_
  simp

/-- EDGE changes at most RING, PROD, NRPULSES and LASTEDGE. -/
theorem edgeStep_only_sampler (now : Word) (s : State) :
    edgeStep now s = { s with
      ring := (edgeStep now s).ring, prod := (edgeStep now s).prod,
      nrPulses := (edgeStep now s).nrPulses, lastEdge := (edgeStep now s).lastEdge } := by
  rcases edgeStep_cases now s with ⟨h, _⟩ | ⟨_, _, ⟨_, h⟩ | ⟨_, ⟨_, h⟩ | ⟨_, ⟨_, h⟩ | ⟨_, h⟩⟩⟩⟩ <;>
    rw [h] <;> rfl

@[simp] theorem runEdges_nil (s : State) : runEdges [] s = s := rfl

@[simp] theorem runEdges_cons (now : Word) (nows : List Word) (s : State) :
    runEdges (now :: nows) s = runEdges nows (edgeStep now s) := rfl

theorem runEdges_append (a b : List Word) (s : State) :
    runEdges (a ++ b) s = runEdges b (runEdges a s) := by
  simp [runEdges, List.foldl_append]

end Sys2Proof.Machine
end

