-- ==== Sys2Proof/Laws/Fifo.lean ====
section
/-! SUPPORT. What RECV can do, and what edges leave alone: a full slot, the consumer's cursor and the result
frames. -/

namespace Sys2Proof.Machine

open Sys2Proof.Config (nslots cap)

/-- The inversion of RECV: the slot at CONS is empty and nothing moves, or it is drained (R161). -/
theorem recvStep_cases (s : State) :
    ((lenRead s s.cons).val = 0 ∧ recvStep s = answer 0 [] s) ∨
    ((lenRead s s.cons).val ≠ 0 ∧ recvStep s =
      answer (countWord (lenRead s s.cons).val) (copyOut s s.cons (lenRead s s.cons).val)
        (advanceCons (releaseSlot s))) := by
  by_cases h : (lenRead s s.cons).val = 0
  · exact .inl ⟨h, by simp [recvStep, pendingLen, h]⟩
  · exact .inr ⟨h, by simp [recvStep, pendingLen, h]⟩

@[simp] theorem lenRead_answer (r : Word) (p : List Word) (s : State) (k : Fin nslots) :
    lenRead (answer r p s) k = lenRead s k := rfl
@[simp] theorem memRead_answer (r : Word) (p : List Word) (s : State) (k : Fin nslots) (i : Nat) :
    memRead (answer r p s) k i = memRead s k i := rfl
@[simp] theorem lenRead_advanceCons (s : State) (k : Fin nslots) :
    lenRead (advanceCons s) k = lenRead s k := rfl
@[simp] theorem memRead_advanceCons (s : State) (k : Fin nslots) (i : Nat) :
    memRead (advanceCons s) k i = memRead s k i := rfl
@[simp] theorem lenRead_releaseSlot (s : State) (k : Fin nslots) :
    lenRead (releaseSlot s) k = if k = s.cons then ⟨0, by decide⟩ else lenRead s k :=
  lenRead_lenWrite s s.cons k ⟨0, by decide⟩
@[simp] theorem memRead_releaseSlot (s : State) (k : Fin nslots) (i : Nat) :
    memRead (releaseSlot s) k i = memRead s k i := memRead_lenWrite s s.cons k ⟨0, by decide⟩ i

/-- RECV writes no pulse word (R161). -/
@[simp] theorem memRead_recvStep (s : State) (k : Fin nslots) (i : Nat) :
    memRead (recvStep s) k i = memRead s k i := by
  rcases recvStep_cases s with ⟨_, h⟩ | ⟨_, h⟩ <;> simp [h]

/-- RECV leaves the slot at CONS with length 0 and every other length as it is (R162). -/
theorem lenRead_recvStep (s : State) (k : Fin nslots) :
    lenRead (recvStep s) k = if k = s.cons then ⟨0, by decide⟩ else lenRead s k := by
  rcases recvStep_cases s with ⟨h0, h⟩ | ⟨_, h⟩
  · rw [h, lenRead_answer]
    split
    · next hk => exact Fin.ext (hk ▸ h0)
    · rfl
  · rw [h, lenRead_answer, lenRead_advanceCons, lenRead_releaseSlot]

/-! ## A full slot is the consumer's (R69) -/

/-- An edge leaves the length of a full slot alone. -/
theorem edgeStep_keeps_len (now : Word) (s : State) (k : Fin nslots) (h : (lenRead s k).val ≠ 0) :
    lenRead (edgeStep now s) k = lenRead s k := by
  rcases edgeStep_cases now s with ⟨e, _⟩ | ⟨ha, _, ⟨_, e⟩ | ⟨_, ⟨_, e⟩ | ⟨_, ⟨_, e⟩ | ⟨_, e⟩⟩⟩⟩ <;> rw [e]
  · rfl
  · simp
  · have : k ≠ s.prod := fun hk => h (hk ▸ ((edgeAccepted_iff s).mp ha).2)
    simp [this]
  · simp

/-- An edge that changes a length makes it one that is not 0: the sampler closes slots and opens none
(R69). -/
theorem edgeStep_len_ne_zero (now : Word) (s : State) (k : Fin nslots)
    (h : lenRead (edgeStep now s) k ≠ lenRead s k) : (lenRead (edgeStep now s) k).val ≠ 0 := fun h0 =>
  if hs : (lenRead s k).val = 0 then h (Fin.ext (h0.trans hs.symm)) else h (edgeStep_keeps_len now s k hs)

/-- An edge leaves the pulse words of a full slot alone. -/
theorem edgeStep_keeps_mem (now : Word) (s : State) (k : Fin nslots) (i : Nat)
    (h : (lenRead s k).val ≠ 0) : memRead (edgeStep now s) k i = memRead s k i := by
  rcases edgeStep_cases now s with ⟨e, _⟩ | ⟨ha, _, ⟨_, e⟩ | ⟨_, ⟨_, e⟩ | ⟨_, ⟨_, e⟩ | ⟨_, e⟩⟩⟩⟩ <;> rw [e]
  · rfl
  all_goals
    have : k ≠ s.prod := fun hk => h (hk ▸ ((edgeAccepted_iff s).mp ha).2)
    simp [this]

theorem runEdges_keeps_len (nows : List Word) (s : State) (k : Fin nslots) (h : (lenRead s k).val ≠ 0) :
    lenRead (runEdges nows s) k = lenRead s k := by
  induction nows generalizing s with
  | nil => rfl
  | cons now nows ih =>
    have e := edgeStep_keeps_len now s k h
    rw [runEdges_cons, ih _ (by rw [e]; exact h), e]

theorem runEdges_keeps_mem (nows : List Word) (s : State) (k : Fin nslots) (i : Nat)
    (h : (lenRead s k).val ≠ 0) : memRead (runEdges nows s) k i = memRead s k i := by
  induction nows generalizing s with
  | nil => rfl
  | cons now nows ih =>
    have e := edgeStep_keeps_len now s k h
    rw [runEdges_cons, ih _ (by rw [e]; exact h), edgeStep_keeps_mem now s k i h]

/-- The two states agree off RING, PROD, NRPULSES and LASTEDGE. -/
def SameOffSampler (s t : State) : Prop :=
  t = { s with ring := t.ring, prod := t.prod, nrPulses := t.nrPulses, lastEdge := t.lastEdge }

theorem SameOffSampler.trans {s t u : State} (h : SameOffSampler s t) (h' : SameOffSampler t u) :
    SameOffSampler s u := by
  unfold SameOffSampler at *
  refine h'.trans ?_
  rw [h]

/-- Edges change at most RING, PROD, NRPULSES and LASTEDGE. -/
theorem runEdges_only_sampler (nows : List Word) (s : State) : SameOffSampler s (runEdges nows s) := by
  induction nows generalizing s with
  | nil => rfl
  | cons now nows ih => exact SameOffSampler.trans (edgeStep_only_sampler now s) (ih (edgeStep now s))

@[simp] theorem runEdges_cons_reg (nows : List Word) (s : State) : (runEdges nows s).cons = s.cons := by
  rw [show runEdges nows s = _ from runEdges_only_sampler nows s]
@[simp] theorem runEdges_results (nows : List Word) (s : State) : (runEdges nows s).results = s.results := by
  rw [show runEdges nows s = _ from runEdges_only_sampler nows s]

/-! ## The sampler does not see CONS or the result frames -/

/-- A change that commutes with the parts of EDGE, and that EDGE's conditions do not see, commutes with
EDGE. -/
theorem edgeStep_comm (f : State → State) (now : Word) (s : State)
    (ha : edgeAccepted (f s) = edgeAccepted s) (hc : (f s).cfg = s.cfg)
    (hl : (f s).lastEdge = s.lastEdge) (hg : (f s).minGapLen = s.minGapLen)
    (hq : gapCloses (f s) ↔ gapCloses s)
    (h1 : movedState now (f s) = f (movedState now s))
    (h2 : storedState now (f s) = f (storedState now s))
    (h3 : closedState now (f s) = f (closedState now s))
    (h4 : discardedState now (f s) = f (discardedState now s)) :
    edgeStep now (f s) = f (edgeStep now s) := by
  simp only [edgeStep_eq, ha, hc, hl, hg, hq, h1, h2, h3, h4, apply_ite f]

theorem edgeStep_answer (now : Word) (r : Word) (p : List Word) (s : State) :
    edgeStep now (answer r p s) = answer r p (edgeStep now s) :=
  edgeStep_comm (answer r p) now s rfl rfl rfl rfl Iff.rfl rfl rfl rfl rfl

theorem edgeStep_advanceCons (now : Word) (s : State) :
    edgeStep now (advanceCons s) = advanceCons (edgeStep now s) :=
  edgeStep_comm advanceCons now s rfl rfl rfl rfl Iff.rfl rfl rfl rfl rfl

theorem runEdges_answer (nows : List Word) (r : Word) (p : List Word) (s : State) :
    runEdges nows (answer r p s) = answer r p (runEdges nows s) := by
  induction nows generalizing s with
  | nil => rfl
  | cons now nows ih => rw [runEdges_cons, edgeStep_answer, ih, runEdges_cons]

theorem runEdges_advanceCons (nows : List Word) (s : State) :
    runEdges nows (advanceCons s) = advanceCons (runEdges nows s) := by
  induction nows generalizing s with
  | nil => rfl
  | cons now nows ih => rw [runEdges_cons, edgeStep_advanceCons, ih, runEdges_cons]

end Sys2Proof.Machine
end

