-- ==== Sys2Proof/Laws/Limit.lean ====
section
/-! SUPPORT. What LIMIT's new ACTIVE holds. -/

namespace Sys2Proof.Machine

/-- NEW lists the known ids in reverse input order, before what it started from (R251, R252). -/
theorem matchedIds_eq (ps : List Config.Descriptor) (ids : List Text) (new : List Nat) :
    matchedIds ps ids new = (ids.reverse.filterMap (findProtocol ps)) ++ new := by
  induction ids generalizing new with
  | nil => rfl
  | cons id ids ih =>
    cases h : findProtocol ps id <;> simp [matchedIds, h, ih, List.filterMap_append]

/-- The index a known id has is a descriptor's. -/
theorem findProtocol_lt (ps : List Config.Descriptor) (id : Text) (j : Nat)
    (h : findProtocol ps id = some j) : j < ps.length :=
  (List.findIdx?_eq_some_iff_findIdx_eq.mp h).1

/-- ACTIVE after LIMIT names descriptors only, and is empty only if there is none (R253). -/
theorem limitedActive_ok (ps : List Config.Descriptor) (ids : List Text) :
    (∀ j ∈ limitedActive ps ids, j < ps.length) ∧ (limitedActive ps ids = [] → ps.length = 0) := by
  have hm := matchedIds_eq ps ids []
  rw [List.append_nil] at hm
  unfold limitedActive
  split
  · exact ⟨fun j hj => List.mem_range.mp hj, fun h => by simpa using h⟩
  · next a as h =>
    rw [h] at hm
    refine ⟨fun j hj => ?_, fun h => by simp at h⟩
    rw [hm] at hj
    obtain ⟨id, _, hid⟩ := List.mem_filterMap.mp hj
    exact findProtocol_lt ps id j hid

end Sys2Proof.Machine
end

