-- ==== Sys2Proof/Laws/Exec.lean ====
section
/-! SUPPORT. What each command leaves behind when it answers a next state, and the cases of a step: said
once, so that no later proof unfolds a meaning or the step. -/

namespace Sys2Proof.Machine

/-- A command on operands within their bounds runs; one beyond them is answered E_ILLEGAL (R87). -/
theorem onWellFormed_cases (i : Instr) (s : State) (run : Host.Outcome State Fault Refusal) :
    (i.wellFormed s.cfg.txtMax = true ∧ onWellFormed i s run = run) ∨
    (i.wellFormed s.cfg.txtMax = false ∧ onWellFormed i s run = .next (answerError .illegal s)) := by
  unfold onWellFormed
  cases h : i.wellFormed s.cfg.txtMax
  · exact .inr ⟨rfl, rfl⟩
  · exact .inl ⟨rfl, rfl⟩

/-- The two states differ in one more result frame alone. -/
def OneResult (s t : State) : Prop := ∃ r, t = { s with results := s.results ++ [r] }

theorem answer_oneResult (res : Word) (payload : List Word) (s : State) : OneResult s (answer res payload s) :=
  ⟨_, rfl⟩

theorem answerError_oneResult (e : ErrorCode) (s : State) : OneResult s (answerError e s) := ⟨_, rfl⟩

/-- CRR changes nothing but the result frames (R120). -/
theorem execCrr_frame (n : BitVec 8) (s : State) : ∃ t, execCrr n s = .next t ∧ OneResult s t := by
  unfold execCrr
  split
  · exact ⟨_, rfl, answerError_oneResult _ _⟩
  · exact ⟨_, rfl, answer_oneResult _ _ _⟩

/-- CRW changes nothing but a configuration register and the result frames (R122). -/
theorem execCrw_frame (n : BitVec 8) (v : Word) (s : State) :
    ∃ t, execCrw n v s = .next t ∧
      ∃ r, t = { s with
        rxEn := t.rxEn, cbDec := t.cbDec, cbRaw := t.cbRaw, minGapLen := t.minGapLen,
        minRawLen := t.minRawLen, maxRawLen := t.maxRawLen, results := s.results ++ [r] } := by
  unfold execCrw
  cases h : writeCR s n v with
  | none => exact ⟨_, rfl, _, rfl⟩
  | some s' =>
    refine ⟨_, rfl, ⟨0, []⟩, ?_⟩
    unfold writeCR at h
    split at h <;> cases h <;> rfl

/-- NEXTLEN changes nothing but the result frames (R160). -/
theorem execNextlen_frame (s : State) : ∃ t, execNextlen s = .next t ∧ OneResult s t :=
  ⟨_, rfl, answer_oneResult _ _ _⟩

/-- RECV changes nothing but the ring, CONS and the result frames (R161). -/
theorem execRecv_frame (s : State) :
    ∃ t, execRecv s = .next t ∧
      ∃ r, t = { s with ring := t.ring, cons := t.cons, results := s.results ++ [r] } := by
  refine ⟨_, rfl, ?_⟩
  rcases recvStep_cases s with ⟨_, h⟩ | ⟨_, h⟩ <;> rw [h] <;> exact ⟨_, rfl⟩

/-- DECODE changes nothing but DS, the EVT trace, the clock's supply and the result frames (R194). -/
theorem execDecode_frame (T : Train) (s : State) :
    ∃ t, execDecode T s = .next t ∧
      ∃ r, t = { s with
        ds := t.ds, evt := t.evt, clockIn := t.clockIn, clockReads := t.clockReads,
        results := s.results ++ [r] } := by
  unfold execDecode
  rcases onWellFormed_cases (.decode T) s (.next (decodeStep T s)) with ⟨_, h⟩ | ⟨_, h⟩ <;> rw [h]
  · refine ⟨_, rfl, ?_⟩
    have hw := decodeWalk_sameOffDecoder T s.active s
    unfold SameOffDecoder at hw
    unfold decodeStep emitRaw
    dsimp only
    split <;> refine ⟨⟨countWord (decodeWalk T s.active s).2, []⟩, ?_⟩ <;> rw [hw] <;> rfl
  · exact ⟨_, rfl, _, rfl⟩

/-- ENCODE, where it answers, changes nothing but DS and the result frames (R223, R227). -/
theorem execEncode_frame (id msg : Text) (capacity : Word) (s t : State)
    (h : execEncode id msg capacity s = .next t) :
    ∃ r, t = { s with ds := t.ds, results := s.results ++ [r] } := by
  unfold execEncode at h
  rcases onWellFormed_cases (.encode id msg capacity) s (encodeCommand id msg capacity s) with
    ⟨_, e⟩ | ⟨_, e⟩ <;> rw [e] at h
  · rcases encodeCommand_cases id msg capacity s with
      ⟨_, e⟩ | ⟨_, ⟨_, e⟩ | ⟨_, _, ⟨_, e⟩ | ⟨_, _, ⟨_, e⟩ | ⟨_, e⟩⟩⟩⟩ <;> rw [e] at h <;> cases h <;>
      exact ⟨_, rfl⟩
  · cases h
    exact ⟨_, rfl⟩

/-- ENCODE never refuses, and its only fault is the configuration's (R225). -/
theorem execEncode_stops (id msg : Text) (capacity : Word) (s : State) :
    (∃ t, execEncode id msg capacity s = .next t) ∨
      execEncode id msg capacity s = .fault .createOverrun := by
  unfold execEncode
  rcases onWellFormed_cases (.encode id msg capacity) s (encodeCommand id msg capacity s) with
    ⟨_, e⟩ | ⟨_, e⟩ <;> rw [e]
  · rcases encodeCommand_cases id msg capacity s with
      ⟨_, e⟩ | ⟨_, ⟨_, e⟩ | ⟨_, _, ⟨_, e⟩ | ⟨_, _, ⟨_, e⟩ | ⟨_, e⟩⟩⟩⟩ <;> rw [e]
    · exact .inl ⟨_, rfl⟩
    · exact .inl ⟨_, rfl⟩
    · exact .inl ⟨_, rfl⟩
    · exact .inr rfl
    · exact .inl ⟨_, rfl⟩
  · exact .inl ⟨_, rfl⟩

/-- TX changes nothing but the TX line, its trace and the result frames (R230, R233). -/
theorem execTx_frame (n : BitVec 16) (T : Train) (s : State) :
    ∃ t, execTx n T s = .next t ∧
      ∃ r, t = { s with tx := t.tx, txLevel := t.txLevel, results := s.results ++ [r] } := by
  unfold execTx
  rcases onWellFormed_cases (.tx n T) s
    (.next (answer 0 [] (driveTx (txWaveform n.toNat T) .low s))) with ⟨_, h⟩ | ⟨_, h⟩ <;> rw [h] <;>
    exact ⟨_, rfl, _, rfl⟩

/-- LIMIT changes nothing but ACTIVE and the result frames (R254). -/
theorem execLimit_frame (ids : List Text) (s : State) :
    ∃ t, execLimit ids s = .next t ∧
      ∃ r, t = { s with active := t.active, results := s.results ++ [r] } := by
  unfold execLimit
  rcases onWellFormed_cases (.limit ids) s
    (.next (answer 0 [] { s with active := limitedActive s.cfg.protocols ids })) with
    ⟨_, h⟩ | ⟨_, h⟩ <;> rw [h] <;> exact ⟨_, rfl, _, rfl⟩

/-- PT2STR changes nothing but the result frames (R64). -/
theorem execPt2str_frame (T : Train) (s : State) : ∃ t, execPt2str T s = .next t ∧ OneResult s t := by
  unfold execPt2str
  rcases onWellFormed_cases (.pt2str T) s _ with ⟨_, h⟩ | ⟨_, h⟩ <;> rw [h]
  · split <;> exact ⟨_, rfl, answer_oneResult _ _ _⟩
  · exact ⟨_, rfl, answerError_oneResult _ _⟩

/-- STR2PT changes nothing but the result frames (R64). -/
theorem execStr2pt_frame (token : Text) (maxlen : Word) (s : State) :
    ∃ t, execStr2pt token maxlen s = .next t ∧ OneResult s t := by
  unfold execStr2pt
  rcases onWellFormed_cases (.str2pt token maxlen) s _ with ⟨_, h⟩ | ⟨_, h⟩ <;> rw [h]
  · split
    · exact ⟨_, rfl, answer_oneResult _ _ _⟩
    · exact ⟨_, rfl, answerError_oneResult _ _⟩
  · exact ⟨_, rfl, answerError_oneResult _ _⟩

/-- EDGE changes nothing but the ring, PROD, NRPULSES and LASTEDGE (R140). -/
theorem execEdge_frame (now : Word) (s : State) :
    ∃ t, execEdge now s = .next t ∧ SameOffSampler s t :=
  ⟨_, rfl, edgeStep_only_sampler now s⟩

/-! ## Who writes what -/

/-- What a command that answers a next state leaves alone, by the part of the state and the command. -/
structure CommandKeeps (i : Instr) (s t : State) : Prop where
  cfg : t.cfg = s.cfg
  sampler : t.prod = s.prod ∧ t.nrPulses = s.nrPulses ∧ t.lastEdge = s.lastEdge
  inputs : t.inputs = s.inputs
  results : ∃ r, t.results = s.results ++ [r]
  ring : i ≠ .recv → t.ring = s.ring ∧ t.cons = s.cons
  config : (∀ n v, i ≠ .crw n v) → t.rxEn = s.rxEn ∧ t.cbDec = s.cbDec ∧ t.cbRaw = s.cbRaw ∧
    t.minGapLen = s.minGapLen ∧ t.minRawLen = s.minRawLen ∧ t.maxRawLen = s.maxRawLen
  active : (∀ ids, i ≠ .limit ids) → t.active = s.active
  ds : (∀ T, i ≠ .decode T) → (∀ a b n, i ≠ .encode a b n) → t.ds = s.ds
  tx : (∀ n T, i ≠ .tx n T) → t.tx = s.tx ∧ t.txLevel = s.txLevel
  evt : (∀ T, i ≠ .decode T) → t.evt = s.evt
  clock : (∀ T, i ≠ .decode T) → t.clockIn = s.clockIn ∧ t.clockReads = s.clockReads

theorem CommandKeeps.ofOneResult (i : Instr) {s t : State} (h : OneResult s t) : CommandKeeps i s t := by
  obtain ⟨r, rfl⟩ := h
  exact
    { cfg := rfl
      sampler := ⟨rfl, rfl, rfl⟩
      inputs := rfl
      results := ⟨r, rfl⟩
      ring := fun _ => ⟨rfl, rfl⟩
      config := fun _ => ⟨rfl, rfl, rfl, rfl, rfl, rfl⟩
      active := fun _ => rfl
      ds := fun _ _ => rfl
      tx := fun _ => ⟨rfl, rfl⟩
      evt := fun _ => rfl
      clock := fun _ => ⟨rfl, rfl⟩ }

/-- Every command keeps what is not its own. -/
theorem exec_keeps (i : Instr) (s t : State) (hc : i.isCommand = true) (h : exec i s = .next t) :
    CommandKeeps i s t := by
  cases i with
  | crr n =>
    obtain ⟨_, e, hr⟩ := execCrr_frame n s
    rw [exec, e] at h
    cases h
    exact .ofOneResult _ hr
  | nextlen =>
    obtain ⟨_, e, hr⟩ := execNextlen_frame s
    rw [exec, e] at h
    cases h
    exact .ofOneResult _ hr
  | pt2str T =>
    obtain ⟨_, e, hr⟩ := execPt2str_frame T s
    rw [exec, e] at h
    cases h
    exact .ofOneResult _ hr
  | str2pt token maxlen =>
    obtain ⟨_, e, hr⟩ := execStr2pt_frame token maxlen s
    rw [exec, e] at h
    cases h
    exact .ofOneResult _ hr
  | crw n v =>
    obtain ⟨_, e, r, hr⟩ := execCrw_frame n v s
    rw [exec, e] at h
    cases h
    rw [hr]
    exact ⟨rfl, ⟨rfl, rfl, rfl⟩, rfl, ⟨r, rfl⟩, fun _ => ⟨rfl, rfl⟩, fun h => absurd rfl (h n v),
      fun _ => rfl, fun _ _ => rfl, fun _ => ⟨rfl, rfl⟩, fun _ => rfl, fun _ => ⟨rfl, rfl⟩⟩
  | recv =>
    obtain ⟨_, e, r, hr⟩ := execRecv_frame s
    rw [exec, e] at h
    cases h
    rw [hr]
    exact ⟨rfl, ⟨rfl, rfl, rfl⟩, rfl, ⟨r, rfl⟩, fun h => absurd rfl h, fun _ => ⟨rfl, rfl, rfl, rfl, rfl, rfl⟩,
      fun _ => rfl, fun _ _ => rfl, fun _ => ⟨rfl, rfl⟩, fun _ => rfl, fun _ => ⟨rfl, rfl⟩⟩
  | decode T =>
    obtain ⟨_, e, r, hr⟩ := execDecode_frame T s
    rw [exec, e] at h
    cases h
    rw [hr]
    exact ⟨rfl, ⟨rfl, rfl, rfl⟩, rfl, ⟨r, rfl⟩, fun _ => ⟨rfl, rfl⟩, fun _ => ⟨rfl, rfl, rfl, rfl, rfl, rfl⟩,
      fun _ => rfl, fun h => absurd rfl (h T), fun _ => ⟨rfl, rfl⟩, fun h => absurd rfl (h T),
      fun h => absurd rfl (h T)⟩
  | encode a b n =>
    obtain ⟨r, hr⟩ := execEncode_frame a b n s t h
    rw [hr]
    exact ⟨rfl, ⟨rfl, rfl, rfl⟩, rfl, ⟨r, rfl⟩, fun _ => ⟨rfl, rfl⟩, fun _ => ⟨rfl, rfl, rfl, rfl, rfl, rfl⟩,
      fun _ => rfl, fun _ h => absurd rfl (h a b n), fun _ => ⟨rfl, rfl⟩, fun _ => rfl, fun _ => ⟨rfl, rfl⟩⟩
  | tx n T =>
    obtain ⟨_, e, r, hr⟩ := execTx_frame n T s
    rw [exec, e] at h
    cases h
    rw [hr]
    exact ⟨rfl, ⟨rfl, rfl, rfl⟩, rfl, ⟨r, rfl⟩, fun _ => ⟨rfl, rfl⟩, fun _ => ⟨rfl, rfl, rfl, rfl, rfl, rfl⟩,
      fun _ => rfl, fun _ _ => rfl, fun h => absurd rfl (h n T), fun _ => rfl, fun _ => ⟨rfl, rfl⟩⟩
  | limit ids =>
    obtain ⟨_, e, r, hr⟩ := execLimit_frame ids s
    rw [exec, e] at h
    cases h
    rw [hr]
    exact ⟨rfl, ⟨rfl, rfl, rfl⟩, rfl, ⟨r, rfl⟩, fun _ => ⟨rfl, rfl⟩, fun _ => ⟨rfl, rfl, rfl, rfl, rfl, rfl⟩,
      fun h => absurd rfl (h ids), fun _ _ => rfl, fun _ => ⟨rfl, rfl⟩, fun _ => rfl, fun _ => ⟨rfl, rfl⟩⟩
  | edge now => cases hc

/-! ## The step -/

/-- The inversion of the step: idle, a command, a refused frame, an edge or a reset. -/
theorem step_cases (s : State) :
    (s.inputs = [] ∧ step s = .next s) ∨
    (∃ cmd args rest i, s.inputs = .frame cmd args :: rest ∧ decodeFrame s.cfg.txtMax cmd args = .ok i ∧
      i.isCommand = true ∧ step s = exec i { s with inputs := rest }) ∨
    (∃ cmd args rest e, s.inputs = .frame cmd args :: rest ∧
      decodeFrame s.cfg.txtMax cmd args = .error e ∧
      step s = .next (answerError .illegal { s with inputs := rest })) ∨
    (∃ now rest, s.inputs = .edge now :: rest ∧ step s = .next (edgeStep now { s with inputs := rest })) ∨
    (∃ rest, s.inputs = .reset :: rest ∧ step s = .next (resetEvent { s with inputs := rest })) := by
  unfold step takeInput
  cases h : s.inputs with
  | nil => exact .inl ⟨rfl, rfl⟩
  | cons i rest =>
    cases i with
    | frame cmd args =>
      dsimp only
      cases hd : decodeFrame s.cfg.txtMax cmd args with
      | ok i =>
        exact .inr (.inl ⟨cmd, args, rest, i, rfl, hd, decodeFrame_isCommand _ _ _ _ hd, rfl⟩)
      | error e => exact .inr (.inr (.inl ⟨cmd, args, rest, e, rfl, hd, rfl⟩))
    | edge now => exact .inr (.inr (.inr (.inl ⟨now, rest, rfl, rfl⟩)))
    | reset => exact .inr (.inr (.inr (.inr ⟨rest, rfl, rfl⟩)))

end Sys2Proof.Machine
end

