-- ==== Sys2Proof/Laws/PerInstr.lean ====
section
/-! SUPPORT. The opcode table (spec/opcode_table.json, 30_encoding.md rule R90), per instruction: the first
word of its encoding matches its row's match value under its row's mask. -/

namespace Sys2Proof.Laws

/-- The mask and the match value of an instruction's row. -/
def OpcodeTable.row : Instr → Word × Word
  | .crr _ => (0xFF00FFFF, 0x01000000)
  | .crw _ _ => (0xFF00FFFF, 0x02000000)
  | .nextlen => (0xFFFFFFFF, 0x10000000)
  | .recv => (0xFFFFFFFF, 0x11000000)
  | .decode _ => (0xFFFFFFFF, 0x20000000)
  | .encode _ _ _ => (0xFFFFFFFF, 0x30000000)
  | .tx _ _ => (0xFFFF0000, 0x31000000)
  | .limit _ => (0xFFFFFFFF, 0x40000000)
  | .pt2str _ => (0xFFFFFFFF, 0x50000000)
  | .str2pt _ _ => (0xFFFFFFFF, 0x51000000)
  | .edge _ => (0xFFFFFFFF, 0xFF000000)

/-- The first word of the instruction's encoding is the one its row asks for. -/
def OpcodeTable.Statement (i : Instr) : Prop :=
  ∃ w ws, encode i = w :: ws ∧ w &&& (OpcodeTable.row i).1 = (OpcodeTable.row i).2

/-- A register number only fills SEL. -/
theorem OpcodeTable.sel (opc n : BitVec 8) (m : Word) (h : cmdWord opc 0 0 = m) :
    cmdWord opc n 0 &&& 0xFF00FFFF = m := by
  subst h
  apply BitVec.eq_of_getLsbD_eq
  intro i hi
  have hm : (0xFF00FFFF : Word).getLsbD i = (decide (i < 16) || decide (24 ≤ i)) := by
    revert i
    decide
  simp only [BitVec.getLsbD_and, cmdWord, BitVec.getLsbD_append, hm]
  by_cases h1 : i < 16
  · simp [h1]
  · by_cases h2 : i < 24
    · have : i - 16 < 8 := by omega
      have : ¬ 24 ≤ i := by omega
      simp [*]
    · have h3 : ¬ i - 16 < 8 := by omega
      have h4 : 24 ≤ i := by omega
      simp [h1, h3, h4]

/-- A repeat count only fills IMM. -/
theorem OpcodeTable.imm (opc : BitVec 8) (n : BitVec 16) (m : Word) (h : cmdWord opc 0 0 = m) :
    cmdWord opc 0 n &&& 0xFFFF0000 = m := by
  subst h
  apply BitVec.eq_of_getLsbD_eq
  intro i hi
  have hm : (0xFFFF0000 : Word).getLsbD i = decide (16 ≤ i) := by
    revert i
    decide
  simp only [BitVec.getLsbD_and, cmdWord, BitVec.getLsbD_append, hm]
  by_cases h1 : i < 16
  · have : ¬ 16 ≤ i := by omega
    simp [h1, this]
  · have : 16 ≤ i := by omega
    simp [h1, this]

/-- A row that fixes every bit. -/
theorem OpcodeTable.whole (w m : Word) (h : w = m) : w &&& 0xFFFFFFFF = m := by
  subst h
  exact BitVec.and_allOnes

theorem OpcodeTable.crr (n : BitVec 8) : OpcodeTable.Statement (.crr n) :=
  ⟨_, _, rfl, OpcodeTable.sel 0x01 n _ rfl⟩
theorem OpcodeTable.crw (n : BitVec 8) (v : Word) : OpcodeTable.Statement (.crw n v) :=
  ⟨_, _, rfl, OpcodeTable.sel 0x02 n _ rfl⟩
theorem OpcodeTable.nextlen : OpcodeTable.Statement .nextlen := ⟨_, _, rfl, OpcodeTable.whole _ _ rfl⟩
theorem OpcodeTable.recv : OpcodeTable.Statement .recv := ⟨_, _, rfl, OpcodeTable.whole _ _ rfl⟩
theorem OpcodeTable.decode (train : Train) : OpcodeTable.Statement (.decode train) := ⟨_, _, rfl, OpcodeTable.whole _ _ rfl⟩
theorem OpcodeTable.encode (id message : Text) (capacity : Word) :
    OpcodeTable.Statement (.encode id message capacity) := ⟨_, _, rfl, OpcodeTable.whole _ _ rfl⟩
theorem OpcodeTable.tx (repeats : BitVec 16) (train : Train) : OpcodeTable.Statement (.tx repeats train) :=
  ⟨_, _, rfl, OpcodeTable.imm 0x31 repeats _ rfl⟩
theorem OpcodeTable.limit (ids : List Text) : OpcodeTable.Statement (.limit ids) := ⟨_, _, rfl, OpcodeTable.whole _ _ rfl⟩
theorem OpcodeTable.pt2str (train : Train) : OpcodeTable.Statement (.pt2str train) := ⟨_, _, rfl, OpcodeTable.whole _ _ rfl⟩
theorem OpcodeTable.str2pt (token : Text) (maxlen : Word) : OpcodeTable.Statement (.str2pt token maxlen) :=
  ⟨_, _, rfl, OpcodeTable.whole _ _ rfl⟩
theorem OpcodeTable.edge (now : Word) : OpcodeTable.Statement (.edge now) := ⟨_, _, rfl, OpcodeTable.whole _ _ rfl⟩

end Sys2Proof.Laws
end

