-- ==== Sys2Proof/Laws/Safety.lean ====
section
/-! SUPPORT. Small lemmas about the terms of Safety: slots counted from a cursor, closed trains, texts as words
carry them, and the real numbers that the model's numbers stand for. -/

namespace Sys2Proof.Machine

open Sys2Proof.Config (nslots cap)

theorem nslots_eq : nslots = 10 := rfl
theorem cap_eq : cap = 255 := rfl

theorem slotFrom_val (k : Fin nslots) (i : Nat) : (slotFrom k i).val = (k.val + i) % 10 := rfl

@[simp] theorem slotFrom_zero (k : Fin nslots) : slotFrom k 0 = k :=
  Fin.ext (Nat.mod_eq_of_lt k.isLt)

@[simp] theorem slotFrom_nslots (k : Fin nslots) : slotFrom k 10 = k := by
  have := k.isLt
  have := nslots_eq
  exact Fin.ext (by rw [slotFrom_val]; omega)

theorem nextSlot_slotFrom (k : Fin nslots) (i : Nat) : nextSlot (slotFrom k i) = slotFrom k (i + 1) :=
  Fin.ext (by rw [nextSlot_val, slotFrom_val, slotFrom_val]; omega)

theorem slotFrom_nextSlot (k : Fin nslots) (i : Nat) : slotFrom (nextSlot k) i = slotFrom k (i + 1) :=
  Fin.ext (by rw [slotFrom_val, slotFrom_val, nextSlot_val]; omega)

theorem slotFrom_injective (k : Fin nslots) (i j : Nat) (hi : i < 10) (hj : j < 10)
    (h : slotFrom k i = slotFrom k j) : i = j := by
  have h' := congrArg Fin.val h
  rw [slotFrom_val, slotFrom_val] at h'
  omega

theorem nextSlot_ne (k : Fin nslots) : nextSlot k ≠ k := by
  intro h
  have h' := congrArg Fin.val h
  have := k.isLt
  rw [nextSlot_val] at h'
  have := nslots_eq
  omega

/-- A slot with the same length and words holds the same train. -/
theorem trainAt_congr (s t : State) (k k' : Fin nslots) (hl : lenRead t k' = lenRead s k)
    (hm : ∀ i < (lenRead s k).val, memRead t k' i = memRead s k i) : trainAt t k' = trainAt s k := by
  unfold trainAt
  rw [hl]
  exact copyOut_congr t s k' k _ hm

@[simp] theorem trainAt_length (s : State) (k : Fin nslots) : (trainAt s k).length = (lenRead s k).val :=
  copyOut_length s k _

/-- Queues of equally many slots with equal trains are equal. -/
theorem queued_congr (s t : State) (n : Nat)
    (h : ∀ i < n, trainAt t (slotFrom t.cons i) = trainAt s (slotFrom s.cons i)) :
    queued t n = queued s n :=
  List.map_congr_left fun i hi => h i (List.mem_range.mp hi)

theorem queued_succ (s : State) (n : Nat) :
    queued s (n + 1) = queued s n ++ [trainAt s (slotFrom s.cons n)] := by
  simp [queued, List.range_succ]

theorem queued_cons (s : State) (n : Nat) :
    queued s (n + 1) =
      trainAt s s.cons :: (List.range n).map fun i => trainAt s (slotFrom s.cons (i + 1)) := by
  simp [queued, List.range_succ_eq_map, Function.comp_def]

/-- An edge at its given duration after the baseline has that duration. -/
theorem elapsed_add (t d : Word) : elapsed (t + d) t = d := by
  simp [elapsed]

/-! ## Texts as words carry them (R82, R83) -/

/-- A text's own words carry it, its padding bytes being 0x00. -/
theorem carriesText_encodeTXT (t : Text) : CarriesText t (encodeTXT t) :=
  ⟨packText t, rfl, packText_length t, unpackText_packText t⟩

/-- The words a TXT item is read from carry its text, whatever the padding (R83). -/
theorem takeTXT_carries (txtMax : Word) (ws : List Word) (t : Text) (rest : List Word)
    (h : takeTXT txtMax ws = .ok (t, rest)) : ∃ w, ws = w ++ rest ∧ CarriesText t w := by
  cases ws with
  | nil => simp [takeTXT] at h
  | cons b ws =>
    simp only [takeTXT] at h
    split at h
    · cases h
    · split at h
      · cases h
      · next h2 =>
        obtain ⟨rfl, rfl⟩ := Prod.mk.inj (Except.ok.inj h)
        have hl : (ws.take (textWords b.toNat)).length = textWords b.toNat := by
          rw [List.length_take]
          omega
        have hb : (unpackText b.toNat (ws.take (textWords b.toNat))).length = b.toNat := by
          rw [unpackText_length, hl, textWords]
          omega
        refine ⟨b :: ws.take (textWords b.toNat), by simp, ws.take (textWords b.toNat), ?_, ?_, ?_⟩
        · rw [hb, BitVec.ofNat_toNat, BitVec.setWidth_eq]
        · rw [hb, hl, textWords]
        · rw [hb]

/-- The words that `m` texts are read from are one TXT item for each. -/
theorem takeTexts_carries (txtMax : Word) (m : Nat) (ws : List Word) (ts : List Text) (rest : List Word)
    (h : takeTexts txtMax m ws = .ok (ts, rest)) :
    ∃ items, ws = items.flatten ++ rest ∧ List.Forall₂ CarriesText ts items := by
  induction m generalizing ws ts rest with
  | zero =>
    obtain ⟨rfl, rfl⟩ := Prod.mk.inj (Except.ok.inj h)
    exact ⟨[], rfl, .nil⟩
  | succ m ih =>
    simp only [takeTexts] at h
    split at h
    · cases h
    · next t ws' ht =>
      split at h
      · cases h
      · next ts' ws'' hts =>
        obtain ⟨rfl, rfl⟩ := Prod.mk.inj (Except.ok.inj h)
        obtain ⟨w, rfl, hw⟩ := takeTXT_carries _ _ _ _ ht
        obtain ⟨items, rfl, hi⟩ := ih _ _ _ hts
        exact ⟨w :: items, by simp, .cons hw hi⟩

/-- The words a TXTLIST item is read from are its count and one TXT item for each text. -/
theorem takeTXTLIST_carries (txtMax : Word) (ws : List Word) (ts : List Text) (rest : List Word)
    (h : takeTXTLIST txtMax ws = .ok (ts, rest)) :
    ∃ items, ws = BitVec.ofNat 32 ts.length :: items.flatten ++ rest ∧
      List.Forall₂ CarriesText ts items := by
  cases ws with
  | nil => simp [takeTXTLIST] at h
  | cons m ws =>
    obtain ⟨items, rfl, hi⟩ := takeTexts_carries _ _ _ _ _ h
    refine ⟨items, ?_, hi⟩
    rw [(takeTexts_ok _ _ _ _ _ h).1, BitVec.ofNat_toNat, BitVec.setWidth_eq]
    rfl

/-! ## Real numbers (R5, R193) -/

/-- Every real number is one the codec can give (log 4). -/
theorem every_real_denoted (r : ℝ) : ∃ x, Denotes x r := by
  classical
  by_cases h : Irrational r
  · exact ⟨.irrational ⌊r⌋ (decide (1 / 2 < Int.fract r)), h, rfl, by simp⟩
  · obtain ⟨x, hx⟩ := not_not.mp h
    exact ⟨.rational x, hx.symm⟩

/-- Every number the codec can give stands for a real (log 4): √2 / 2 and √2 / 4 lie on the two sides of a
half. -/
theorem every_number_denotes (x : Config.Number) : ∃ r, Denotes x r := by
  cases x with
  | rational x => exact ⟨x, rfl⟩
  | irrational whole upper =>
    have h2 : (√2 : ℝ) ^ 2 = 2 := Real.sq_sqrt (by norm_num)
    have h0 : (0 : ℝ) ≤ √2 := Real.sqrt_nonneg 2
    have between : 1 < √2 ∧ √2 < 2 := ⟨by nlinarith, by nlinarith⟩
    cases upper with
    | true =>
      refine ⟨whole + √2 / 2, ?_, ?_, ?_⟩
      · exact_mod_cast (irrational_sqrt_two.div_natCast (m := 2) (by norm_num)).intCast_add whole
      · rw [Int.floor_eq_iff]
        constructor <;> linarith
      · rw [Int.fract_intCast_add, Int.fract_eq_self.mpr ⟨by linarith, by linarith⟩]
        have : 1 / 2 < √2 / 2 := by linarith
        simpa using this
    | false =>
      refine ⟨whole + √2 / 4, ?_, ?_, ?_⟩
      · exact_mod_cast (irrational_sqrt_two.div_natCast (m := 4) (by norm_num)).intCast_add whole
      · rw [Int.floor_eq_iff]
        constructor <;> linarith
      · rw [Int.fract_intCast_add, Int.fract_eq_self.mpr ⟨by linarith, by linarith⟩]
        have : √2 / 4 ≤ 1 / 2 := by linarith
        simpa using this

end Sys2Proof.Machine
end

