-- ==== Sys2Proof/Laws/TextCodec.lean ====
section
/-! SUPPORT. Decimal texts and their values, and what each loop of the text codec does with the first part
of its text. -/

namespace Sys2Proof.Machine

/-! ## Decimal texts (R193, R275) -/

/-- The value of a text of digits, continuing from a value. -/
def digitsValue (v : Nat) (t : Text) : Nat := t.foldl (fun v ch => 10 * v + (ch.toNat - 48)) v

/-- Every byte of a text is a decimal digit. -/
def AllDigits (t : Text) : Prop := ∀ ch : Byte, ch ∈ t → 48 ≤ ch.toNat ∧ ch.toNat ≤ 57

theorem digitByte_toNat (d : Nat) (h : d < 10) : (digitByte d).toNat = 48 + d := by
  rw [digitByte, BitVec.toNat_ofNat]
  omega

theorem decimalOnto_eq (fuel n : Nat) (acc : Text) :
    decimalOnto fuel n acc = decimalOnto fuel n [] ++ acc := by
  induction fuel generalizing n acc with
  | zero => rfl
  | succ fuel ih =>
    simp only [decimalOnto]
    split
    · rfl
    · rw [ih (n / 10) (digitByte (n % 10) :: acc), ih (n / 10) [digitByte (n % 10)], List.append_assoc]
      rfl

theorem decimalOnto_digits (fuel n : Nat) : AllDigits (decimalOnto fuel n []) := by
  induction fuel generalizing n with
  | zero => intro ch h; simp [decimalOnto] at h
  | succ fuel ih =>
    intro ch h
    simp only [decimalOnto] at h
    split at h
    · next hn =>
      rw [List.mem_singleton] at h
      rw [h, digitByte_toNat n hn]
      omega
    · rw [decimalOnto_eq] at h
      rcases List.mem_append.mp h with h | h
      · exact ih _ ch h
      · rw [List.mem_singleton] at h
        rw [h, digitByte_toNat _ (Nat.mod_lt n (by omega))]
        have := Nat.mod_lt n (show 10 > 0 by omega)
        omega

theorem decimalOnto_value (fuel n : Nat) (h : n < fuel) :
    digitsValue 0 (decimalOnto fuel n []) = n := by
  induction fuel generalizing n with
  | zero => omega
  | succ fuel ih =>
    simp only [decimalOnto]
    split
    · next hn =>
      simp only [digitsValue, List.foldl_cons, List.foldl_nil, digitByte_toNat n hn]
      omega
    · rw [decimalOnto_eq, digitsValue, List.foldl_append]
      have := ih (n / 10) (by omega)
      rw [digitsValue] at this
      rw [this, List.foldl_cons, List.foldl_nil, digitByte_toNat _ (Nat.mod_lt n (by omega))]
      omega

/-- A number's decimal text has its value. -/
theorem decimalText_value (n : Nat) : digitsValue 0 (decimalText n) = n :=
  decimalOnto_value (n + 1) n (by omega)

/-- A number's decimal text is digits only. -/
theorem decimalText_digits (n : Nat) : AllDigits (decimalText n) := decimalOnto_digits (n + 1) n

theorem decimalText_ne_nil (n : Nat) : decimalText n ≠ [] := by
  rw [decimalText, decimalOnto]
  split
  · simp
  · rw [decimalOnto_eq]
    simp

/-! ## Types and tokens spelled out -/

/-- A pulse matches a type when their quotients by 50 differ by at most 2, over the integers (R271). -/
theorem typeMatches_iff (x rep : Word) : typeMatches x rep = true ↔
    (((x.toNat / 50 : Nat) : Int) - ((rep.toNat / 50 : Nat) : Int)).natAbs ≤ 2 := decide_eq_true_iff

theorem typeText_eq (types : List Word) :
    typeText types = ((types.map fun t => decimalText t.toNat).intersperse [0x2C]).flatten := by
  induction types with
  | nil => rfl
  | cons t ts ih =>
    cases ts with
    | nil => simp [typeText]
    | cons u us =>
      simp only [typeText, ih]
      simp [chComma]

/-- The bytes of a token: `c:`, the codes, `;p:`, the decimals joined by single commas, `@` (R275). -/
theorem tokenText_eq (types : List Word) (codes : Text) :
    tokenText types codes = [0x63, 0x3A] ++ codes ++ [0x3B, 0x70, 0x3A] ++
      ((types.map fun t => decimalText t.toNat).intersperse [0x2C]).flatten ++ [0x40] := by
  rw [← typeText_eq]
  rfl

/-- A type found: its pulse matches it, and no type before it (R271). -/
theorem findType_eq_some (types : List Word) (x : Word) (t : Nat) (h : findType types x = some t) :
    (∃ rep, types[t]? = some rep ∧ typeMatches x rep = true) ∧
      ∀ i < t, ∀ rep, types[i]? = some rep → typeMatches x rep = false := by
  rw [findType, List.findIdx?_eq_some_iff_getElem] at h
  obtain ⟨hl, h1, h2⟩ := h
  refine ⟨⟨_, List.getElem?_eq_getElem hl, h1⟩, fun i hi rep hr => ?_⟩
  rw [List.getElem?_eq_getElem (by omega)] at hr
  obtain rfl := Option.some.inj hr
  simpa using h2 i hi

/-- No type found: the pulse matches none (R271). -/
theorem findType_eq_none (types : List Word) (x : Word) :
    findType types x = none ↔ ∀ t ∈ types, typeMatches x t = false := List.findIdx?_eq_none_iff

/-! ## The loops -/

/-- The loop over pulses splits: the second part starts from where the first left off (R270). -/
theorem codePulses_append (types : List Word) (codes : Text) (p q : Train) :
    codePulses types codes (p ++ q) =
      match codePulses types codes p with
      | none => none
      | some (types', codes') => codePulses types' codes' q := by
  induction p generalizing types codes with
  | nil => rfl
  | cons x xs ih =>
    simp only [List.cons_append, codePulses]
    split
    · exact ih _ _
    · split
      · rfl
      · exact ih _ _

theorem isDigit_iff (ch : Byte) : isDigit ch = true ↔ 48 ≤ ch.toNat ∧ ch.toNat ≤ 57 := by
  simp [isDigit, chZero, chNine, BitVec.le_def]

/-- Digits continue the number at hand (R283). -/
theorem scanTypes_digits (digits rest : Text) (v : Nat) (types : List Word) (h : AllDigits digits) :
    scanTypes (digits ++ rest) (some v) types = scanTypes rest (some (digitsValue v digits)) types := by
  induction digits generalizing v with
  | nil => rfl
  | cons ch digits ih =>
    have hd := (isDigit_iff ch).mpr (h ch List.mem_cons_self)
    simp only [List.cons_append, scanTypes, hd, if_true, Option.getD_some]
    rw [ih _ fun c hc => h c (List.mem_cons_of_mem _ hc)]
    rfl

/-- A number starts at its first digit (R283). -/
theorem scanTypes_number (digits rest : Text) (types : List Word) (h : AllDigits digits)
    (hne : digits ≠ []) :
    scanTypes (digits ++ rest) none types = scanTypes rest (some (digitsValue 0 digits)) types := by
  cases digits with
  | nil => exact absurd rfl hne
  | cons ch digits =>
    have hd := (isDigit_iff ch).mpr (h ch List.mem_cons_self)
    simp only [List.cons_append, scanTypes, hd, if_true, Option.getD_none]
    exact scanTypes_digits digits rest _ types fun c hc => h c (List.mem_cons_of_mem _ hc)

/-- After a number, a comma pushes it and a next one must follow (R280). -/
theorem scanTypes_comma (rest : Text) (v : Nat) (types : List Word) :
    scanTypes (chComma :: rest) (some v) types =
      match pushType types v with
      | none => none
      | some types' => scanTypes rest none types' := rfl

/-- After a number, '@' pushes it and closes the list, whatever follows (R280, R283). -/
theorem scanTypes_at (rest : Text) (v : Nat) (types : List Word) :
    scanTypes (chAt :: rest) (some v) types = pushType types v := by
  show (match pushType types v with | none => none | some types' => some types') = _
  cases pushType types v <;> rfl

/-- A code that names an entry of the table reads as that entry (R281). -/
theorem readCodes_code (types : List Word) (maxlen : Nat) (ch : Byte) (rest : Text) (t : Word)
    (h1 : ch ≠ chSemicolon) (h2 : ch ≠ chAt) (h3 : 48 ≤ ch.toNat)
    (h4 : types[ch.toNat - 48]? = some t) :
    readCodes types (maxlen + 1) (ch :: rest) = (readCodes types maxlen rest).map (t :: ·) := by
  have h5 : ¬ ch.toNat < 0x30 := by omega
  simp only [readCodes, h1, h2, or_self, if_false, h5, h4]
  cases readCodes types maxlen rest <;> rfl

/-- The code section ends at ';' and at '@' (R281). -/
theorem readCodes_end (types : List Word) (maxlen : Nat) (ch : Byte) (rest : Text)
    (h : ch = chSemicolon ∨ ch = chAt) : readCodes types maxlen (ch :: rest) = some [] := by
  cases maxlen <;> simp [readCodes, h]

/-- The number of pulses read is at most `maxlen` (R280). -/
theorem readCodes_length (types : List Word) (maxlen : Nat) (codes : Text) (out : Train)
    (h : readCodes types maxlen codes = some out) : out.length ≤ maxlen := by
  induction maxlen generalizing codes out with
  | zero =>
    cases codes <;> cases h <;> exact Nat.le_refl _
  | succ maxlen ih =>
    cases codes with
    | nil => cases h; exact Nat.zero_le _
    | cons ch rest =>
      simp only [readCodes] at h
      split at h
      · cases h
        exact Nat.zero_le _
      · split at h
        · cases h
        · split at h
          · cases h
          · split at h
            · cases h
            · next out' e =>
              cases h
              exact Nat.succ_le_succ (ih _ _ e)

/-- A marker at the head of a text is found there (R282). -/
theorem afterMarker_here (a b : Byte) (rest : Text) : afterMarker a b (a :: b :: rest) = some rest := by
  simp [afterMarker]

/-- A first byte that is not the marker's is skipped (R282). -/
theorem afterMarker_skip (a b x : Byte) (rest : Text) (h : x ≠ a) :
    afterMarker a b (x :: rest) = afterMarker a b rest := by
  cases rest with
  | nil => rfl
  | cons y rest => simp [afterMarker, h]

/-- Behind the first occurrence of a marker of two different bytes stands what follows it (R280). -/
theorem afterMarker_first (a b : Byte) (hab : a ≠ b) (before rest : Text)
    (h : ¬ [a, b] <:+: before ++ [a]) : afterMarker a b (before ++ [a, b] ++ rest) = some rest := by
  induction before with
  | nil => exact afterMarker_here a b rest
  | cons x before ih =>
    obtain ⟨y, ys, e, hn⟩ : ∃ y ys, before ++ [a, b] ++ rest = y :: ys ∧ ¬ (x = a ∧ y = b) := by
      cases before with
      | nil => exact ⟨a, _, rfl, fun hh => hab hh.2⟩
      | cons y before => exact ⟨y, _, rfl, fun hh => h ⟨[], before ++ [a], by simp [hh.1, hh.2]⟩⟩
    have := ih fun hh => h (hh.trans (List.infix_cons (List.infix_refl _)))
    rw [e] at this
    rw [List.cons_append, List.cons_append, e, afterMarker, if_neg hn, this]

/-- The search for a marker fails exactly where the text does not contain it (R282). -/
theorem afterMarker_eq_none (a b : Byte) (t : Text) : afterMarker a b t = none ↔ ¬ [a, b] <:+: t := by
  induction t with
  | nil => simp [afterMarker]
  | cons x t ih =>
    cases t with
    | nil =>
      refine ⟨fun _ h => ?_, fun _ => rfl⟩
      simpa using h.length_le
    | cons y t =>
      rw [afterMarker]
      split
      · next h => simpa using ⟨[], t, by simp [h.1, h.2]⟩
      · next h =>
        rw [ih]
        refine not_congr ⟨fun h2 => h2.trans (List.infix_cons (List.infix_refl _)), fun h2 => ?_⟩
        rcases List.infix_cons_iff.mp h2 with h3 | h3
        · rw [List.cons_prefix_cons, List.cons_prefix_cons] at h3
          exact absurd ⟨h3.1.symm, h3.2.1.symm⟩ h
        · exact h3

end Sys2Proof.Machine
end

