-- ==== Sys2Proof/Machine/Assembler.lean ====
section
/-! DEFINITION. The assembler's text form and its pseudo-instructions (30_encoding.md rules R93, R94). No
step of the block uses it: it says which commands a line of assembler text stands for (log 19). -/

namespace Sys2Proof.Machine

/-- The bytes of an ASCII text (R12). -/
def ascii (s : String) : Text := s.toList.map fun ch => BitVec.ofNat 8 ch.toNat

/-! ## Tokens of a line -/

/-- A token: a word (mnemonic, register name or number), a quoted text, or a separator. -/
inductive Token where
  | word (t : Text)
  | text (t : Text)
  | comma
  | opened
  | closed
  deriving DecidableEq, Repr

/-- Where the lexer stands: between tokens, in a word, in a quoted text, or after its backslash. -/
inductive LexState where
  | between
  | inWord (t : Text)
  | inText (t : Text)
  | escaped (t : Text)
  deriving DecidableEq, Repr

/-- A byte that may stand in a word: a letter, a digit or '_'. -/
def isWordByte (ch : Byte) : Bool :=
  decide ((0x30 ≤ ch ∧ ch ≤ 0x39) ∨ (0x41 ≤ ch ∧ ch ≤ 0x5A) ∨ (0x61 ≤ ch ∧ ch ≤ 0x7A) ∨ ch = 0x5F)

/-- What a byte between tokens gives: the token it is on its own, if any, and the lexer's next state. -/
def lexBetween (ch : Byte) : Option (List Token × LexState) :=
  if ch = 0x20 then some ([], .between)
  else if ch = 0x2C then some ([.comma], .between)
  else if ch = 0x5B then some ([.opened], .between)
  else if ch = 0x5D then some ([.closed], .between)
  else if ch = 0x22 then some ([], .inText [])
  else if isWordByte ch = true then some ([], .inWord [ch])
  else none

/-- One byte of a line (R93): a backslash in a quoted text stands before a quote or a backslash. -/
def lexByte (ch : Byte) : LexState → Option (List Token × LexState)
  | .between => lexBetween ch
  | .inWord t =>
    if isWordByte ch = true then some ([], .inWord (t ++ [ch]))
    else
      match lexBetween ch with
      | none => none
      | some (toks, st) => some (.word t :: toks, st)
  | .inText t =>
    if ch = 0x22 then some ([.text t], .between)
    else if ch = 0x5C then some ([], .escaped t)
    else some ([], .inText (t ++ [ch]))
  | .escaped t => if ch = 0x22 ∨ ch = 0x5C then some ([], .inText (t ++ [ch])) else none

/-- The tokens of a line from a lexer state on; none if a byte fits nowhere or a quote stays open. -/
def lexLine : Text → LexState → Option (List Token)
  | [], .between => some []
  | [], .inWord t => some [.word t]
  | [], .inText _ => none
  | [], .escaped _ => none
  | ch :: rest, st =>
    match lexByte ch st with
    | none => none
    | some (toks, st') =>
      match lexLine rest st' with
      | none => none
      | some more => some (toks ++ more)

/-! ## Numbers and registers -/

/-- The value of a digit in a base up to 16. -/
def digitIn (base : Nat) (ch : Byte) : Option Nat :=
  let v :=
    if 0x30 ≤ ch ∧ ch ≤ 0x39 then ch.toNat - 0x30
    else if 0x41 ≤ ch ∧ ch ≤ 0x46 then ch.toNat - 0x41 + 10
    else if 0x61 ≤ ch ∧ ch ≤ 0x66 then ch.toNat - 0x61 + 10
    else 16
  if v < base then some v else none

/-- The value of digits in a base, from the value of those before them. -/
def numberIn (base : Nat) : Nat → Text → Option Nat
  | acc, [] => some acc
  | acc, ch :: rest =>
    match digitIn base ch with
    | none => none
    | some v => numberIn base (base * acc + v) rest

/-- A decimal or `0x` hexadecimal number (R93). -/
def numberOf : Text → Option Nat
  | [] => none
  | [ch] => numberIn 10 0 [ch]
  | [ch, ch'] => numberIn 10 0 [ch, ch']
  | a :: b :: ch :: rest =>
    if a = 0x30 ∧ b = 0x78 then numberIn 16 0 (ch :: rest) else numberIn 10 0 (a :: b :: ch :: rest)

/-- A number of at most `w` bits. -/
def wordOf (w : Nat) (t : Text) : Option (BitVec w) :=
  match numberOf t with
  | none => none
  | some v => if v < 2 ^ w then some (BitVec.ofNat w v) else none

/-- The names of the control registers, in the order of their numbers (R23). -/
def registerNames : List Text :=
  [ascii "RXEN", ascii "CBEN", ascii "MINGAPLEN", ascii "MINRAWLEN", ascii "MAXRAWLEN", ascii "PROD",
   ascii "CONS", ascii "NRPULSES", ascii "LASTEDGE", ascii "NSLOTS", ascii "CAP", ascii "ACTIVE_N",
   ascii "NPROTO"]

/-- A register operand: a name of R23 or its number (R93). -/
def registerOf (t : Text) : Option (BitVec 8) :=
  match registerNames.findIdx? (fun name => name = t) with
  | some n => some (BitVec.ofNat 8 n)
  | none => wordOf 8 t

/-! ## Bracketed lists -/

/-- The rest of a list of numbers after one element: a comma and an element, or the closing bracket.
Answers the numbers and the tokens after the list. -/
def moreNumbers : List Token → Option (Train × List Token)
  | .closed :: rest => some ([], rest)
  | .comma :: .word t :: rest =>
    match wordOf 32 t, moreNumbers rest with
    | some v, some (vs, left) => some (v :: vs, left)
    | _, _ => none
  | _ => none

/-- A PT operand (R93). -/
def trainOperand : List Token → Option (Train × List Token)
  | .opened :: .closed :: rest => some ([], rest)
  | .opened :: .word t :: rest =>
    match wordOf 32 t, moreNumbers rest with
    | some v, some (vs, left) => some (v :: vs, left)
    | _, _ => none
  | _ => none

/-- The rest of a list of quoted texts after one element. -/
def moreTexts : List Token → Option (List Text × List Token)
  | .closed :: rest => some ([], rest)
  | .comma :: .text t :: rest =>
    match moreTexts rest with
    | some (ts, left) => some (t :: ts, left)
    | none => none
  | _ => none

/-- A TXTLIST operand (R93). -/
def textsOperand : List Token → Option (List Text × List Token)
  | .opened :: .closed :: rest => some ([], rest)
  | .opened :: .text t :: rest =>
    match moreTexts rest with
    | some (ts, left) => some (t :: ts, left)
    | none => none
  | _ => none

/-! ## Pseudo-instructions -/

/-- The pseudo-instructions of R94. -/
inductive Pseudo where
  | rxon
  | rxoff
  | cbset (dec raw : Bool)
  | txDefault (train : Train)
  | limitall
  | setgap (v : Word)
  | setraw (least most : Word)
  deriving DecidableEq, Repr

/-- The commands a pseudo-instruction stands for (R94). -/
def Pseudo.expand : Pseudo → List Instr
  | .rxon => [.crw 0 1]
  | .rxoff => [.crw 0 0]
  | .cbset dec raw => [.crw 1 ((if dec = true then 1 else 0) + (if raw = true then 2 else 0))]
  | .txDefault train => [.tx Config.txRepeatsDefault train]
  | .limitall => [.limit []]
  | .setgap v => [.crw 2 v]
  | .setraw least most => [.crw 3 least, .crw 4 most]

/-! ## Lines -/

/-- A bit operand of CBSET. -/
def bitOf (t : Text) : Option Bool :=
  match numberOf t with
  | some 0 => some false
  | some 1 => some true
  | _ => none

/-- A lone train operand, nothing after it. -/
def loneTrain (toks : List Token) : Option Train :=
  match trainOperand toks with
  | some (p, []) => some p
  | _ => none

/-- TX, with its repeats, or by R94 without. -/
def txLine (toks : List Token) : Option (List Instr) :=
  match trainOperand toks with
  | some (p, []) => some (Pseudo.txDefault p).expand
  | some (p, [.comma, .word t]) => (wordOf 16 t).map fun n => [.tx n p]
  | _ => none

/-- The commands of a mnemonic and its operand tokens, none where they fit no form of R93 or R94. -/
def assembleTokens (name : Text) (args : List Token) : Option (List Instr) :=
  if name = ascii "DECODE" then (loneTrain args).map fun p => [.decode p]
  else if name = ascii "PT2STR" then (loneTrain args).map fun p => [.pt2str p]
  else if name = ascii "TX" then txLine args
  else if name = ascii "LIMIT" then
    match textsOperand args with
    | some (ids, []) => some [.limit ids]
    | _ => none
  else
    match args with
    | [] =>
      if name = ascii "NEXTLEN" then some [.nextlen]
      else if name = ascii "RECV" then some [.recv]
      else if name = ascii "RXON" then some Pseudo.rxon.expand
      else if name = ascii "RXOFF" then some Pseudo.rxoff.expand
      else if name = ascii "LIMITALL" then some Pseudo.limitall.expand
      else none
    | [.word a] =>
      if name = ascii "CRR" then (registerOf a).map fun n => [.crr n]
      else if name = ascii "SETGAP" then (wordOf 32 a).map fun v => (Pseudo.setgap v).expand
      else none
    | [.word a, .comma, .word b] =>
      if name = ascii "CRW" then
        match registerOf a, wordOf 32 b with
        | some n, some v => some [.crw n v]
        | _, _ => none
      else if name = ascii "CBSET" then
        match bitOf a, bitOf b with
        | some dec, some raw => some (Pseudo.cbset dec raw).expand
        | _, _ => none
      else if name = ascii "SETRAW" then
        match wordOf 32 a, wordOf 32 b with
        | some least, some most => some (Pseudo.setraw least most).expand
        | _, _ => none
      else none
    | [.text a, .comma, .word b] =>
      if name = ascii "STR2PT" then (wordOf 32 b).map fun n => [.str2pt a n] else none
    | [.text a, .comma, .text b, .comma, .word c] =>
      if name = ascii "ENCODE" then (wordOf 32 c).map fun n => [.encode a b n] else none
    | _ => none

/-- The commands of one line of assembler text, none for a line of no form (R93, R94). -/
def assembleLine (line : Text) : Option (List Instr) :=
  match lexLine line .between with
  | some (.word name :: args) => assembleTokens name args
  | _ => none

/-- The frames of one line of assembler text: what the host presents on CMD (R80, R93, R94). -/
def assembleFrames (line : Text) : Option (List (List Word)) :=
  (assembleLine line).map fun cmds => cmds.map encode

end Sys2Proof.Machine
end

