-- ==== Sys2Proof/Tests/Slice0.lean ====
section
/-! SUPPORT. The model's own tests. Expected values come from the spec: the test vectors of
95_test_vectors.md (named C-1, S-8, ... as there, with its toy configuration TC), the encodings of
30_encoding.md, or hand calculation from a rule. The theorems named `witness_...` show, for each statement
that has hypotheses, concrete values that meet them, clause by clause. -/

namespace Sys2Proof.Tests

open Sys2Proof.Machine
open Sys2Proof.Config (nslots cap Fn Codec Instantiation Descriptor)

/-! ## The toy configuration TC (95_test_vectors.md) and small states -/

/-- `A6`. -/
def A6 : Train := [300, 900, 300, 900, 300, 6000]
/-- `B6`. -/
def B6 : Train := [400, 900, 300, 900, 300, 6000]
/-- A train that `tp` validates and whose parse produces nothing (vector D-11). -/
def N6 : Train := [150, 900, 300, 900, 300, 6000]
/-- A quoted-braces text: the message (a, b) of TC. -/
def msg (a b : Byte) : Text := 0x7B :: (ascii "\"u\":" ++ [a] ++ ascii ",\"s\":" ++ [b] ++ [0x7D])
/-- The message (3, 9). -/
def m39 : Text := msg 0x33 0x39
/-- The message (4, 9). -/
def m49 : Text := msg 0x34 0x39
/-- The empty document's text. -/
def mE : Text := [0x7B, 0x7D]

/-- Descriptor 0 of TC, on the arguments the tests use; documents 1, 2 stand for (3, 9), (4, 9). -/
def tp : Descriptor :=
  { id := ascii "tp", minrawlen := 0, maxrawlen := 6, mingaplen := 0, maxgaplen := 0
    validate := some (.table [(A6, true), (B6, true), (N6, true)] false)
    parse := some (.table [(A6, some 1), (B6, some 2)] none)
    create := some (.table [(1, some A6)] none) }

/-- Descriptor 1 of TC. -/
def tq : Descriptor :=
  { id := ascii "tq", minrawlen := 0, maxrawlen := 255, mingaplen := 0, maxgaplen := 0
    validate := some (.table [] true), parse := none, create := none }

/-- Descriptor 2 of TC. -/
def tc : Descriptor :=
  { id := ascii "tc", minrawlen := 0, maxrawlen := 4, mingaplen := 0, maxgaplen := 0
    validate := none, parse := none
    create := some (.table [(1, some [500, 1000, 500, 1000])] none) }

/-- A descriptor whose create overruns its maxrawlen: a fault of the configuration (R225). -/
def bad : Descriptor := { tc with id := ascii "bad", maxrawlen := 3 }

/-- J of TC, on the texts the tests use. -/
def jTC : Codec :=
  { valid := .table [(m39, true), (m49, true), (mE, true)] false
    parse := .table [(m39, 1), (m49, 2)] 0
    encode := .table [(1, m39), (2, m49)] mE
    num := .table [((1, ascii "u"), some (.rational 3)), ((2, ascii "u"), some (.rational 4))] none
    str := .table [((3, ascii "u"), some (ascii "kitchen"))] none }

/-- TC, with a small TXT_MAX. -/
def TC : Instantiation :=
  { minPulse := 100, maxPulse := 100000, protocols := [tp, tq, tc], codec := jTC, devidKey := ascii "u"
    txtMax := 30 }

/-- TC with the bad descriptor. -/
def badTC : Instantiation := { TC with protocols := [bad] }

/-- The reset state of TC. -/
def r0 : State := State.resetWith TC
/-- The same, enabled, with a baseline. -/
def en (t : Word) : State := { r0 with rxEn := true, lastEdge := t }

/-- Slot `k` holding a train. -/
def fill (k : Fin nslots) (p : Train) (s : State) : State :=
  lenWrite k (Fin.ofNat cap p.length)
    ((List.range p.length).foldl (fun s i => memWrite k (Fin.ofNat cap i) (p.getD i 0) s) s)

/-- A ring whose slot 0 holds A6, undrained. -/
def oneTrain : State := { fill 0 A6 r0 with prod := 1 }

/-- A full ring: every slot of length 1, both cursors at 2. -/
def full : State :=
  { en 1000 with ring := Vector.replicate nslots { Slot.reset with len := 1 }, prod := 2, cons := 2 }

/-- Something of the next state. -/
def next? {α : Type} (o : Host.Outcome State Fault Refusal) (f : State → α) : Option α :=
  match o with
  | .next t => some (f t)
  | .fault _ => none
  | .refused _ => none

/-- The words of the last result frame of the next state. -/
def reply (o : Host.Outcome State Fault Refusal) : Option (List Word) :=
  match next? o State.results with
  | some rs => rs.getLast?.map resultFrame
  | none => none

/-! ## WellFormed: one ill-formed term for each check (R87) -/

/-- A train of `n` pulses passes the check exactly when it is within CAP. -/
theorem trainOk_replicate (n : Nat) : trainOk (List.replicate n 1) = decide (n ≤ 255) := by
  rw [trainOk, List.length_replicate]

theorem test_wf_decode_train : Instr.wellFormed 30 (.decode (List.replicate 256 1)) = false :=
  trainOk_replicate 256
theorem test_wf_tx_train : Instr.wellFormed 30 (.tx 1 (List.replicate 256 1)) = false :=
  trainOk_replicate 256
theorem test_wf_pt2str_train : Instr.wellFormed 30 (.pt2str (List.replicate 256 1)) = false :=
  trainOk_replicate 256
theorem test_wf_encode_id : Instr.wellFormed 2 (.encode [1, 2, 3] [] 0) = false := by decide
theorem test_wf_encode_message : Instr.wellFormed 2 (.encode [] [1, 2, 3] 0) = false := by decide
theorem test_wf_limit_id : Instr.wellFormed 2 (.limit [[1], [1, 2, 3]]) = false := by decide
theorem test_wf_str2pt_token : Instr.wellFormed 2 (.str2pt [1, 2, 3] 0) = false := by decide
theorem test_wf_at_the_bounds :
    Instr.wellFormed 2 (.decode (List.replicate 255 1)) = true ∧
    Instr.wellFormed 2 (.encode [1, 2] [1, 2] 0) = true := by
  exact ⟨trainOk_replicate 255, by decide⟩

/-! ## Decoding: words written out from R81, R82, R90 -/

theorem test_decode_crr : decodeFrame 30 0b00000001_00000010_0000000000000000 [] = .ok (.crr 2) := by decide
theorem test_decode_crw :
    decodeFrame 30 0b00000010_00000000_0000000000000000 [0xFFFFFFFF] = .ok (.crw 0 0xFFFFFFFF) := by decide
theorem test_decode_nextlen : decodeFrame 30 0b00010000_00000000_0000000000000000 [] = .ok .nextlen := by
  decide
theorem test_decode_recv : decodeFrame 30 0b00010001_00000000_0000000000000000 [] = .ok .recv := by decide
theorem test_decode_decode :
    decodeFrame 30 0b00100000_00000000_0000000000000000 [2, 300, 900] = .ok (.decode [300, 900]) := by decide
/-- Frame E-5. -/
theorem test_decode_encode :
    decodeFrame 30 0b00110000_00000000_0000000000000000 [2, 0x00007074, 2, 0x00007D7B, 0x000000FF] =
      .ok (.encode (ascii "tp") mE 255) := by decide
/-- Frame X-1. -/
theorem test_decode_tx :
    decodeFrame 30 0b00110001_00000000_0000000000000010 [2, 0x1F4, 0x3E8] = .ok (.tx 2 [500, 1000]) := by
  decide
/-- Frame M-1. -/
theorem test_decode_limit :
    decodeFrame 30 0b01000000_00000000_0000000000000000 [3, 2, 0x6374, 2, 0x7A7A, 2, 0x7074] =
      .ok (.limit [ascii "tc", ascii "zz", ascii "tp"]) := by decide
/-- Frame L1-1. -/
theorem test_decode_pt2str :
    decodeFrame 30 0b01010000_00000000_0000000000000000 [4, 0x12C, 0x136, 0x2328, 0x131] =
      .ok (.pt2str [300, 310, 9000, 305]) := by decide
/-- Frame T-11. -/
theorem test_decode_str2pt :
    decodeFrame 30 0b01010001_00000000_0000000000000000
      [24, 0x31303A63, 0x32303130, 0x333A703B, 0x392C3030, 0x362C3030, 0x40303030, 0xFF] =
      .ok (.str2pt (ascii "c:010102;p:300,900,6000@") 255) := by decide
theorem test_decode_edge :
    decodeTrace 30 [0b11111111_00000000_0000000000000000, 0x1234] = .ok (.edge 0x1234) := by decide
/-- A frame within the bounds, with non-zero padding bytes, decodes: the padding is ignored (R83). -/
theorem test_decode_padding : decodeFrame 30 0x51000000 [1, 0xAABBCC63, 9] = .ok (.str2pt [0x63] 9) := by
  decide
/-- Vectors R-1 to R-7, C-16 to C-18, D-19, and a text beyond TXT_MAX. -/
theorem test_decode_rejects :
    decodeFrame 30 0x03000000 [] = .error .reservedOpcode ∧
    decodeFrame 30 0x00000000 [] = .error .reservedOpcode ∧
    decodeFrame 30 0xFF000000 [0x1234] = .error .edgeNotCommand ∧
    decodeFrame 30 0x10000001 [] = .error .nonzeroImm ∧
    decodeFrame 30 0x20010000 [0] = .error .nonzeroSel ∧
    decodeFrame 30 0x20000000 [2, 0x12C] = .error .missingWord ∧
    decodeFrame 30 0x40000000 [1] = .error .missingWord ∧
    decodeFrame 30 0x01020001 [] = .error .nonzeroImm ∧
    decodeFrame 30 0x02020000 [] = .error .missingWord ∧
    decodeFrame 30 0x01020000 [0] = .error .extraWord ∧
    decodeFrame 30 0x20000000 (256 :: List.replicate 256 1) = .error .trainTooLong ∧
    decodeFrame 3 0x51000000 [4, 0x64636261, 9] = .error .textTooLong ∧
    decodeTrace 30 [] = .error .empty := by decide

/-- A row of the opcode table, laid out with no operand words, decodes to its instruction (log 14). -/
theorem test_table_words :
    decodeTableWord 32 0x01050000 = some (.crr 5) ∧ decodeTableWord 32 0x02040000 = some (.crw 4 0) ∧
    decodeTableWord 32 0x30000000 = some (.encode [] [] 0) ∧
    decodeTableWord 32 0x3100000A = some (.tx 10 []) ∧ decodeTableWord 32 0xFF000000 = some (.edge 0) ∧
    decodeTableWord 64 (0xFF000000 + 7 * 2 ^ 32) = some (.edge 7) ∧
    decodeTableWord 64 (0x10000000 + 7 * 2 ^ 32) = none ∧ decodeTableWord 32 0x03000000 = none := by decide

/-! ## Encoding and the assembler -/

/-- Frames E-6 and X-5 (30_encoding.md rules R81 to R83). -/
theorem test_encode_words :
    encode (.encode (ascii "tp") m39 255) = [0x30000000, 2, 0x00007074, 0x0000000D, 0x2275227B, 0x222C333A,
      0x393A2273, 0x0000007D, 0x000000FF] ∧
    encode (.tx 2 [100, 200, 300]) = [0x31000002, 3, 0x64, 0xC8, 0x12C] := by decide

/-- R93: the forms of operands. -/
theorem test_assemble_forms :
    assembleLine (ascii "CRR LASTEDGE") = some [.crr 8] ∧
    assembleLine (ascii "CRW 255, 0x10") = some [.crw 255 16] ∧
    assembleLine (ascii "TX [500, 1000], 2") = some [.tx 2 [500, 1000]] ∧
    assembleLine (ascii "ENCODE \"tp\", \"a\\\"\\\\\", 9") = some [.encode (ascii "tp") [0x61, 0x22, 0x5C] 9] ∧
    assembleLine (ascii "CRW 0, 4294967296") = none := by decide

/-- R94: the pseudo-instructions. -/
theorem test_assemble_pseudo :
    assembleFrames (ascii "RXON") = some [[0x02000000, 1]] ∧
    assembleFrames (ascii "CBSET 1, 1") = some [[0x02010000, 3]] ∧
    assembleLine (ascii "TX [7]") = some [.tx 10 [7]] ∧
    assembleLine (ascii "LIMITALL") = some [.limit []] ∧
    assembleLine (ascii "SETRAW 2, 10") = some [.crw 3 2, .crw 4 10] := by decide

/-! ## One step of each instruction -/

/-- Vectors C-2, C-6, C-7 and C-14. -/
theorem test_crr :
    reply (exec (.crr 2) r0) = some [0, 0x13EC] ∧ reply (exec (.crr 10) r0) = some [0, 255] ∧
    reply (exec (.crr 11) r0) = some [0, 3] ∧ reply (exec (.crr 13) r0) = some [0xFFFFFFFA] := by decide

/-- Vectors C-9, C-10, C-12 and C-15. -/
theorem test_crw :
    next? (exec (.crw 0 0xFFFFFFFF) r0) rxenWord = some 1 ∧
    next? (exec (.crw 1 7) r0) cbenWord = some 3 ∧
    reply (exec (.crw 5 3) r0) = some [0xFFFFFFFA] ∧
    reply (exec (.crw 255 0) r0) = some [0xFFFFFFFA] := by decide

/-- Vectors F-1 and F-3. -/
theorem test_nextlen : reply (exec .nextlen r0) = some [0] ∧ reply (exec .nextlen oneTrain) = some [6] := by
  decide

/-- Vectors F-2 and F-4. -/
theorem test_recv :
    reply (exec .recv r0) = some [0] ∧ reply (exec .recv oneTrain) = some (6 :: A6) ∧
    next? (exec .recv oneTrain) (fun t => (t.cons.val, (lenRead t 0).val)) = some (1, 0) := by decide

/-- Vectors S-3, S-4 and S-5. -/
theorem test_edge_filters :
    next? (exec (.edge 1300) (en 1000)) (fun t => (memRead t 0 0, t.nrPulses.val, t.lastEdge)) =
      some (300, 1, 1300) ∧
    next? (exec (.edge 1050) (en 1000)) (fun t => (t.nrPulses.val, t.lastEdge)) = some (0, 1000) ∧
    next? (exec (.edge 201000) (en 1000)) (fun t => (t.nrPulses.val, t.lastEdge)) = some (0, 201000) := by
  decide

/-- Vectors S-12 and S-13. -/
theorem test_edge_gap :
    let s : State := { en 0 with nrPulses := 4 }
    next? (exec (.edge 5100) s) (fun t => (t.prod.val, t.nrPulses.val)) = some (0, 5) ∧
    next? (exec (.edge 5101) s) (fun t => (t.prod.val, t.nrPulses.val, (lenRead t 0).val)) =
      some (1, 0, 5) := by decide

/-- DS[0] after vector D-1. -/
def d1 : DescState := ⟨1, true, 20000, 20000, true, m39, 6⟩

/-- TC with DS[0] set, the decode callback registered and one CLOCK value to draw. -/
def deco (d : DescState) (now : Word) : State := { setDs 0 d r0 with cbDec := true, clockIn := [now] }

/-- Vectors D-1, D-2 and D-4. -/
theorem test_decode_statuses :
    next? (exec (.decode A6) (deco DescState.reset 20000)) (fun t => (t.evt, dsAt t 0)) =
      some ([.dec (ascii "tp") m39 .first 1 (ascii "3")], d1) ∧
    next? (exec (.decode A6) (deco d1 120000)) (fun t => (t.evt, (dsAt t 0).repeats)) =
      some ([.dec (ascii "tp") m39 .valid 102 (ascii "3")], 102) ∧
    next? (exec (.decode B6) (deco d1 120000)) State.evt =
      some [.dec (ascii "tp") m49 .invalid 2 (ascii "4")] := by decide

/-- Vectors D-5, D-9, D-11 and D-14. -/
theorem test_decode_corners :
    next? (exec (.decode A6) (deco d1 520001)) State.evt =
      some [.dec (ascii "tp") m39 .first 1 (ascii "3")] ∧
    next? (exec (.decode A6) (deco { d1 with repeats := 99, snap := m49, second := 2000 } 3000)) State.evt =
      some [.dec (ascii "tp") m49 .known 100 (ascii "3")] ∧
    next? (exec (.decode N6) (deco d1 100000)) (fun t => (t.evt, dsAt t 0)) =
      some ([], { d1 with second := 100000 }) ∧
    next? (exec (.decode []) { r0 with cbRaw := true }) State.evt = some [.raw []] := by decide

/-- A fraction in lowest terms. -/
def ratio (n : Int) (d : Nat) (h : d ≠ 0 := by decide) (h' : n.natAbs.Coprime d := by decide) : Rat :=
  { num := n, den := d, den_nz := h, reduced := h' }

/-- Vectors DV-1 to DV-8. -/
theorem test_device_ids :
    [ratio 3 1, ratio 5 2, ratio (-5) 2, ratio 24999 10000, ratio (-2) 5, ratio 2469135 2].map
        (fun x => integerText (roundAway (.rational x))) =
      [ascii "3", ascii "3", ascii "-3", ascii "2", ascii "0", ascii "1234568"] ∧
    deviceId TC 3 = ascii "kitchen" ∧ deviceId TC 4 = [] := by decide

/-- By hand from R193: an irrational between 2 and 2.5, one between 2.5 and 3, one between -3 and -2.5. -/
theorem test_device_id_irrational :
    [Config.Number.irrational 2 false, .irrational 2 true, .irrational (-3) false].map
      (fun x => integerText (roundAway x)) = [ascii "2", ascii "3", ascii "-3"] := by decide

/-- Vectors E-1, E-3, E-4 and E-5. -/
theorem test_encode_errors :
    reply (exec (.encode (ascii "tp") (ascii "x") 255) r0) = some [0xFFFFFFFF] ∧
    reply (exec (.encode (ascii "tp") m39 5) r0) = some [0xFFFFFFFE] ∧
    reply (exec (.encode (ascii "tq") mE 255) r0) = some [0xFFFFFFFE] ∧
    reply (exec (.encode (ascii "tp") mE 255) r0) = some [0xFFFFFFFD] := by decide

/-- Vector E-7, and the configuration's fault (R225). -/
theorem test_encode_builds :
    reply (exec (.encode (ascii "tp") m39 6) r0) = some (6 :: A6) ∧
    next? (exec (.encode (ascii "tp") m39 6) r0) (fun t => (dsAt t 0).rawlen) = some 6 ∧
    exec (.encode (ascii "bad") m39 255) (State.resetWith badTC) = .fault .createOverrun := by
  refine ⟨by decide, by decide, rfl⟩

/-- By hand from R226: the empty id, in a registry whose one descriptor has the empty id (log 27). -/
theorem test_encode_empty_id :
    exec (.encode [] m39 6) (State.resetWith { TC with protocols := [{ tp with id := [] }] }) =
      .next (answerError .noProto (State.resetWith { TC with protocols := [{ tp with id := [] }] })) := rfl

/-- Vectors X-5 and X-3. -/
theorem test_tx :
    next? (exec (.tx 2 [100, 200, 300]) { r0 with txLevel := .high }) (fun t => (t.tx, t.txLevel)) =
      some ([.hold .high 100, .hold .low 200, .hold .high 300, .hold .high 100, .hold .low 200,
        .hold .high 300, .level .low], .low) ∧
    next? (exec (.tx 3 []) r0) State.tx = some [.level .low] := by decide

/-- Vectors M-1, M-3, M-4 and M-6. -/
theorem test_limit :
    next? (exec (.limit [ascii "tc", ascii "zz", ascii "tp"]) r0) State.active = some [0, 2] ∧
    next? (exec (.limit [ascii "zz"]) { r0 with active := [2] }) State.active = some [0, 1, 2] ∧
    next? (exec (.limit [ascii "tq", ascii "tq"]) r0) State.active = some [1, 1] ∧
    next? (exec (.limit [ascii "TP"]) r0) State.active = some [0, 1, 2] := by decide

/-- Vectors L1-1, T-5 and T-6. -/
theorem test_pt2str :
    reply (exec (.pt2str [300, 310, 9000, 305]) r0) =
      some [0x12, 0x30303A63, 0x703B3031, 0x3030333A, 0x3030392C, 0x00004030] ∧
    trainToken [300, 450] = some (ascii "c:01;p:300,450@") ∧
    trainToken [300, 500, 400] = some (ascii "c:010;p:300,500@") := by decide

/-- Vectors T-8 and T-9. -/
theorem test_pt2str_types :
    trainToken ((List.range 16).map fun i => BitVec.ofNat 32 (1000 * (i + 1))) = some (ascii
      "c:0123456789:;<=>?;p:1000,2000,3000,4000,5000,6000,7000,8000,9000,10000,11000,12000,13000,14000,15000,16000@") ∧
    reply (exec (.pt2str ((List.range 17).map fun i => BitVec.ofNat 32 (1000 * (i + 1)))) r0) = some [0] := by
  decide

/-- Vectors T-10, T-16, T-30 and T-32. -/
theorem test_str2pt :
    reply (exec (.str2pt (ascii "c:0010;p:300,9000@") 255) r0) = some [4, 300, 300, 9000, 300] ∧
    reply (exec (.str2pt (ascii "c:02;p:300,9000@") 255) r0) = some [0xFFFFFFFC] ∧
    reply (exec (.str2pt (ascii "c:0010;p:300,9000@") 2) r0) = some [2, 300, 300] ∧
    reply (exec (.str2pt (ascii "c:0X;p:300,9000@") 1) r0) = some [1, 300] := by decide

/-- Vectors T-14, T-15, T-17 to T-22 and T-24 to T-29. -/
theorem test_str2pt_forms :
    ([ascii "p:300@", ascii "c:0;", ascii "c:0;p:300,,9000@", ascii "c:0;p:300,@", ascii "c:0;p:300",
      ascii "c:0;p:-3@", ascii "c:0;p:@", ascii "c:;p:@", ascii "c:0 ;p:300@", ascii "c:0;p:4294967296@",
      ascii "c:0;p:4294967295@", ascii "c:0;p:007@", ascii "xxc:1;p:5,6@zz", ascii "c:0;p:300@x"].map
        fun t => tokenTrain t 255) =
      [none, none, none, none, none, none, none, some [], none, none, some [4294967295], some [7], some [6],
        some [300]] := by decide

/-! ## Steps -/

/-- Each kind of input is taken; with none the block waits (R67, R330, log 8). -/
theorem test_step_inputs :
    reply (step { r0 with inputs := [.frame 0x010B0000 []] }) = some [0, 3] ∧
    reply (step { r0 with inputs := [.frame 0x03000000 []] }) = some [0xFFFFFFFB] ∧
    next? (step { en 1000 with inputs := [.edge 1300] }) (fun t => t.nrPulses.val) = some 1 ∧
    next? (step { en 1000 with inputs := [.reset] }) (fun t => (t.rxEn, t.lastEdge)) = some (false, 0) ∧
    next? (step r0) State.results = some [] := by decide

/-- A table row runs as the first step after reset (log 14). -/
theorem test_step_table_row :
    reply (step (State.reset.withFetchWord 32 0x01090000)) = some [0, 10] ∧
    next? (step (State.reset.withFetchWord 32 0x02000000)) State.rxEn = some false := by decide

/-! ## Witnesses of the statements' hypotheses -/

/-- The state whose next input is a frame. -/
def framed (s : State) (cmd : Word) (args : List Word) : State := { s with inputs := [.frame cmd args] }

theorem witness_DecodeEncodeRoundTrip :
    (Instr.decode (List.replicate 255 1)).wellFormed 2 = true ∧
    (Instr.encode [1, 2] [1, 2] 0).wellFormed 2 = true ∧ (Instr.encode [1, 2] [1, 2] 0).isCommand = true ∧
    (Instr.edge 7).wellFormed 2 = true := ⟨trainOk_replicate 255, by decide⟩

/-- A frame without texts, and for each command with texts a frame whose padding bytes are not 0. -/
theorem witness_DecodedFrameIsItsEncoding :
    (decodeFrame 30 0x31000002 [1, 300] = .ok (.tx 2 [300]) ∧ (∀ a b c, Instr.tx 2 [300] ≠ .encode a b c) ∧
      (∀ ids, Instr.tx 2 [300] ≠ .limit ids) ∧ (∀ t m, Instr.tx 2 [300] ≠ .str2pt t m)) ∧
    decodeFrame 30 0x30000000 [2, 0xAABB7074, 1, 0xFFFFFF7B, 9] = .ok (.encode [0x74, 0x70] [0x7B] 9) ∧
    decodeFrame 30 0x40000000 [2, 0, 1, 0xFFFFFF7B] = .ok (.limit [[], [0x7B]]) ∧
    decodeFrame 30 0x51000000 [1, 0xAABBCC63, 9] = .ok (.str2pt [0x63] 9) := by
  refine ⟨⟨by decide, fun _ _ _ h => ?_, fun _ h => ?_, fun _ _ h => ?_⟩, by decide⟩ <;> cases h

theorem witness_ReservedEncodingsAnswered :
    (opcOf 0x03000000).toNat ∉ [0x01, 0x02, 0x10, 0x11, 0x20, 0x30, 0x31, 0x40, 0x50, 0x51] ∧
    (opcOf 0xFF000000).toNat ∉ [0x01, 0x02, 0x10, 0x11, 0x20, 0x30, 0x31, 0x40, 0x50, 0x51] ∧
    ((opcOf 0x31010002).toNat ∉ [0x01, 0x02] ∧ selOf 0x31010002 ≠ 0) ∧
    ((opcOf 0x01020001).toNat ≠ 0x31 ∧ immOf 0x01020001 ≠ 0) ∧
    (opcOf 0x010D0000 = 0x01 ∧ immOf 0x010D0000 = 0 ∧ 12 < (selOf 0x010D0000).toNat) ∧
    (opcOf 0x02FF0000 = 0x02 ∧ immOf 0x02FF0000 = 0 ∧ [(0 : Word)].length = 1 ∧
      12 < (selOf 0x02FF0000).toNat) ∧
    (framed r0 0x03000000 []).inputs = .frame 0x03000000 [] :: [] := by decide

theorem witness_TextPackingLittleEndian :
    (packText [1, 2, 3, 4, 5])[4 / 4]? = some 0x00000005 ∧
    (4 < 5 ∧ [(0x04030201 : Word), 0xFFFFFF05][4 / 4]? = some 0xFFFFFF05) := by decide

theorem witness_StepRunsDecodedInstruction :
    ((framed r0 0x11000000 []).inputs = .frame 0x11000000 [] :: [] ∧
      decodeFrame r0.cfg.txtMax 0x11000000 [] = .ok .recv) ∧
    ((framed r0 0x11000000 [0]).inputs = .frame 0x11000000 [0] :: [] ∧
      decodeFrame r0.cfg.txtMax 0x11000000 [0] = .error .extraWord) ∧
    ({ r0 with inputs := [.edge 7] } : State).inputs = .edge 7 :: [] ∧ r0.inputs = [] := by decide

theorem witness_TableWordRunsNext : decodeTableWord 32 0x11000000 = some .recv := by decide

theorem witness_OversizedOperandsIllegal :
    (Instr.tx 1 (List.replicate 256 1)).wellFormed r0.cfg.txtMax = false ∧
    (Instr.str2pt (List.replicate 31 0x63) 0).wellFormed r0.cfg.txtMax = false :=
  ⟨trainOk_replicate 256, by decide⟩

theorem witness_OneResultPerFrame :
    (∃ s t : State, step s = .next t ∧ s.inputs = .frame 0x11000000 [] :: []) ∧
    (∃ s t : State, step s = .next t ∧ s.inputs = .edge 1300 :: []) :=
  ⟨⟨framed r0 0x11000000 [], _, rfl, rfl⟩, ⟨{ en 1000 with inputs := [.edge 1300] }, _, rfl, rfl⟩⟩

theorem witness_OutputsAppendOnly :
    ∃ s t : State, step s = .next t ∧ ∀ rest, s.inputs ≠ .reset :: rest :=
  ⟨framed r0 0x31000001 [1, 300], _, rfl, fun _ h => by cases h⟩

theorem witness_ResetEventRestarts :
    ∃ (s : State) (rest : List Input), s.inputs = .reset :: rest :=
  ⟨{ en 1000 with inputs := [.reset] }, [], rfl⟩

/-- TC's creates fit; a create that overruns makes a step fault. -/
theorem witness_StepsNeverHang :
    CreatesFit TC ∧ step (framed (State.resetWith badTC) 0x30000000
      (encodeTXT (ascii "bad") ++ encodeTXT m39 ++ [255])) = .fault .createOverrun := by
  refine ⟨?_, rfl⟩
  have table : ∀ (r : Train) (d : Config.Doc) (out : Train),
      applyFn (.table [(1, some r)] none) d = some out → out = r := by
    intro r d out h
    by_cases hd : 1 = d
    · subst hd
      exact (Option.some.inj h).symm
    · simp [applyFn, hd] at h
  intro P hP f hf d r hr
  simp only [TC, List.mem_cons, List.not_mem_nil, or_false] at hP
  rcases hP with rfl | rfl | rfl <;> cases hf <;> cases table _ _ _ hr <;> decide

theorem witness_ReservedRegisterRefused :
    13 ≤ (13 : BitVec 8).toNat ∧ 13 ≤ (255 : BitVec 8).toNat := by decide

theorem witness_CursorsHaveOneOwner :
    (5 ≤ (5 : BitVec 8).toNat ∧ (12 : BitVec 8).toNat ≤ 12) ∧
    (∃ s t : State, s.inputs = .frame 0x11000000 [] :: [] ∧ step s = .next t ∧ t.cons ≠ s.cons) ∧
    (∃ s t : State, s.inputs = .edge 5101 :: [] ∧ step s = .next t ∧ t.prod ≠ s.prod) := by
  refine ⟨by decide, ⟨framed oneTrain 0x11000000 [], _, rfl, rfl, by decide⟩, ?_⟩
  exact ⟨{ en 0 with nrPulses := 4, inputs := [.edge 5101] }, _, rfl, rfl, by decide⟩

theorem witness_CrwRxenChangesOnlyEn : r0.rxEn = false := by decide

theorem witness_CrwWritesConfiguration :
    (∃ t, exec (.crw 0 3) r0 = .next t) ∧ (∃ t, exec (.crw 1 7) r0 = .next t) ∧
    (2 ≤ (2 : BitVec 8).toNat ∧ (4 : BitVec 8).toNat ≤ 4 ∧ ∃ t, exec (.crw 4 9) r0 = .next t) :=
  ⟨⟨_, rfl⟩, ⟨_, rfl⟩, by decide, by decide, ⟨_, rfl⟩⟩

theorem witness_EdgeGatedChangesNothing :
    r0.rxEn = false ∧ (full.rxEn = true ∧ (lenRead full full.prod).val ≠ 0) := by decide

/-- Durations 100 and 100000, the filters' own bounds. -/
theorem witness_EdgeRejectedByFilters :
    TC.Admissible ∧ (en 1000).rxEn = true ∧ (lenRead (en 1000) (en 1000).prod).val = 0 ∧
    1100 - (en 1000).lastEdge ≤ TC.minPulse ∧ TC.maxPulse ≤ 101000 - (en 1000).lastEdge := by decide

/-- Durations 5100 and 5101, at the gap threshold, with 3 and with 4 pulses before. -/
theorem witness_EdgeStoresPulse :
    (en 0).rxEn = true ∧ (lenRead (en 0) (en 0).prod).val = 0 ∧
    (Stored (en 0) 5100 ∧ (5100 : Word) ≤ (en 0).minGapLen) ∧
    (Stored (en 0) 5101 ∧ (en 0).minGapLen < 5101) ∧
    ((en 0).minRawLen.toNat ≤ (4 + 1) % 255 ∧ (4 + 1) % 255 ≤ (en 0).maxRawLen.toNat) ∧
    ¬ ((en 0).minRawLen.toNat ≤ (3 + 1) % 255 ∧ (3 + 1) % 255 ≤ (en 0).maxRawLen.toNat) := by decide

/-- The edges of a train of four pulses of 300 and a gap of 6000 (S-8). -/
def s8 : State := { en 1000 with inputs := (edgeTimes 1000 [300, 300, 300, 300, 6000]).map .edge }

/-- Four pulses close, three do not: the limits of the reset configuration (S-7, S-8). -/
theorem witness_PulseTrainCapture :
    (s8.rxEn = true ∧ (lenRead s8 s8.prod).val = 0 ∧ s8.nrPulses.val = 0) ∧
    (∀ d ∈ [(300 : Word), 300, 300, 300], Stored s8 d ∧ d ≤ s8.minGapLen) ∧
    (Stored s8 6000 ∧ s8.minGapLen < 6000) ∧ [(300 : Word), 300, 300, 300].length + 1 < 255 ∧
    s8.inputs = (edgeTimes s8.lastEdge ([300, 300, 300, 300] ++ [6000])).map .edge ++ [] ∧
    (s8.minRawLen.toNat ≤ 4 + 1 ∧ 4 + 1 ≤ s8.maxRawLen.toNat) ∧
    ¬ (s8.minRawLen.toNat ≤ 3 + 1 ∧ 3 + 1 ≤ s8.maxRawLen.toNat) ∧ s8.minRawLen = 5 ∧
    s8.maxRawLen = 255 := by
  refine ⟨by decide, ?_, by decide, by decide, rfl, by decide, by decide, rfl, rfl⟩
  intro d hd
  have h : d = 300 := by simpa using hd
  rw [h]
  decide

/-- 259 pulses and a gap: the count wraps to 5 (S-11). -/
theorem witness_OverlongTrainKeepsSuffix :
    let s := en 1000
    s.rxEn = true ∧ (lenRead s s.prod).val = 0 ∧ s.nrPulses.val = 0 ∧
    (∀ d ∈ List.replicate 259 (300 : Word), Stored s d ∧ d ≤ s.minGapLen) ∧ Stored s 6000 ∧
    s.minGapLen < 6000 ∧ s.minRawLen.toNat ≤ (259 + 1) % 255 ∧ (259 + 1) % 255 ≤ s.maxRawLen.toNat := by
  have h : Stored (en 1000) 300 ∧ (300 : Word) ≤ (en 1000).minGapLen := by decide
  refine ⟨by decide, by decide, by decide, fun d hd => ?_, by decide⟩
  rw [List.eq_of_mem_replicate hd]
  exact h

theorem witness_ParkedEmptyKept :
    ParkedEmpty full ∧ (lenRead full full.prod).val ≠ 0 ∧
    ∃ t, step (framed full 0x11000000 []) = .next t := ⟨by decide, by decide, _, rfl⟩

theorem witness_RingOrderKept :
    RingOrdered full ∧ 1 ≤ full.minRawLen.toNat ∧ ∃ t, step (framed full 0x11000000 []) = .next t :=
  ⟨⟨10, by decide⟩, by decide, _, rfl⟩

/-- Two states that differ in a word no train covers. -/
theorem witness_StalePulsesNeverShown :
    SamePublished oneTrain (memWrite 0 6 7 oneTrain) ∧ memRead oneTrain 0 6 ≠ 7 ∧
    (∃ s', step (framed oneTrain 0x11000000 []) = .next s') ∧
    (∃ f, step (framed (State.resetWith badTC) 0x30000000
      (encodeTXT (ascii "bad") ++ encodeTXT m39 ++ [255])) = .fault f) := by
  refine ⟨⟨rfl, by decide, ?_, by decide⟩, by decide, ⟨_, rfl⟩, ⟨_, rfl⟩⟩
  intro k i hi
  rw [memRead_memWrite, if_neg]
  rintro ⟨rfl, rfl⟩
  revert hi
  decide

theorem witness_NextlenPeeks : (lenRead oneTrain oneTrain.cons).val ≠ 0 := by decide

theorem witness_RecvDrainsSlot :
    (lenRead r0 r0.cons).val = 0 ∧ (lenRead full full.cons).val ≠ 0 := by decide

/-- The empty ring, one train, and the full ring. -/
theorem witness_RingIsQueue :
    RingRun r0 0 ∧ RingRun oneTrain 1 ∧ RingRun full 10 ∧ 1 ≤ full.minRawLen.toNat := by decide

theorem witness_RecvSubstepsEquivalent : (lenRead full full.cons).val ≠ 0 := by decide

theorem witness_RecvEdgesMoveAfterCommand : (lenRead full full.cons).val ≠ 0 := by decide

/-- An ACTIVE of entries without validate or parse, and one entry whose validate fails. -/
theorem witness_DecodeSkipsEntries :
    (∀ j ∈ [1, 2], ∀ P, TC.protocols[j]? = some P → P.validate = none ∨ P.parse = none) ∧
    (∃ P v p, ({ r0 with active := [0] } : State).active = [0] ∧ TC.protocols[0]? = some P ∧
      P.validate = some v ∧ P.parse = some p ∧ applyFn v [] = false) := by
  refine ⟨fun j hj P hP => ?_, tp, _, _, rfl, rfl, rfl, rfl, by decide⟩
  rcases List.mem_cons.mp hj with rfl | hj
  · cases hP
    exact .inr rfl
  · rcases List.mem_singleton.mp hj with rfl
    cases hP
    exact .inl rfl

theorem witness_DecodeBurstTiming :
    ∃ (s : State) (P : Descriptor) (v : Fn Train Bool) (p : Fn Train (Option Config.Doc)),
      N6.length ≤ 255 ∧ s.active = [0] ∧ s.cfg.protocols[0]? = some P ∧ P.validate = some v ∧
      P.parse = some p ∧ applyFn v N6 = true ∧ applyFn p N6 = none ∧ 0 < s.ds.length :=
  ⟨{ r0 with active := [0] }, tp, _, _, by decide, rfl, rfl, rfl, rfl, by decide, by decide, by decide⟩

/-- One entry whose message is taken, with counts at each clause's edge (D-1, D-2, D-4, D-8, D-9). -/
theorem witness_DecodeRepeatMachine :
    (∃ (s : State) (P : Descriptor) (v : Fn Train Bool) (p : Fn Train (Option Config.Doc)),
      s.active = [0] ∧ s.cfg.protocols[0]? = some P ∧ P.validate = some v ∧ P.parse = some p ∧
      applyFn v A6 = true ∧ applyFn p A6 = some 1 ∧ 0 < s.ds.length) ∧
    (let r := fun (d : DescState) (now : Word) => (burstTiming now d).repeats + 1
     (r DescState.reset 20000).toNat ≤ 1 ∧
     (1 < (r d1 120000).toNat ∧ (r d1 120000).toNat < 100 ∧ d1.snapV = true) ∧
     (r { d1 with repeats := 98 } 20001).toNat = 99 ∧ (r { d1 with repeats := 99 } 20001).toNat = 100) ∧
    applyFn TC.codec.encode 1 = d1.snap ∧ applyFn TC.codec.encode 2 ≠ d1.snap :=
  ⟨⟨{ r0 with active := [0] }, tp, _, _, rfl, rfl, rfl, rfl, by decide, by decide, by decide⟩, by decide⟩

theorem witness_DecodeRecordsInOrder : A6.length ≤ 255 := by decide

/-- One index listed twice (D-15). -/
theorem witness_DecodeComposes :
    A6.length ≤ 255 ∧ ({ r0 with active := [0, 0] } : State).active = [0] ++ [0] := by decide

theorem witness_DecodeFrame : A6.length ≤ 255 ∧ 0 ∉ ({ r0 with active := [1] } : State).active := by decide

/-- The other premise of R195: a burst reset, one microsecond beyond the window. -/
theorem witness_BurstStatuses_reset :
    d1.repeats ≠ 0 ∧ d1.firstV = true ∧ 500000 < ((520001 : Word) - d1.second).toNat := by decide

/-- The three messages of L1-2, with gaps of exactly 500000, and one more than that. -/
theorem witness_BurstStatuses :
    ∃ (s : State) (P : Descriptor) (v : Fn Train Bool) (p : Fn Train (Option Config.Doc)) (c1 c2 c3 : Word),
      s.active = [0] ∧ s.cfg.protocols[0]? = some P ∧ P.validate = some v ∧ P.parse = some p ∧
      0 < s.ds.length ∧ s.cbDec = true ∧ s.cbRaw = false ∧ s.clockIn = c1 :: c2 :: c3 :: [] ∧
      A6.length ≤ 255 ∧ B6.length ≤ 255 ∧ applyFn v A6 = true ∧ applyFn v B6 = true ∧
      applyFn p A6 = some 1 ∧ applyFn p B6 = some 2 ∧ (dsAt s 0).repeats = 0 ∧
      (c2 - c1).toNat ≤ 500000 ∧ (c3 - c2).toNat ≤ 500000 ∧ 500000 < ((c2 + 1) - c1).toNat ∧
      applyFn s.cfg.codec.encode 2 ≠ applyFn s.cfg.codec.encode 1 :=
  ⟨{ r0 with active := [0], cbDec := true, clockIn := [20000, 520000, 1020000] }, tp, _, _, 20000, 520000,
    1020000, rfl, rfl, rfl, rfl, by decide, rfl, rfl, rfl, by decide⟩

/-- Alternating texts: 99 messages, no two neighbours equal. -/
theorem witness_InvalidRunReachesKnown :
    ({ d1 with repeats := 0xFFFFFFFF } : DescState).repeats = 0xFFFFFFFF ∧
    ∃ msgs : List Text, DescState.reset.repeats = 0 ∧ msgs.length = 99 ∧ msgs.IsChain (· ≠ ·) := by
  have step : ∀ n, ((List.range n).map fun i => [BitVec.ofNat 8 i]).IsChain (· ≠ · : Text → Text → Prop) ∨
      256 < n := by
    intro n
    by_cases h : n ≤ 256
    · refine .inl ((List.isChain_map _).mpr (List.Pairwise.isChain ?_))
      refine List.Pairwise.imp_of_mem ?_ (List.pairwise_lt_range (n := n))
      intro a b ha hb hab e
      have h1 := congrArg BitVec.toNat (List.cons.inj e).1
      simp only [BitVec.toNat_ofNat] at h1
      have := List.mem_range.mp ha
      have := List.mem_range.mp hb
      omega
    · exact .inr (by omega)
  exact ⟨rfl, _, rfl, by simp, (step 99).resolve_right (by decide)⟩

/-- A tie, an irrational, a number, a string and neither. -/
theorem witness_DeviceIdText :
    (Denotes (.rational (ratio 5 2)) (5 / 2) ∧
      |(5 / 2 : ℝ) - roundAway (.rational (ratio 5 2))| = 1 / 2) ∧
    (∃ r, Denotes (.irrational 2 true) r) ∧ (decimalText 0).head? = some 48 ∧
    applyFn TC.codec.num (1, TC.devidKey) = some (.rational 3) ∧ applyFn TC.codec.num (3, TC.devidKey) = none ∧
    applyFn TC.codec.str (3, TC.devidKey) = some (ascii "kitchen") ∧
    applyFn TC.codec.num (4, TC.devidKey) = none ∧ applyFn TC.codec.str (4, TC.devidKey) = none := by
  refine ⟨⟨?_, ?_⟩, every_number_denotes _, by decide, by decide, by decide, by decide, by decide, by decide⟩
  · have h : ratio 5 2 = 5 / 2 := by
      rw [Rat.div_def']
      decide
    rw [Denotes, h]
    norm_num
  · rw [show roundAway (.rational (ratio 5 2)) = 3 by decide]
    norm_num

/-- A malformed text; no descriptor has the id; one has it but a larger maxrawlen; one has it but no create
(E-1 to E-4); and the empty id. -/
theorem witness_EncodeRefusals :
    ((ascii "tp").length ≤ TC.txtMax.toNat ∧ (ascii "x").length ≤ TC.txtMax.toNat ∧
      applyFn TC.codec.valid (ascii "x") = false) ∧
    applyFn TC.codec.valid mE = true ∧ mE.length ≤ TC.txtMax.toNat ∧
    (∀ P ∈ TC.protocols, P.id = ascii "zz" → P.maxrawlen ≤ 255 → P.create = none) ∧ TC.Admissible ∧
    (tp ∈ TC.protocols ∧ tp.id = ascii "tp" ∧ 5 < tp.maxrawlen) ∧
    (tq ∈ TC.protocols ∧ tq.id = ascii "tq" ∧ tq.create = none) ∧
    ([] : Text).length ≤ TC.txtMax.toNat := by
  refine ⟨by decide, by decide, by decide, fun P hP hid => absurd hid ?_, by decide, by decide, by decide, by decide⟩
  revert P
  decide

/-- A train of exactly maxrawlen pulses, a failed create, and one pulse too many (E-7, E-5, R225). -/
theorem witness_EncodeBuildsTrain :
    ((ascii "tp").length ≤ TC.txtMax.toNat ∧ m39.length ≤ TC.txtMax.toNat ∧
      applyFn TC.codec.valid m39 = true ∧ ascii "tp" ≠ [] ∧ TC.protocols[0]? = some tp ∧
      tp.maxrawlen ≤ 6) ∧
    (∃ f, tp.create = some f ∧ applyFn f 1 = some A6 ∧ A6.length ≤ tp.maxrawlen.toNat ∧
      applyFn f 0 = none) ∧
    (∃ f, badTC.protocols[0]? = some bad ∧ bad.create = some f ∧ bad.maxrawlen ≤ 255 ∧
      applyFn f 1 = some [500, 1000, 500, 1000] ∧ bad.maxrawlen.toNat < 4) :=
  ⟨by decide, ⟨_, rfl, by decide⟩, ⟨_, by decide, rfl, by decide⟩⟩

/-- A descriptor found whose create succeeds or fails, none found, a malformed message, and a text out of
bounds (E-7, E-5, E-3, E-1). -/
theorem witness_EncodeFrame :
    (∃ t e, exec (.encode (ascii "tp") m39 6) r0 = .next t ∧
      (Instr.encode (ascii "tp") m39 6).wellFormed TC.txtMax = true ∧
      applyFn TC.codec.valid m39 = true ∧ findEncoder (ascii "tp") 6 0 TC.protocols = some e ∧
      applyFn e.create (applyFn TC.codec.parse m39) = some A6) ∧
    (∃ t e, exec (.encode (ascii "tp") mE 6) r0 = .next t ∧ applyFn TC.codec.valid mE = true ∧
      findEncoder (ascii "tp") 6 0 TC.protocols = some e ∧
      applyFn e.create (applyFn TC.codec.parse mE) = none) ∧
    (∃ t, exec (.encode (ascii "tp") m39 5) r0 = .next t ∧
      findEncoder (ascii "tp") 5 0 TC.protocols = none) ∧
    (∃ t, exec (.encode (ascii "tp") (ascii "x") 6) r0 = .next t ∧
      applyFn TC.codec.valid (ascii "x") = false) ∧
    (∃ t, exec (.encode (List.replicate 31 0x63) m39 6) r0 = .next t ∧
      (Instr.encode (List.replicate 31 0x63) m39 6).wellFormed TC.txtMax = false) :=
  ⟨⟨_, _, rfl, by decide, by decide, rfl, by decide⟩, ⟨_, _, rfl, by decide, rfl, by decide⟩,
    ⟨_, rfl, by decide⟩, ⟨_, rfl, by decide⟩, ⟨_, rfl, by decide⟩⟩

theorem witness_TxWaveformShape :
    [(1 : Word), 2, 3].length ≤ 255 ∧ 5 < (2 : BitVec 16).toNat * 3 ∧
    [(1 : Word), 2, 3][5 % 3]? = some 3 := by decide

theorem witness_LimitReplacesActive :
    textsOk TC.txtMax [ascii "tc", ascii "zz", ascii "tp"] = true ∧ textsOk TC.txtMax [] = true := by decide

theorem witness_RegistryKept :
    RegistryOk r0 ∧ ∃ t, step (framed r0 0x40000000 [0]) = .next t := ⟨by decide, _, rfl⟩

theorem witness_Pt2strCodesNameTypes :
    codePulses [] [] [300, 310, 9000, 305] = some ([300, 9000], [0x30, 0x30, 0x31, 0x30]) ∧
    ([0x30, 0x30, 0x31, 0x30] : Text)[2]? = some 0x31 ∧
    (∀ j < 2, ([0x30, 0x30, 0x31, 0x30] : Text)[j]? ≠ some 0x31) := by decide

/-- Sixteen types and a seventeenth pulse (T-9), and a train with types enough (T-8). -/
theorem witness_Pt2strTooManyTypes :
    let q : Train := (List.range 16).map fun i => BitVec.ofNat 32 (1000 * (i + 1))
    codePulses [] [] q = some (q, ascii "0123456789:;<=>?") ∧ q.length = 16 ∧
    (∀ t ∈ q, ¬ ((((17000 : Word).toNat / 50 : Nat) : Int) - ((t.toNat / 50 : Nat) : Int)).natAbs ≤ 2) ∧
    (q ++ [17000]).length ≤ 255 := by
  refine ⟨by decide, by simp, fun t ht => ?_, by simp⟩
  obtain ⟨i, hi, rfl⟩ := List.mem_map.mp ht
  have hi := List.mem_range.mp hi
  interval_cases i <;> decide

/-- Eleven types (T-12). -/
theorem witness_TextCodecRoundTrip :
    let q : Train := (List.range 11).map fun i => BitVec.ofNat 32 (1000 * (i + 1))
    codePulses [] [] q = some (q, ascii "0123456789:") ∧ q.length ≤ 11 ∧ q.length ≤ 255 := by decide

/-- The greatest index of a table of 16, and the empty table. -/
theorem witness_Str2ptReadsTokens :
    (∀ ch : Byte, ch ∈ ascii "0?" → 48 ≤ ch.toNat ∧ ch.toNat - 48 < 16 ∧ ch ≠ 0x3B) ∧
    (ascii "c:01;p:300,9000@").length ≤ TC.txtMax.toNat ∧ (ascii "c:;p:@").length ≤ TC.txtMax.toNat ∧
    [0x63, 0x3A] ++ ascii "01" ++ [0x3B, 0x70, 0x3A] ++
      (([300, 9000].map fun t : Word => decimalText t.toNat).intersperse [0x2C]).flatten ++ [0x40] =
        ascii "c:01;p:300,9000@" := by decide

/-- No marker; a malformed list behind a first `p:`; a proper one; and an index at the table's length, one
below '0', after a code that names an entry. -/
theorem witness_Str2ptFormatErrors :
    (¬ [0x63, 0x3A] <:+: ascii "p:300@" ∧ ¬ [0x70, 0x3A] <:+: ascii "c:0;") ∧
    (ascii "c:0;p:3,@" = ascii "c:0;" ++ [0x70, 0x3A] ++ ascii "3,@" ∧
      ¬ [0x70, 0x3A] <:+: ascii "c:0;" ++ [0x70] ∧ typeTable (ascii "3,@") = none) ∧
    (typeTable (ascii "3@p:x") = some [3] ∧ [0x63, 0x3A] <:+: ascii "c:0;p:3@p:x" ∧
      (ascii "c:0;p:3@p:x").length ≤ TC.txtMax.toNat) ∧
    (ascii "c:01;p:3@" = ascii "" ++ [0x63, 0x3A] ++ ascii "0" ++ 0x31 :: ascii ";p:3@" ∧
      ascii "c:01;p:3@" = ascii "c:01;" ++ [0x70, 0x3A] ++ ascii "3@" ∧
      ¬ [0x63, 0x3A] <:+: ascii "" ++ [0x63] ∧ ¬ [0x70, 0x3A] <:+: ascii "c:01;" ++ [0x70] ∧
      typeTable (ascii "3@") = some [3] ∧ (ascii "0").length < (2 : Word).toNat ∧ (0x31 : Byte) ≠ 0x3B ∧
      (0x31 : Byte) ≠ 0x40 ∧ 48 + [(3 : Word)].length ≤ (0x31 : Byte).toNat ∧
      (0x2F : Byte).toNat < 48 ∧
      ∀ g : Byte, g ∈ ascii "0" → 48 ≤ g.toNat ∧ g.toNat - 48 < 1 ∧ g ≠ 0x3B ∧ g ≠ 0x40) := by decide

/-- A list of two numbers, the greatest number that fits and the least that does not; the bytes beside the
digits, and '@', where a number must start and after one; a list without '@'; an index at the table's length,
and one below '0'. -/
theorem witness_TokenGrammar :
    (let value := fun (n : Text) => n.foldl (fun v ch => 10 * v + (ch.toNat - 48)) 0
     (∀ n ∈ [ascii "007", ascii "4294967295", ascii "4294967296"], n ≠ [] ∧ ∀ ch ∈ n,
        48 ≤ ch.toNat ∧ ch.toNat ≤ 57) ∧
     value (ascii "4294967295") < 2 ^ 32 ∧ ¬ value (ascii "4294967296") < 2 ^ 32) ∧
    (∀ ch : Byte, ch ∈ [(0x2F : Byte), 0x3A, 0x2C] → ¬ (48 ≤ ch.toNat ∧ ch.toNat ≤ 57) ∧ ch ≠ 0x40) ∧
    (¬ (48 ≤ (0x40 : Byte).toNat ∧ (0x40 : Byte).toNat ≤ 57) ∧ [ascii "7"] ≠ [] ∧
      ([ascii "7"].map fun n => n ++ [0x2C]).flatten ++ 0x40 :: [] = ascii "7,@") ∧
    ((0x3A : Byte) ≠ 0x2C ∧ ([ascii "7"].map fun n => n ++ [0x2C]).flatten ++ ascii "8" ++ 0x3A :: [] =
      ascii "7,8:") ∧
    0x40 ∉ ascii "7,8" ∧
    (∀ g : Byte, g ∈ ascii "01" → 48 ≤ g.toNat ∧ g.toNat - 48 < 2 ∧ g ≠ 0x3B ∧ g ≠ 0x40) ∧
    (ascii "01").length < 3 ∧ (0x32 : Byte) ≠ 0x3B ∧ (0x32 : Byte) ≠ 0x40 ∧
    (48 + 2 ≤ (0x32 : Byte).toNat ∧ (0x2F : Byte).toNat < 48) := by decide

theorem witness_ReaderAndCrwFrames :
    (∃ n, Instr.crr 255 = .crr n) ∧ (0 : BitVec 8).toNat ≠ 1 ∧ (1 : BitVec 8).toNat ≠ 0 := by
  exact ⟨⟨_, rfl⟩, by decide, by decide⟩

/-- A change of each owned part: CRW, LIMIT, DECODE, TX, an edge (a pulse word; a length that is not 0) and
RECV (a length 0). -/
theorem witness_StateHasOwners :
    (∃ t, step (framed r0 0x02000000 [1]) = .next t ∧ t.rxEn ≠ r0.rxEn) ∧
    (∃ t, step (framed r0 0x40000000 [1, 2, 0x7074]) = .next t ∧ t.active ≠ r0.active) ∧
    (∃ t, step (framed (deco DescState.reset 20000) 0x20000000 (6 :: A6)) = .next t ∧ t.evt ≠ [] ∧
      t.ds ≠ r0.ds) ∧
    (∃ t, step (framed r0 0x31000001 [1, 300]) = .next t ∧ t.tx ≠ r0.tx) ∧
    (∃ t, step ({ en 1000 with inputs := [.edge 1300] }) = .next t ∧ t.lastEdge ≠ 1000 ∧
      memRead t 0 0 ≠ memRead (en 1000) 0 0) ∧
    (∃ t, step ({ en 0 with nrPulses := 4, inputs := [.edge 5101] }) = .next t ∧
      lenRead t 0 ≠ lenRead (en 0) 0 ∧ (lenRead t 0).val ≠ 0) ∧
    (∃ t, step (framed oneTrain 0x11000000 []) = .next t ∧ lenRead t 0 ≠ lenRead oneTrain 0 ∧
      (lenRead t 0).val = 0) := by
  refine ⟨⟨_, rfl, by decide⟩, ⟨_, rfl, by decide⟩, ⟨_, rfl, by decide, by decide⟩, ⟨_, rfl, by decide⟩,
    ⟨_, rfl, by decide, by decide⟩, ⟨_, rfl, by decide, by decide⟩, ⟨_, rfl, by decide, by decide⟩⟩

end Sys2Proof.Tests
end

section
/-! PROOFS. The statements of 10_state.md. First the step by its next input, and the
inversion of a step that answers; then the state at reset and what every step keeps. -/

namespace Sys2Proof.Machine

open Sys2Proof.Config (nslots cap Instantiation)

/-! ## A step that answers -/

theorem step_idle {s : State} (h : s.inputs = []) : step s = .next s := by
  simp [step, takeInput, h]

theorem step_command {s : State} {cmd : Word} {args : List Word} {rest : List Input} {i : Instr}
    (h : s.inputs = .frame cmd args :: rest) (hd : decodeFrame s.cfg.txtMax cmd args = .ok i) :
    step s = exec i { s with inputs := rest } := by
  simp [step, takeInput, h, hd]

theorem step_illegal {s : State} {cmd : Word} {args : List Word} {rest : List Input} {e : Reject}
    (h : s.inputs = .frame cmd args :: rest) (hd : decodeFrame s.cfg.txtMax cmd args = .error e) :
    step s = .next (answerError .illegal { s with inputs := rest }) := by
  simp [step, takeInput, h, hd, illegalFrame]

theorem step_edge {s : State} {now : Word} {rest : List Input} (h : s.inputs = .edge now :: rest) :
    step s = .next (edgeStep now { s with inputs := rest }) := by
  simp [step, takeInput, h, exec, execEdge]

theorem step_reset {s : State} {rest : List Input} (h : s.inputs = .reset :: rest) :
    step s = .next (resetEvent { s with inputs := rest }) := by
  simp [step, takeInput, h]

/-- The inversion of a step that answers `t`: idle, a command, a refused frame, an edge or a reset. -/
theorem step_next_cases {s t : State} (h : step s = .next t) :
    (s.inputs = [] ∧ t = s) ∨
    (∃ cmd args rest i, s.inputs = .frame cmd args :: rest ∧ decodeFrame s.cfg.txtMax cmd args = .ok i ∧
      i.isCommand = true ∧ exec i { s with inputs := rest } = .next t) ∨
    (∃ cmd args rest, s.inputs = .frame cmd args :: rest ∧
      t = answerError .illegal { s with inputs := rest }) ∨
    (∃ now rest, s.inputs = .edge now :: rest ∧ t = edgeStep now { s with inputs := rest }) ∨
    (∃ rest, s.inputs = .reset :: rest ∧ t = resetEvent { s with inputs := rest }) := by
  rcases step_cases s with ⟨hi, e⟩ | ⟨cmd, args, rest, i, hi, hd, hc, e⟩ | ⟨cmd, args, rest, _, hi, _, e⟩ |
    ⟨now, rest, hi, e⟩ | ⟨rest, hi, e⟩
  · exact .inl ⟨hi, (Host.Outcome.next.inj (e.symm.trans h)).symm⟩
  · exact .inr (.inl ⟨cmd, args, rest, i, hi, hd, hc, e.symm.trans h⟩)
  · exact .inr (.inr (.inl ⟨cmd, args, rest, hi, (Host.Outcome.next.inj (e.symm.trans h)).symm⟩))
  · exact .inr (.inr (.inr (.inl ⟨now, rest, hi, (Host.Outcome.next.inj (e.symm.trans h)).symm⟩)))
  · exact .inr (.inr (.inr (.inr ⟨rest, hi, (Host.Outcome.next.inj (e.symm.trans h)).symm⟩)))

/-! ## The ring's part of the state -/

/-- The two states agree on RING, PROD, CONS and NRPULSES. -/
def SameRing (s t : State) : Prop :=
  t.ring = s.ring ∧ t.prod = s.prod ∧ t.cons = s.cons ∧ t.nrPulses = s.nrPulses

theorem lenRead_of_ring {s t : State} (h : t.ring = s.ring) (k : Fin nslots) : lenRead t k = lenRead s k := by
  unfold lenRead slotAt
  rw [h]

theorem memRead_of_ring {s t : State} (h : t.ring = s.ring) (k : Fin nslots) (i : Nat) :
    memRead t k i = memRead s k i := by
  unfold memRead slotAt
  rw [h]

@[simp] theorem recvStep_prod (s : State) : (recvStep s).prod = s.prod := by
  rcases recvStep_cases s with ⟨_, e⟩ | ⟨_, e⟩ <;> rw [e] <;> rfl

@[simp] theorem recvStep_nrPulses (s : State) : (recvStep s).nrPulses = s.nrPulses := by
  rcases recvStep_cases s with ⟨_, e⟩ | ⟨_, e⟩ <;> rw [e] <;> rfl

/-- A command drains the ring as RECV, or leaves it as it is (R69). -/
theorem exec_ring_cases {i : Instr} {s t : State} (hc : i.isCommand = true) (h : exec i s = .next t) :
    (i = .recv ∧ t = recvStep s) ∨ (i ≠ .recv ∧ SameRing s t) := by
  by_cases hi : i = .recv
  · subst hi
    exact .inl ⟨rfl, (Host.Outcome.next.inj h).symm⟩
  · have keeps := exec_keeps i s t hc h
    obtain ⟨hring, hcons⟩ := keeps.ring hi
    obtain ⟨hprod, hnr, _⟩ := keeps.sampler
    exact .inr ⟨hi, hring, hprod, hcons, hnr⟩

/-! ## The state at reset (R331) -/

@[simp] theorem lenRead_resetWith (c : Instantiation) (k : Fin nslots) :
    (lenRead (State.resetWith c) k).val = 0 := by
  simp [lenRead, slotAt, State.resetWith, Vector.get_eq_getElem, Slot.reset]

theorem parkedEmpty_resetWith (c : Instantiation) : ParkedEmpty (State.resetWith c) := fun _ => rfl

theorem ringRun_resetWith (c : Instantiation) : RingRun (State.resetWith c) 0 :=
  ⟨Nat.zero_le _, (slotFrom_zero _).symm, fun i _ => by simp⟩

theorem registryOk_resetWith (c : Instantiation) : RegistryOk (State.resetWith c) :=
  ⟨List.length_replicate, fun _ hj => List.mem_range.mp hj, fun h => List.range_eq_nil.mp h⟩

/-- Settles O29: each invariant holds at reset whatever the instantiation, the opaque one included. -/
theorem invariantsAtReset : Obligations.InvariantsAtReset :=
  ⟨fun c => ⟨registryOk_resetWith c, parkedEmpty_resetWith c, ringRun_resetWith c⟩,
    registryOk_resetWith _, parkedEmpty_resetWith _, 0, ringRun_resetWith _⟩

/-! ## The order of the ring (R44) -/

theorem RingRun.of_sameRing {s t : State} {n : Nat} (h : RingRun s n) (hst : SameRing s t) : RingRun t n := by
  obtain ⟨hring, hprod, hcons, _⟩ := hst
  obtain ⟨hn, hp, hrun⟩ := h
  refine ⟨hn, by rw [hprod, hcons, hp], fun i hi => ?_⟩
  rw [lenRead_of_ring hring, hcons]
  exact hrun i hi

/-- The slot at CONS is empty exactly when the run is. -/
theorem RingRun.cons_ne_zero_iff {s : State} {n : Nat} (h : RingRun s n) :
    (lenRead s s.cons).val ≠ 0 ↔ 0 < n := by
  obtain ⟨_, _, hrun⟩ := h
  have first := hrun 0 (by decide)
  rwa [slotFrom_zero] at first

/-- While the slot at PROD is empty the run does not fill the ring. -/
theorem RingRun.lt_of_prod_empty {s : State} {n : Nat} (h : RingRun s n)
    (h0 : (lenRead s s.prod).val = 0) : n < 10 := by
  have ⟨hn, hp, _⟩ := h
  refine Nat.lt_of_le_of_ne hn ?_
  rintro rfl
  rw [hp, slotFrom_nslots] at h0
  exact h.cons_ne_zero_iff.mpr (by decide) h0

/-- RECV takes the first slot off the run (R161). -/
theorem RingRun.after_recv {s : State} {n : Nat} (h : RingRun s n) : RingRun (recvStep s) (n - 1) := by
  rcases recvStep_cases s with ⟨h0, e⟩ | ⟨h0, e⟩
  · have hn : n = 0 := Nat.eq_zero_of_not_pos fun hpos => h.cons_ne_zero_iff.mpr hpos h0
    subst hn
    rw [e]
    exact h
  · have hpos := h.cons_ne_zero_iff.mp h0
    obtain ⟨hn, hp, hrun⟩ := h
    have hn : n ≤ 10 := hn
    have hcons : (recvStep s).cons = nextSlot s.cons := by rw [e]; rfl
    refine ⟨(Nat.sub_le n 1).trans hn, ?_, fun i hi => ?_⟩
    · rw [recvStep_prod, hcons, slotFrom_nextSlot, Nat.sub_add_cancel hpos, hp]
    · have hi : i < 10 := hi
      rw [hcons, slotFrom_nextSlot, lenRead_recvStep]
      by_cases hlast : i + 1 = 10
      · rw [hlast, slotFrom_nslots, if_pos rfl]
        exact ⟨fun hne => absurd rfl hne, fun hlt => by omega⟩
      · have hne : slotFrom s.cons (i + 1) ≠ s.cons := fun hk => by
          have := slotFrom_injective s.cons (i + 1) 0 (by omega) (by decide) (by rwa [slotFrom_zero])
          omega
        rw [if_neg hne, hrun (i + 1) (by show i + 1 < 10; omega)]
        omega

/-- Closing a train of a length that is not 0 in an empty slot puts that slot at the end of the run (R144). -/
theorem RingRun.after_close {s : State} {n : Nat} (h : RingRun s n) (now : Word)
    (h0 : (lenRead s s.prod).val = 0) (hlen : (nextCount s.nrPulses).val ≠ 0) :
    RingRun (closedState now s) (n + 1) := by
  have hn : n < 10 := h.lt_of_prod_empty h0
  obtain ⟨_, hp, hrun⟩ := h
  refine ⟨hn, by rw [closedState_prod, closedState_cons, hp, nextSlot_slotFrom], fun i hi => ?_⟩
  rw [closedState_cons, lenRead_closedState]
  by_cases hk : slotFrom s.cons i = s.prod
  · have hin : i = n := slotFrom_injective s.cons i n hi hn (hk.trans hp)
    rw [if_pos hk]
    exact ⟨fun _ => by omega, fun _ => hlen⟩
  · have hin : i ≠ n := fun e => hk (by rw [e, hp])
    rw [if_neg hk, hrun i hi]
    omega

/-- While MINRAWLEN ≥ 1, an edge leaves the run as it is or makes it one slot longer. -/
theorem RingRun.after_edge {s : State} {n : Nat} (h : RingRun s n) (hmin : 1 ≤ s.minRawLen.toNat) (now : Word) :
    RingRun (edgeStep now s) n ∨ RingRun (edgeStep now s) (n + 1) := by
  obtain ⟨hn, hp, hrun⟩ := h
  rcases edgeStep_cases now s with ⟨e, _⟩ | ⟨ha, _, ⟨_, e⟩ | ⟨_, ⟨_, e⟩ | ⟨_, ⟨hq, e⟩ | ⟨_, e⟩⟩⟩⟩ <;> rw [e]
  · exact .inl ⟨hn, hp, hrun⟩
  · exact .inl ⟨hn, hp, hrun⟩
  · exact .inl ⟨hn, hp, fun i hi => by rw [lenRead_storedState]; exact hrun i hi⟩
  · refine .inr (RingRun.after_close ⟨hn, hp, hrun⟩ now ((edgeAccepted_iff s).mp ha).2 ?_)
    have := hq.1
    rw [nextCount_val]
    omega
  · exact .inl ⟨hn, hp, fun i hi => by rw [lenRead_discardedState]; exact hrun i hi⟩

/-- Settles O28: RECV shortens the run, an edge lengthens it or leaves it, no other command touches it. -/
theorem ringOrderKept : Obligations.RingOrderKept := by
  rintro s t ⟨n, hrun⟩ hmin h
  rcases step_next_cases h with ⟨_, rfl⟩ | ⟨cmd, args, rest, i, _, _, hc, hx⟩ | ⟨_, _, _, _, rfl⟩ |
    ⟨now, rest, _, rfl⟩ | ⟨rest, _, rfl⟩
  · exact ⟨n, hrun⟩
  · have hrun : RingRun { s with inputs := rest } n := hrun
    rcases exec_ring_cases hc hx with ⟨_, rfl⟩ | ⟨_, hsame⟩
    · exact ⟨n - 1, hrun.after_recv⟩
    · exact ⟨n, hrun.of_sameRing hsame⟩
  · exact ⟨n, hrun⟩
  · have hrun : RingRun { s with inputs := rest } n := hrun
    exact (hrun.after_edge hmin now).elim (fun h => ⟨n, h⟩) fun h => ⟨n + 1, h⟩
  · exact ⟨0, ringRun_resetWith s.cfg⟩

/-! ## NRPULSES while the sampler is parked (R42) -/

theorem ParkedEmpty.of_sameRing {s t : State} (h : ParkedEmpty s) (hst : SameRing s t) : ParkedEmpty t := by
  obtain ⟨hring, hprod, _, hnr⟩ := hst
  intro hne
  rw [hprod, lenRead_of_ring hring] at hne
  rw [hnr]
  exact h hne

/-- RECV fills no slot, so PROD's is full after it only if it was before. -/
theorem ParkedEmpty.after_recv {s : State} (h : ParkedEmpty s) : ParkedEmpty (recvStep s) := by
  intro hne
  rw [recvStep_prod, lenRead_recvStep] at hne
  rw [recvStep_nrPulses]
  by_cases hk : s.prod = s.cons
  · rw [if_pos hk] at hne
    exact absurd rfl hne
  · rw [if_neg hk] at hne
    exact h hne

/-- An accepted edge leaves the slot at PROD empty, or moves PROD and sets NRPULSES to 0. -/
theorem ParkedEmpty.after_edge {s : State} (h : ParkedEmpty s) (now : Word) : ParkedEmpty (edgeStep now s) := by
  rcases edgeStep_cases now s with ⟨e, _⟩ | ⟨ha, _, ⟨_, e⟩ | ⟨_, ⟨_, e⟩ | ⟨_, ⟨_, e⟩ | ⟨_, e⟩⟩⟩⟩ <;> rw [e]
  · exact h
  · exact h
  · intro hne
    rw [storedState_prod, lenRead_storedState] at hne
    exact absurd ((edgeAccepted_iff s).mp ha).2 hne
  · intro _
    rw [closedState_nrPulses]
  · intro _
    rw [discardedState_nrPulses]

/-- Settles O27: the sampler alone moves PROD and NRPULSES, and no command fills a slot. -/
theorem parkedEmptyKept : Obligations.ParkedEmptyKept := by
  intro s t hpark h
  rcases step_next_cases h with ⟨_, rfl⟩ | ⟨cmd, args, rest, i, _, _, hc, hx⟩ | ⟨_, _, _, _, rfl⟩ |
    ⟨now, rest, _, rfl⟩ | ⟨rest, _, rfl⟩
  · exact hpark
  · have hpark : ParkedEmpty { s with inputs := rest } := hpark
    rcases exec_ring_cases hc hx with ⟨_, rfl⟩ | ⟨_, hsame⟩
    · exact hpark.after_recv
    · exact hpark.of_sameRing hsame
  · exact hpark
  · have hpark : ParkedEmpty { s with inputs := rest } := hpark
    exact hpark.after_edge now
  · exact parkedEmpty_resetWith s.cfg

/-! ## The registry (R36, R37, R253) -/

theorem decodeWalk_ds_length (T : Train) (js : List Nat) (s : State) :
    (decodeWalk T js s).1.ds.length = s.ds.length := by
  induction js generalizing s with
  | nil => rfl
  | cons j js ih => exact (ih _).trans (decodeEntry_ds T j s).1

@[simp] theorem emitRaw_ds (T : Train) (s : State) : (emitRaw T s).ds = s.ds := by
  unfold emitRaw
  split <;> rfl

theorem setRawlen_ds_length (j n : Nat) (s : State) : (setRawlen j n s).ds.length = s.ds.length := by
  unfold setRawlen
  rw [setDs_ds, List.length_set]

/-- DECODE runs on a train within CAP, and answers E_ILLEGAL to a longer one (R87). -/
theorem execDecode_cases (T : Train) (s : State) :
    execDecode T s = .next (decodeStep T s) ∨ execDecode T s = .next (answerError .illegal s) :=
  (onWellFormed_cases (.decode T) s (.next (decodeStep T s))).imp And.right And.right

theorem execDecode_ds_length {T : Train} {s t : State} (h : execDecode T s = .next t) :
    t.ds.length = s.ds.length := by
  rcases execDecode_cases T s with e | e <;> cases e.symm.trans h
  · unfold decodeStep
    rw [answer_ds, emitRaw_ds, decodeWalk_ds_length]
  · rfl

theorem encodeCommand_ds_length {id msg : Text} {capacity : Word} {s t : State}
    (h : encodeCommand id msg capacity s = .next t) : t.ds.length = s.ds.length := by
  rcases encodeCommand_cases id msg capacity s with
    ⟨_, e⟩ | ⟨_, ⟨_, e⟩ | ⟨_, _, ⟨_, e⟩ | ⟨_, _, ⟨_, e⟩ | ⟨_, e⟩⟩⟩⟩ <;> cases e.symm.trans h
  · rfl
  · rfl
  · exact setRawlen_ds_length _ _ s
  · rw [answer_ds, setRawlen_ds_length, setRawlen_ds_length]

theorem execEncode_ds_length {id msg : Text} {capacity : Word} {s t : State}
    (h : execEncode id msg capacity s = .next t) : t.ds.length = s.ds.length := by
  unfold execEncode at h
  rcases onWellFormed_cases (.encode id msg capacity) s (encodeCommand id msg capacity s) with
    ⟨_, e⟩ | ⟨_, e⟩ <;> rw [e] at h
  · exact encodeCommand_ds_length h
  · cases h
    rfl

/-- No command changes how many entries DS has (R36). -/
theorem exec_ds_length {i : Instr} {s t : State} (hc : i.isCommand = true) (h : exec i s = .next t) :
    t.ds.length = s.ds.length := by
  by_cases hd : ∃ T, i = .decode T
  · obtain ⟨T, rfl⟩ := hd
    exact execDecode_ds_length h
  by_cases he : ∃ a b n, i = .encode a b n
  · obtain ⟨a, b, n, rfl⟩ := he
    exact execEncode_ds_length h
  rw [(exec_keeps i s t hc h).ds (fun T e => hd ⟨T, e⟩) fun a b n e => he ⟨a, b, n, e⟩]

/-- LIMIT makes ACTIVE the list of its ids, or leaves it where the operands are out of bounds (R250). -/
theorem execLimit_active {ids : List Text} {s t : State} (h : execLimit ids s = .next t) :
    t.active = limitedActive s.cfg.protocols ids ∨ t.active = s.active := by
  unfold execLimit at h
  rcases onWellFormed_cases (.limit ids) s
    (.next (answer 0 [] { s with active := limitedActive s.cfg.protocols ids })) with
    ⟨_, e⟩ | ⟨_, e⟩ <;> cases e.symm.trans h
  · exact .inl rfl
  · exact .inr rfl

theorem RegistryOk.congr {s t : State} (h : RegistryOk s) (hcfg : t.cfg = s.cfg)
    (hds : t.ds.length = s.ds.length) (hactive : t.active = s.active) : RegistryOk t := by
  unfold RegistryOk
  rw [hcfg, hds, hactive]
  exact h

theorem RegistryOk.after_command {i : Instr} {s t : State} (h : RegistryOk s) (hc : i.isCommand = true)
    (hx : exec i s = .next t) : RegistryOk t := by
  have keeps := exec_keeps i s t hc hx
  have hds := exec_ds_length hc hx
  by_cases hi : ∃ ids, i = .limit ids
  · obtain ⟨ids, rfl⟩ := hi
    rcases execLimit_active hx with ha | ha
    · obtain ⟨hlen, _, _⟩ := h
      unfold RegistryOk
      rw [keeps.cfg, hds, ha]
      exact ⟨hlen, limitedActive_ok s.cfg.protocols ids⟩
    · exact h.congr keeps.cfg hds ha
  · exact h.congr keeps.cfg hds (keeps.active fun ids e => hi ⟨ids, e⟩)

/-- Settles O51: DECODE and ENCODE write DS in place, and LIMIT's new ACTIVE names descriptors only. -/
theorem registryKept : Obligations.RegistryKept := by
  intro s t hok h
  rcases step_next_cases h with ⟨_, rfl⟩ | ⟨cmd, args, rest, i, _, _, hc, hx⟩ | ⟨_, _, _, _, rfl⟩ |
    ⟨now, rest, _, rfl⟩ | ⟨rest, _, rfl⟩
  · exact hok
  · have hok : RegistryOk { s with inputs := rest } := hok
    exact hok.after_command hc hx
  · exact hok
  · rw [edgeStep_only_sampler]
    exact hok
  · exact registryOk_resetWith s.cfg

end Sys2Proof.Machine
end

section
/-! PROOFS. The outputs only grow, who owns what, and the frames of the readers and of CRW. -/

namespace Sys2Proof.Machine

open Sys2Proof.Config (nslots cap)

/-! ## The traces (R39) -/

theorem decodeWalk_evt_prefix (T : Train) (js : List Nat) (s : State) : s.evt <+: (decodeWalk T js s).1.evt := by
  induction js generalizing s with
  | nil => exact List.prefix_refl _
  | cons j js ih =>
    obtain ⟨decs, hdecs, _⟩ := decodeEntry_records T j s
    exact List.IsPrefix.trans ⟨decs, hdecs.symm⟩ (ih _)

theorem emitRaw_evt_prefix (T : Train) (s : State) : s.evt <+: (emitRaw T s).evt := by
  unfold emitRaw
  split
  · exact List.prefix_append _ _
  · exact List.prefix_refl _

/-- DECODE appends to the EVT trace (R190, R191). -/
theorem execDecode_evt_prefix {T : Train} {s t : State} (h : execDecode T s = .next t) : s.evt <+: t.evt := by
  rcases execDecode_cases T s with e | e <;> cases e.symm.trans h
  · exact (decodeWalk_evt_prefix T s.active s).trans (emitRaw_evt_prefix T _)
  · exact List.prefix_refl _

/-- TX appends to the TX trace (R230). -/
theorem execTx_tx_prefix {n : BitVec 16} {T : Train} {s t : State} (h : execTx n T s = .next t) :
    s.tx <+: t.tx := by
  unfold execTx at h
  rcases onWellFormed_cases (.tx n T) s
    (.next (answer 0 [] (driveTx (txWaveform n.toNat T) .low s))) with ⟨_, e⟩ | ⟨_, e⟩ <;>
    cases e.symm.trans h
  · exact List.prefix_append _ _
  · exact List.prefix_refl _

theorem exec_evt_prefix {i : Instr} {s t : State} (hc : i.isCommand = true) (h : exec i s = .next t) :
    s.evt <+: t.evt := by
  by_cases hi : ∃ T, i = .decode T
  · obtain ⟨T, rfl⟩ := hi
    exact execDecode_evt_prefix h
  · rw [(exec_keeps i s t hc h).evt fun T e => hi ⟨T, e⟩]

theorem exec_tx_prefix {i : Instr} {s t : State} (hc : i.isCommand = true) (h : exec i s = .next t) :
    s.tx <+: t.tx := by
  by_cases hi : ∃ n T, i = .tx n T
  · obtain ⟨n, T, rfl⟩ := hi
    exact execTx_tx_prefix h
  · rw [((exec_keeps i s t hc h).tx fun n T e => hi ⟨n, T, e⟩).1]

/-- Settles O12: DECODE alone adds records, TX alone primitives, and each command one result frame. -/
theorem outputsAppendOnly : Obligations.OutputsAppendOnly := by
  intro s t h hreset
  rcases step_next_cases h with ⟨_, rfl⟩ | ⟨cmd, args, rest, i, _, _, hc, hx⟩ | ⟨_, _, rest, _, rfl⟩ |
    ⟨now, rest, _, rfl⟩ | ⟨rest, hin, _⟩
  · exact ⟨List.prefix_refl _, List.prefix_refl _, List.prefix_refl _⟩
  · obtain ⟨r, hr⟩ := (exec_keeps i _ t hc hx).results
    have hevt := exec_evt_prefix hc hx
    have htx := exec_tx_prefix hc hx
    exact ⟨hevt, htx, [r], hr.symm⟩
  · exact ⟨List.prefix_refl _, List.prefix_refl _, List.prefix_append _ _⟩
  · rw [edgeStep_only_sampler]
    exact ⟨List.prefix_refl _, List.prefix_refl _, List.prefix_refl _⟩
  · exact absurd hin (hreset rest)

/-! ## Ownership -/

/-- No command writes a pulse word (R69). -/
theorem exec_memRead {i : Instr} {s t : State} (hc : i.isCommand = true) (h : exec i s = .next t)
    (k : Fin nslots) (w : Nat) : memRead t k w = memRead s k w := by
  rcases exec_ring_cases hc h with ⟨_, rfl⟩ | ⟨_, hring, _⟩
  · exact memRead_recvStep s k w
  · exact memRead_of_ring hring k w

/-- A command that changes a length is RECV, and the length becomes 0 (R69, R162). -/
theorem exec_lenRead_ne {i : Instr} {s t : State} (hc : i.isCommand = true) (h : exec i s = .next t)
    {k : Fin nslots} (hne : lenRead t k ≠ lenRead s k) : i = .recv ∧ (lenRead t k).val = 0 := by
  rcases exec_ring_cases hc h with ⟨hi, rfl⟩ | ⟨_, hring, _⟩
  · refine ⟨hi, ?_⟩
    rw [lenRead_recvStep] at hne ⊢
    by_cases hk : k = s.cons
    · rw [if_pos hk]
    · exact absurd (if_neg hk) hne
  · exact absurd (lenRead_of_ring hring k) hne

/-- What a command changes names the command (the contrapositive of `CommandKeeps`). -/
theorem CommandKeeps.owners {i : Instr} {s t : State} (keeps : CommandKeeps i s t) :
    ((t.rxEn ≠ s.rxEn ∨ t.cbDec ≠ s.cbDec ∨ t.cbRaw ≠ s.cbRaw ∨ t.minGapLen ≠ s.minGapLen ∨
      t.minRawLen ≠ s.minRawLen ∨ t.maxRawLen ≠ s.maxRawLen) → ∃ n v, i = .crw n v) ∧
    (t.active ≠ s.active → ∃ ids, i = .limit ids) ∧
    (t.ds ≠ s.ds → (∃ T, i = .decode T) ∨ ∃ id msg n, i = .encode id msg n) ∧
    ((t.txLevel ≠ s.txLevel ∨ t.tx ≠ s.tx) → ∃ n T, i = .tx n T) ∧
    (t.evt ≠ s.evt → ∃ T, i = .decode T) := by
  refine ⟨fun h => ?_, fun h => ?_, fun h => ?_, fun h => ?_, fun h => ?_⟩ <;> by_contra hi
  · have ⟨h1, h2, h3, h4, h5, h6⟩ := keeps.config fun n v e => hi ⟨n, v, e⟩
    simp [h1, h2, h3, h4, h5, h6] at h
  · exact h (keeps.active fun ids e => hi ⟨ids, e⟩)
  · exact h (keeps.ds (fun T e => hi (.inl ⟨T, e⟩)) fun a b n e => hi (.inr ⟨a, b, n, e⟩))
  · have ⟨h1, h2⟩ := keeps.tx fun n T e => hi ⟨n, T, e⟩
    simp [h1, h2] at h
  · exact h (keeps.evt fun T e => hi ⟨T, e⟩)

/-- Settles O60: a command owns what `CommandKeeps` gives it, the sampler the rest, a refused frame nothing. -/
theorem stateHasOwners : Obligations.StateHasOwners := by
  intro s t i rest hin hreset h
  rcases step_next_cases h with ⟨hin', _⟩ | ⟨cmd, args, rest', c, hin', hd, hc, hx⟩ |
    ⟨cmd, args, rest', hin', rfl⟩ | ⟨now, rest', hin', rfl⟩ | ⟨rest', hin', _⟩ <;>
    cases hin.symm.trans hin'
  · have keeps := exec_keeps c _ t hc hx
    obtain ⟨_, hnr, hlast⟩ := keeps.sampler
    obtain ⟨hconfig, hactive, hds, htx, hevt⟩ := keeps.owners
    refine ⟨keeps.cfg, fun k w hne => absurd (exec_memRead hc hx k w) hne, fun k hne => ?_,
      fun hne => absurd hne (not_or.mpr ⟨not_not.mpr hnr, not_not.mpr hlast⟩),
      fun hne => ⟨cmd, args, c, rfl, hd, hconfig hne⟩, fun hne => ⟨cmd, args, c, rfl, hd, hactive hne⟩,
      fun hne => ⟨cmd, args, c, rfl, hd, hds hne⟩, fun hne => ⟨cmd, args, c, rfl, hd, htx hne⟩,
      fun hne => ⟨cmd, args, c, rfl, hd, hevt hne⟩⟩
    obtain ⟨hrecv, hlen⟩ := exec_lenRead_ne hc hx hne
    exact ⟨absurd hlen, fun _ => ⟨cmd, args, c, rfl, hd, hrecv⟩⟩
  · refine ⟨rfl, fun _ _ h => absurd rfl h, fun _ h => absurd rfl h, ?_, ?_, fun h => absurd rfl h,
      fun h => absurd rfl h, ?_, fun h => absurd rfl h⟩ <;> simp [answerError]
  · have off := edgeStep_only_sampler now { s with inputs := rest }
    refine ⟨by rw [off], fun _ _ _ => ⟨now, rfl⟩, fun k hne => ⟨fun _ => ⟨now, rfl⟩, fun h0 => ?_⟩,
      fun _ => ⟨now, rfl⟩, ?_, ?_, ?_, ?_, ?_⟩
    · exact absurd h0 (edgeStep_len_ne_zero now { s with inputs := rest } k hne)
    all_goals rw [off]; simp
  · exact absurd rfl hreset

/-! ## The readers and CRW -/

/-- RXEN reads as its bit (R24). -/
theorem rxenWord_eq (s : State) : rxenWord s = if s.rxEn = true then 1 else 0 := by
  unfold rxenWord
  cases s.rxEn <;> rfl

/-- CBEN reads as its two bits (R25). -/
theorem cbenWord_eq (s : State) :
    cbenWord s = (if s.cbDec = true then 1 else 0) + (if s.cbRaw = true then 2 else 0) := by
  unfold cbenWord
  cases s.cbDec <;> cases s.cbRaw <;> rfl

/-- CRR answers the register's value (R120). -/
theorem exec_crr_of_readCR {s : State} {n : BitVec 8} {v : Word} (h : readCR s n = some v) :
    exec (.crr n) s = .next (answer 0 [v] s) := by
  rw [exec, execCrr, h]

/-- Settles O16: the value of every register by `readCR`, RXEN and CBEN by their bits. -/
theorem crrReadsEveryRegister : Obligations.CrrReadsEveryRegister := by
  intro s
  rw [← rxenWord_eq, ← cbenWord_eq]
  refine ⟨?_, ?_, ?_, ?_, ?_, ?_, ?_, ?_, ?_, ?_, ?_, ?_, ?_⟩ <;> exact exec_crr_of_readCR rfl

/-- CRW that is accepted changes the one register it names (R122). -/
theorem writeCR_frame {s t : State} {n : BitVec 8} {v : Word} (h : writeCR s n v = some t) :
    t = { s with rxEn := t.rxEn, cbDec := t.cbDec, cbRaw := t.cbRaw, minGapLen := t.minGapLen,
                 minRawLen := t.minRawLen, maxRawLen := t.maxRawLen } ∧
    (n.toNat ≠ 0 → t.rxEn = s.rxEn) ∧ (n.toNat ≠ 1 → t.cbDec = s.cbDec ∧ t.cbRaw = s.cbRaw) ∧
    (n.toNat ≠ 2 → t.minGapLen = s.minGapLen) ∧ (n.toNat ≠ 3 → t.minRawLen = s.minRawLen) ∧
    (n.toNat ≠ 4 → t.maxRawLen = s.maxRawLen) := by
  unfold writeCR at h
  split at h <;> cases h
  all_goals exact ⟨rfl, by simp [*]⟩

/-- A reader of O59 sends one result frame and changes nothing else. -/
theorem exec_reader_frame {i : Instr} (s : State)
    (h : (∃ n, i = .crr n) ∨ i = .nextlen ∨ (∃ p, i = .pt2str p) ∨ ∃ t m, i = .str2pt t m) :
    ∃ t, exec i s = .next t ∧ OneResult s t := by
  rcases h with ⟨n, rfl⟩ | rfl | ⟨p, rfl⟩ | ⟨token, maxlen, rfl⟩
  · exact execCrr_frame n s
  · exact execNextlen_frame s
  · exact execPt2str_frame p s
  · exact execStr2pt_frame token maxlen s

/-- Settles O59: the readers by their frames, CRW by the register it writes, if it writes one. -/
theorem readerAndCrwFrames : Obligations.ReaderAndCrwFrames := by
  refine ⟨fun s i hi => ?_, fun s n v => ?_⟩
  · obtain ⟨_, e, r, rfl⟩ := exec_reader_frame s hi
    exact ⟨r, e⟩
  · rw [exec, execCrw]
    cases h : writeCR s n v with
    | none =>
      exact ⟨_, _, rfl, rfl, rfl, fun _ => rfl, fun _ => ⟨rfl, rfl⟩, fun _ => rfl, fun _ => rfl, fun _ => rfl⟩
    | some u =>
      obtain ⟨hu, hregs⟩ := writeCR_frame h
      refine ⟨_, ⟨0, []⟩, rfl, ?_, ?_, hregs⟩
      · rw [hu]; rfl
      · rw [hu]; rfl

end Sys2Proof.Machine
end

section
/-! PROOFS. No step shows an uncovered pulse word (R43, R68). A command other than NEXTLEN and RECV commutes
with any change of RING; NEXTLEN, RECV and EDGE read covered words and lengths alone, and the one new word an
edge covers is the word it has just written. -/

namespace Sys2Proof.Machine

open Sys2Proof.Config (nslots cap)

/-! ## Commands that do not see the ring -/

/-- The state with another RING. -/
def setRing (ring : Vector Slot nslots) (s : State) : State := { s with ring := ring }

@[simp] theorem setRing_cfg (ring : Vector Slot nslots) (s : State) : (setRing ring s).cfg = s.cfg := rfl
@[simp] theorem setRing_minGapLen (ring : Vector Slot nslots) (s : State) :
    (setRing ring s).minGapLen = s.minGapLen := rfl
@[simp] theorem setRing_prod (ring : Vector Slot nslots) (s : State) : (setRing ring s).prod = s.prod := rfl
@[simp] theorem setRing_cons (ring : Vector Slot nslots) (s : State) : (setRing ring s).cons = s.cons := rfl
@[simp] theorem setRing_nrPulses (ring : Vector Slot nslots) (s : State) :
    (setRing ring s).nrPulses = s.nrPulses := rfl
@[simp] theorem setRing_lastEdge (ring : Vector Slot nslots) (s : State) :
    (setRing ring s).lastEdge = s.lastEdge := rfl

/-- What a step gives, with its next state changed by `f`. -/
def mapNext (f : State → State) : Host.Outcome State Fault Refusal → Host.Outcome State Fault Refusal
  | .next s => .next (f s)
  | .fault e => .fault e
  | .refused e => .refused e

section
variable (ring : Vector Slot nslots) (s : State)

theorem onWellFormed_setRing (i : Instr) (run : Host.Outcome State Fault Refusal) :
    onWellFormed i (setRing ring s) (mapNext (setRing ring) run) =
      mapNext (setRing ring) (onWellFormed i s run) := by
  rcases onWellFormed_cases i s run with ⟨hw, e⟩ | ⟨hw, e⟩ <;> rw [e]
  · exact if_pos hw
  · exact if_neg (by simp [hw])

theorem execCrr_setRing (n : BitVec 8) :
    execCrr n (setRing ring s) = mapNext (setRing ring) (execCrr n s) := by
  have hread : readCR (setRing ring s) n = readCR s n := rfl
  unfold execCrr
  rw [hread]
  cases readCR s n <;> rfl

theorem execCrw_setRing (n : BitVec 8) (v : Word) :
    execCrw n v (setRing ring s) = mapNext (setRing ring) (execCrw n v s) := by
  have hwrite : writeCR (setRing ring s) n v = (writeCR s n v).map (setRing ring) := by
    unfold writeCR
    split <;> rfl
  unfold execCrw
  rw [hwrite]
  cases writeCR s n v <;> rfl

theorem takeMessage_setRing (j : Nat) (pid : Text) (m : Config.Doc) :
    takeMessage j pid m (setRing ring s) = setRing ring (takeMessage j pid m s) := by
  have hdec : (setRing ring s).cbDec = s.cbDec := rfl
  unfold takeMessage
  rw [hdec]
  dsimp only
  split <;> rfl

theorem afterClock_setRing : afterClock (setRing ring s) = setRing ring (afterClock s) := by
  unfold afterClock
  cases h : s.clockIn <;> simp [setRing, h]

theorem validatedEntry_setRing (j : Nat) (pid : Text) (p : Option Config.Doc) :
    validatedEntry j pid p (setRing ring s) = Prod.map (setRing ring) id (validatedEntry j pid p s) := by
  unfold validatedEntry
  rw [afterClock_setRing]
  cases p with
  | none => rfl
  | some m =>
    have hmsg := takeMessage_setRing ring (setDs j (burstTiming (clockValue s) (dsAt s j)) (afterClock s)) j pid m
    exact congrArg (fun u => (u, 1)) hmsg

theorem decodeEntry_setRing (T : Train) (j : Nat) :
    decodeEntry T j (setRing ring s) = Prod.map (setRing ring) id (decodeEntry T j s) := by
  have hraw : setRawlen j T.length (setRing ring s) = setRing ring (setRawlen j T.length s) := rfl
  unfold decodeEntry
  rw [setRing_cfg, hraw]
  split
  · rfl
  · split
    · dsimp only
      rw [validatedEntry_setRing]
      split <;> rfl
    · rfl

theorem decodeWalk_setRing (T : Train) (js : List Nat) :
    decodeWalk T js (setRing ring s) = Prod.map (setRing ring) id (decodeWalk T js s) := by
  induction js generalizing s with
  | nil => rfl
  | cons j js ih =>
    unfold decodeWalk
    dsimp only
    rw [decodeEntry_setRing, Prod.map_fst, ih]
    rfl

theorem emitRaw_setRing (T : Train) : emitRaw T (setRing ring s) = setRing ring (emitRaw T s) := by
  have hraw : (setRing ring s).cbRaw = s.cbRaw := rfl
  unfold emitRaw
  rw [hraw]
  split <;> rfl

theorem decodeStep_setRing (T : Train) : decodeStep T (setRing ring s) = setRing ring (decodeStep T s) := by
  have hactive : (setRing ring s).active = s.active := rfl
  unfold decodeStep
  rw [hactive, decodeWalk_setRing]
  dsimp only [Prod.map]
  rw [emitRaw_setRing]
  rfl

theorem useEncoder_setRing (e : Encoder) (d : Config.Doc) :
    useEncoder e d (setRing ring s) = mapNext (setRing ring) (useEncoder e d s) := by
  unfold useEncoder
  dsimp only
  split
  · rfl
  · split <;> rfl

theorem encodeCommand_setRing (pid msg : Text) (capacity : Word) :
    encodeCommand pid msg capacity (setRing ring s) =
      mapNext (setRing ring) (encodeCommand pid msg capacity s) := by
  unfold encodeCommand
  rw [setRing_cfg]
  split
  · split
    · rfl
    · exact useEncoder_setRing ring s _ _
  · rfl

/-- A command other than NEXTLEN and RECV commutes with any change of RING. -/
theorem exec_setRing (i : Instr) (hc : i.isCommand = true) (hn : i ≠ .nextlen) (hr : i ≠ .recv) :
    exec i (setRing ring s) = mapNext (setRing ring) (exec i s) := by
  cases i with
  | crr n => exact execCrr_setRing ring s n
  | crw n v => exact execCrw_setRing ring s n v
  | nextlen => exact absurd rfl hn
  | recv => exact absurd rfl hr
  | decode T =>
    rw [exec, exec, execDecode, decodeStep_setRing]
    exact onWellFormed_setRing ring s (.decode T) (.next (decodeStep T s))
  | encode pid msg capacity =>
    rw [exec, exec, execEncode, encodeCommand_setRing]
    exact onWellFormed_setRing ring s (.encode pid msg capacity) _
  | tx n T =>
    rw [exec, exec, execTx, execTx, ← onWellFormed_setRing]
    rfl
  | limit ids =>
    rw [exec, exec, execLimit, execLimit, ← onWellFormed_setRing]
    rfl
  | pt2str T =>
    rw [exec, exec, execPt2str, execPt2str, ← onWellFormed_setRing]
    cases trainToken T <;> rfl
  | str2pt token maxlen =>
    rw [exec, exec, execStr2pt, execStr2pt, ← onWellFormed_setRing]
    cases tokenTrain token maxlen.toNat <;> rfl
  | edge now => cases hc

end

/-! ## Covered words -/

/-- A word a closed train or the train in progress covers (R31, R35). -/
def Covered (s : State) (k : Fin nslots) (i : Nat) : Prop :=
  i < (lenRead s k).val ∨ (k = s.prod ∧ i < s.nrPulses.val)

theorem samePublished_iff (s t : State) :
    SamePublished s t ↔ { s with ring := t.ring } = t ∧ (∀ k, lenRead s k = lenRead t k) ∧
      ∀ k i, Covered s k i → memRead s k i = memRead t k i := by
  constructor
  · rintro ⟨hoff, hlen, hclosed, hprogress⟩
    refine ⟨hoff, hlen, fun k i hcov => ?_⟩
    rcases hcov with hi | ⟨rfl, hi⟩
    · exact hclosed k i hi
    · exact hprogress i hi
  · rintro ⟨hoff, hlen, hcov⟩
    exact ⟨hoff, hlen, fun k i hi => hcov k i (.inl hi), fun i hi => hcov s.prod i (.inr ⟨rfl, hi⟩)⟩

theorem SamePublished.refl (s : State) : SamePublished s s :=
  ⟨rfl, fun _ => rfl, fun _ _ _ => rfl, fun _ _ => rfl⟩

theorem SamePublished.exists_setRing {s t : State} (h : SamePublished s t) : ∃ ring, t = setRing ring s :=
  ⟨t.ring, h.1.symm⟩

theorem SamePublished.lenRead_eq {s t : State} (h : SamePublished s t) (k : Fin nslots) :
    lenRead s k = lenRead t k := h.2.1 k

/-- Of two such states, successors with the same words that cover no more of them are two such states. -/
theorem SamePublished.of_covered {s t s' t' : State} (h : SamePublished s t)
    (hoff : { s' with ring := t'.ring } = t') (hlen : ∀ k, lenRead s' k = lenRead t' k)
    (hs : ∀ k i, memRead s' k i = memRead s k i) (ht : ∀ k i, memRead t' k i = memRead t k i)
    (hcov : ∀ k i, Covered s' k i → Covered s k i) : SamePublished s' t' := by
  obtain ⟨_, _, hmem⟩ := (samePublished_iff s t).mp h
  refine (samePublished_iff s' t').mpr ⟨hoff, hlen, fun k i hc => ?_⟩
  rw [hs, ht]
  exact hmem k i (hcov k i hc)

theorem covered_of_recvStep {s : State} {k : Fin nslots} {i : Nat} (h : Covered (recvStep s) k i) :
    Covered s k i := by
  unfold Covered at *
  rw [recvStep_prod, recvStep_nrPulses, lenRead_recvStep] at h
  refine h.imp_left fun hi => ?_
  by_cases hk : k = s.cons
  · rw [if_pos hk] at hi
    exact absurd hi (Nat.not_lt_zero i)
  · rwa [if_neg hk] at hi

/-- The one word a stored pulse newly covers is the one it writes (R142). -/
theorem covered_of_storedState {now : Word} {s : State} {k : Fin nslots} {i : Nat}
    (h : Covered (storedState now s) k i) : Covered s k i ∨ (k = s.prod ∧ i = s.nrPulses.val) := by
  rcases h with hi | ⟨hk, hi⟩
  · rw [lenRead_storedState] at hi
    exact .inl (.inl hi)
  · have hle : i ≤ s.nrPulses.val := Nat.le_of_lt_succ (hi.trans_le (Nat.mod_le _ _))
    rcases hle.lt_or_eq with hlt | heq
    · exact .inl (.inr ⟨hk, hlt⟩)
    · exact .inr ⟨hk, heq⟩

/-- Closing a train covers no word the train did not cover with its gap (R144). -/
theorem covered_of_closedState {now : Word} {s : State} {k : Fin nslots} {i : Nat}
    (h : Covered (closedState now s) k i) : Covered (storedState now s) k i := by
  rcases h with hi | ⟨_, hi⟩
  · rw [lenRead_closedState] at hi
    by_cases hk : k = s.prod
    · rw [if_pos hk] at hi
      exact .inr ⟨hk, hi⟩
    · rw [if_neg hk] at hi
      exact .inl (by rwa [lenRead_storedState])
  · rw [closedState_nrPulses] at hi
    exact absurd hi (Nat.not_lt_zero i)

theorem covered_of_discardedState {now : Word} {s : State} {k : Fin nslots} {i : Nat}
    (h : Covered (discardedState now s) k i) : Covered (storedState now s) k i :=
  h.elim .inl fun h => absurd h.2 (Nat.not_lt_zero i)

/-! ## RECV, NEXTLEN and EDGE -/

section
variable {s t : State} (h : SamePublished s t)
include h

theorem SamePublished.inputs (rest : List Input) :
    SamePublished { s with inputs := rest } { t with inputs := rest } := by
  obtain ⟨ring, rfl⟩ := h.exists_setRing
  exact ⟨rfl, h.2⟩

theorem SamePublished.answer (res : Word) (payload : List Word) :
    SamePublished (answer res payload s) (answer res payload t) := by
  obtain ⟨ring, rfl⟩ := h.exists_setRing
  exact ⟨rfl, h.2⟩

theorem SamePublished.pendingLen_eq : pendingLen t = pendingLen s := by
  obtain ⟨ring, rfl⟩ := h.exists_setRing
  exact congrArg Fin.val (h.lenRead_eq s.cons).symm

/-- RECV returns covered words alone (R161). -/
theorem SamePublished.recv_payload_eq :
    copyOut t t.cons (pendingLen s) = copyOut s s.cons (pendingLen s) := by
  obtain ⟨ring, rfl⟩ := h.exists_setRing
  obtain ⟨_, _, hclosed, _⟩ := h
  exact copyOut_congr _ s s.cons s.cons _ fun i hi => (hclosed s.cons i hi).symm

theorem SamePublished.after_recv : SamePublished (recvStep s) (recvStep t) := by
  have hlen := h.lenRead_eq
  have hpending := h.pendingLen_eq
  have hpayload := h.recv_payload_eq
  obtain ⟨ring, rfl⟩ := h.exists_setRing
  refine h.of_covered ?_ (fun k => ?_) (memRead_recvStep s) (memRead_recvStep _) fun _ _ => covered_of_recvStep
  · unfold recvStep
    rw [hpending, hpayload]
    split <;> rfl
  · rw [lenRead_recvStep, lenRead_recvStep, hlen k, setRing_cons]

theorem SamePublished.after_store (now : Word) : SamePublished (storedState now s) (storedState now t) := by
  obtain ⟨ring, rfl⟩ := h.exists_setRing
  obtain ⟨_, hlen, hmem⟩ := (samePublished_iff _ _).mp h
  refine (samePublished_iff _ _).mpr ⟨rfl, fun k => ?_, fun k i hc => ?_⟩
  · rw [lenRead_storedState, lenRead_storedState, hlen k]
  · rw [memRead_storedState, memRead_storedState, setRing_prod, setRing_nrPulses, setRing_lastEdge]
    rcases covered_of_storedState hc with hold | hnew
    · rw [hmem k i hold]
    · rw [if_pos hnew, if_pos hnew]

theorem SamePublished.after_close (now : Word) : SamePublished (closedState now s) (closedState now t) := by
  have hstore := h.after_store now
  obtain ⟨ring, rfl⟩ := h.exists_setRing
  refine hstore.of_covered ?_ (fun k => ?_) (fun k i => ?_) (fun k i => ?_) fun _ _ => covered_of_closedState
  · rw [closedState_eq, closedState_eq]
    rfl
  · rw [lenRead_closedState, lenRead_closedState, h.lenRead_eq k, setRing_prod, setRing_nrPulses]
  all_goals rw [memRead_closedState, memRead_storedState]

theorem SamePublished.after_discard (now : Word) :
    SamePublished (discardedState now s) (discardedState now t) := by
  have hstore := h.after_store now
  obtain ⟨ring, rfl⟩ := h.exists_setRing
  exact hstore.of_covered rfl hstore.lenRead_eq (fun _ _ => rfl) (fun _ _ => rfl) fun _ _ => covered_of_discardedState

/-- EDGE decides on lengths alone, and writes the one word it newly covers (R140 to R146). -/
theorem SamePublished.after_edge (now : Word) : SamePublished (edgeStep now s) (edgeStep now t) := by
  have hclose := h.after_close now
  have hdiscard := h.after_discard now
  have hstore := h.after_store now
  obtain ⟨ring, rfl⟩ := h.exists_setRing
  have hmove : SamePublished (movedState now s) (movedState now (setRing ring s)) := ⟨rfl, h.2⟩
  have haccept : edgeAccepted (setRing ring s) = edgeAccepted s := by
    unfold edgeAccepted
    rw [setRing_prod, ← h.lenRead_eq s.prod]
    rfl
  have hgap : gapCloses (setRing ring s) ↔ gapCloses s := Iff.rfl
  simp only [edgeStep_eq, haccept, hgap, setRing_cfg, setRing_lastEdge, setRing_minGapLen]
  split_ifs
  · exact hclose
  · exact hdiscard
  · exact hstore
  · exact hmove
  · exact h

end

/-! ## The step -/

/-- Where the first outcome is a next state the second is one that differs in uncovered words alone, and
where the first is a fault the second is the same fault. -/
def AnswersAlike (o o' : Host.Outcome State Fault Refusal) : Prop :=
  (∀ s', o = .next s' → ∃ t', o' = .next t' ∧ SamePublished s' t') ∧ (∀ f, o = .fault f → o' = .fault f)

theorem AnswersAlike.next {s t : State} (h : SamePublished s t) : AnswersAlike (.next s) (.next t) :=
  ⟨fun s' e => by cases e; exact ⟨t, rfl, h⟩, fun _ e => by cases e⟩

/-- A command answers alike in two states that differ in uncovered words alone. -/
theorem SamePublished.exec_alike {s t : State} (h : SamePublished s t) {i : Instr} (hc : i.isCommand = true) :
    AnswersAlike (exec i s) (exec i t) := by
  by_cases hr : i = .recv
  · subst hr
    exact .next h.after_recv
  by_cases hn : i = .nextlen
  · subst hn
    have hanswer := h.answer (countWord (pendingLen s)) []
    rw [exec, exec, execNextlen, execNextlen, h.pendingLen_eq]
    exact .next hanswer
  obtain ⟨ring, rfl⟩ := h.exists_setRing
  rw [exec_setRing ring s i hc hn hr]
  refine ⟨fun s' hx => ⟨setRing ring s', by rw [hx]; rfl, ?_⟩, fun f hx => by rw [hx]; rfl⟩
  obtain ⟨_, hring, hprod, _, hnr⟩ := (exec_ring_cases hc hx).resolve_left fun e => hr e.1
  refine h.of_covered rfl (fun k => ?_) (fun k w => memRead_of_ring hring k w) (fun _ _ => rfl) fun k w hcov => ?_
  · exact (lenRead_of_ring hring k).trans (h.lenRead_eq k)
  · unfold Covered at *
    rwa [lenRead_of_ring hring, hprod, hnr] at hcov

/-- Settles O30: both states take the same input, and what it runs sees covered words alone. -/
theorem stalePulsesNeverShown : Obligations.StalePulsesNeverShown := by
  intro s t h
  show AnswersAlike (step s) (step t)
  obtain ⟨ring, rfl⟩ := h.exists_setRing
  rcases step_cases s with ⟨hin, e⟩ | ⟨cmd, args, rest, i, hin, hd, hc, e⟩ | ⟨cmd, args, rest, _, hin, hd, e⟩ |
    ⟨now, rest, hin, e⟩ | ⟨rest, hin, e⟩ <;> rw [e]
  · rw [step_idle (s := setRing ring s) hin]
    exact .next h
  · rw [step_command (s := setRing ring s) hin hd]
    exact (h.inputs rest).exec_alike hc
  · rw [step_illegal (s := setRing ring s) hin hd]
    exact .next ((h.inputs rest).answer _ _)
  · rw [step_edge (s := setRing ring s) hin]
    exact .next ((h.inputs rest).after_edge now)
  · rw [step_reset (s := setRing ring s) hin]
    exact .next (.refl _)

end Sys2Proof.Machine
end

section
/-! PROOFS. The statements of 20_memory.md: the step by its next input (R67), and RECV with edges between its
sub-steps (R71). The edges see neither CONS nor the result frames, so they move past RECV's advance and answer;
they leave a full slot alone, so they move before RECV's reads; past the release they do not move (log 6). -/

namespace Sys2Proof.Machine

open Sys2Proof.Config (nslots cap Instantiation)

/-! ## One step (R67) -/

/-- Settles O8: one lemma for each kind of input, and E_ILLEGAL is -5. -/
theorem stepRunsDecodedInstruction : Obligations.StepRunsDecodedInstruction := fun _ _ =>
  ⟨fun _ _ _ hin hd => step_command hin hd, fun _ _ _ hin hd => step_illegal hin hd,
    fun _ hin => step_edge hin, step_idle⟩

/-! ## Edges inside RECV (R71) -/

/-- Edges between the reads of a full slot fall as if before them: the words read are the slot's words at the
start, and the state is the one after all the edges (R69). -/
theorem copyInterleaved_eq (before : Nat → List Word) (k : Fin nslots) (n i : Nat) (s : State)
    (h : (lenRead s k).val ≠ 0) :
    copyInterleaved before k n i s =
      ((List.range' i n).map (memRead s k), runEdges ((List.range' i n).map before).flatten s) := by
  induction n generalizing i s with
  | zero => rfl
  | succ n ih =>
    have hlen := runEdges_keeps_len (before i) s k h
    have hmem : memRead (runEdges (before i) s) k = memRead s k :=
      funext fun j => runEdges_keeps_mem (before i) s k j h
    rw [copyInterleaved, ih (i + 1) _ (by rwa [hlen]), hmem, ← runEdges_append]
    rfl

/-- Edges before RECV, of a slot that is not empty, change neither the length nor the words it answers. -/
theorem recvStep_runEdges (nows : List Word) (s : State) (h : (lenRead s s.cons).val ≠ 0) :
    recvStep (runEdges nows s) =
      answer (countWord (pendingLen s)) (copyOut s s.cons (pendingLen s))
        (advanceCons (releaseSlot (runEdges nows s))) := by
  have hlen := runEdges_keeps_len nows s s.cons h
  have hcopy : copyOut (runEdges nows s) s.cons (pendingLen s) = copyOut s s.cons (pendingLen s) :=
    copyOut_congr _ s s.cons s.cons _ fun i _ => runEdges_keeps_mem nows s s.cons i h
  rcases recvStep_cases (runEdges nows s) with ⟨h0, _⟩ | ⟨_, e⟩ <;> rw [runEdges_cons_reg, hlen] at *
  · exact absurd h0 h
  · rw [e, ← hcopy]
    rfl

/-- Settles O35: the edges before the release move before RECV's reads, and the later ones past its advance
and its answer. -/
theorem recvSubstepsEquivalent : Obligations.RecvSubstepsEquivalent := by
  intro s before beforeRelease beforeAdvance h
  refine ⟨rfl, ?_⟩
  have hcopied := copyInterleaved_eq before s.cons (pendingLen s) 0 s h
  rw [← List.range_eq_range'] at hcopied
  rw [recvStep_runEdges _ s h, runEdges_answer, runEdges_advanceCons, runEdges_append]
  unfold recvInterleaved
  rw [if_neg (show pendingLen s ≠ 0 from h), hcopied]
  rfl

/-! ## Edges before the release do not move past it (log 6) -/

/-- An edge at a parked sampler is dropped (R141). -/
theorem edgeStep_of_parked (now : Word) {s : State} (h : (lenRead s s.prod).val ≠ 0) : edgeStep now s = s :=
  edgeStep_of_not_accepted s now fun ha => h ((edgeAccepted_iff s).mp ha).2

/-- An accepted edge that is no glitch becomes the baseline (R145). -/
theorem edgeStep_lastEdge {now : Word} {s : State} (ha : edgeAccepted s = true)
    (hm : s.cfg.minPulse < elapsed now s.lastEdge) : (edgeStep now s).lastEdge = now := by
  rcases edgeStep_cases now s with ⟨_, hno | hno⟩ | ⟨_, _, ⟨_, e⟩ | ⟨_, ⟨_, e⟩ | ⟨_, ⟨_, e⟩ | ⟨_, e⟩⟩⟩⟩
  · rw [ha] at hno
    cases hno
  · exact absurd hm (BitVec.not_lt.mpr hno)
  · rw [e, movedState_lastEdge]
  · rw [e, storedState_lastEdge]
  · rw [e, closedState_lastEdge]
  · rw [e, discardedState_lastEdge]

/-- With the sampler enabled and parked at CONS, as on a full ring, an edge just before RECV and the same edge just
after it end in different states: before RECV it is dropped, after RECV the slot is empty and it is taken. -/
theorem recvStep_edge_order_ne {s : State} {now : Word} (hen : s.rxEn = true) (hpark : s.prod = s.cons)
    (hfull : (lenRead s s.cons).val ≠ 0) (hm : s.cfg.minPulse < elapsed now s.lastEdge) :
    recvStep (edgeStep now s) ≠ edgeStep now (recvStep s) := by
  have keeps := exec_keeps .recv s (recvStep s) rfl rfl
  obtain ⟨hrx, _⟩ := keeps.config nofun
  obtain ⟨_, _, hlast⟩ := keeps.sampler
  have htaken : edgeAccepted (recvStep s) = true := by
    rw [edgeAccepted_iff, hrx, recvStep_prod, lenRead_recvStep, if_pos hpark]
    exact ⟨hen, rfl⟩
  intro heq
  rw [edgeStep_of_parked now (hpark ▸ hfull)] at heq
  have hbase := congrArg State.lastEdge heq
  rw [edgeStep_lastEdge htaken (by rwa [keeps.cfg, hlast]), hlast] at hbase
  rw [hbase, elapsed, BitVec.sub_self] at hm
  exact BitVec.not_lt_zero hm

/-! ## A full ring the machine reaches -/

theorem edgeStep_inputs (now : Word) (rest : List Input) (s : State) :
    edgeStep now { s with inputs := rest } = { edgeStep now s with inputs := rest } :=
  edgeStep_comm (fun s => { s with inputs := rest }) now s rfl rfl rfl rfl Iff.rfl rfl rfl rfl rfl

theorem run_succ (M : Host.Core) {s t : M.State} (k : Nat) (h : M.step s = .next t) :
    M.run (k + 1) s = M.run k t := by
  rw [Host.Core.run, h]

theorem core_run_succ {s t : State} (k : Nat) (h : step s = .next t) : core.run (k + 1) s = core.run k t :=
  run_succ core (s := s) (t := t) k h

/-- The machine's run over delivered edges is `runEdges` (R140, R336). -/
theorem run_edges (nows : List Word) (rest : List Input) (s : State) :
    core.run nows.length { s with inputs := nows.map .edge ++ rest } =
      .next { runEdges nows s with inputs := rest } := by
  induction nows generalizing s with
  | nil => rfl
  | cons now nows ih =>
    have hstep := step_edge (s := { s with inputs := .edge now :: (nows.map .edge ++ rest) }) rfl
    rw [edgeStep_inputs now _ s] at hstep
    exact (core_run_succ nows.length hstep).trans (ih (edgeStep now s))

/-- A configuration without protocols, whose filters store durations from 101 to 99999. -/
def noProtocols : Instantiation :=
  { minPulse := 100, maxPulse := 100000, protocols := [], codec := default, devidKey := [], txtMax := 0 }

/-- Reset, after CRW has set RXEN and MINRAWLEN to 1. -/
def enabledAtReset : State :=
  { State.resetWith noProtocols with rxEn := true, minRawLen := 1, results := [⟨0, []⟩, ⟨0, []⟩] }

/-- The CLOCK values of ten gap edges, 6000 microseconds apart. -/
def gapEdges : List Word := edgeTimes 0 (List.replicate nslots 6000)

/-- The full ring those edges make: ten trains of length 1. -/
def fullRing : State := runEdges gapEdges enabledAtReset

/-- The machine reaches that state from reset, by two CRW frames and the edges: O36 fails on a state of its own
runs. -/
theorem fullRing_reached :
    core.run 12 { State.resetWith noProtocols with
      inputs := .frame 0x02000000 [1] :: .frame 0x02030000 [1] :: gapEdges.map .edge } = .next fullRing := by
  have hedges := run_edges gapEdges [] enabledAtReset
  rw [List.append_nil] at hedges
  exact hedges

theorem fullRing_parked :
    fullRing.rxEn = true ∧ fullRing.prod = fullRing.cons ∧ (lenRead fullRing fullRing.cons).val ≠ 0 ∧
      fullRing.cfg.minPulse = 100 ∧ fullRing.lastEdge = 60000 := by decide

/-- Refutes O36: on the full ring the edge at 61000 before the release is dropped and LASTEDGE stays 60000; moved
to after RECV it is taken and LASTEDGE is 61000. -/
theorem not_recvEdgesMoveAfterCommand : ¬ Obligations.RecvEdgesMoveAfterCommand := by
  intro h
  obtain ⟨hen, hpark, hfull, hmin, hlast⟩ := fullRing_parked
  have hmoved := h fullRing (fun _ => []) [61000] [] hfull
  have hinside := (recvSubstepsEquivalent fullRing (fun _ => []) [61000] [] hfull).2
  refine recvStep_edge_order_ne (now := 61000) hen hpark hfull ?_ ?_
  · rw [hmin, hlast]
    decide
  · simpa using hinside.symm.trans hmoved

end Sys2Proof.Machine
end

section
/-! PROOFS. The statements of 30_encoding.md. First when a frame decodes, said once by what its words are; the
round trip, its converse and the reserved encodings follow from that. Then the bytes of packed texts, and the
steps by their inputs. -/

namespace Sys2Proof

/-! ## When a frame decodes (R82, R87, R90) -/

/-- The argument words of a frame read as the operands of `i`, with no word left over (R82, R90). EDGE has no
frame (R89). -/
def ReadsOperands (txtMax : Word) (args : List Word) : Instr → Prop
  | .crr _ | .nextlen | .recv => args = []
  | .crw _ v => args = [v]
  | .decode p | .tx _ p | .pt2str p => takePT args = .ok (p, [])
  | .encode id message capacity =>
    ∃ ws, takeTXT txtMax args = .ok (id, ws) ∧ takeTXT txtMax ws = .ok (message, [capacity])
  | .limit ids => takeTXTLIST txtMax args = .ok (ids, [])
  | .str2pt token maxlen => takeTXT txtMax args = .ok (token, [maxlen])
  | .edge _ => False

theorem takeW_eq_ok (ws : List Word) (w : Word) (rest : List Word) :
    takeW ws = .ok (w, rest) ↔ ws = w :: rest := by
  cases ws <;> simp [takeW]

/-- A command word by its fields, OPC as the number that R90's table gives. -/
theorem eq_cmdWord {cmd : Word} {opc : Nat} {sel : BitVec 8} {imm : BitVec 16} (hopc : (opcOf cmd).toNat = opc)
    (hsel : selOf cmd = sel) (himm : immOf cmd = imm) : cmd = cmdWord (BitVec.ofNat 8 opc) sel imm := by
  rw [← hopc, ← hsel, ← himm, BitVec.ofNat_toNat, BitVec.setWidth_eq, cmdWord_fields]

/-- What a reading of a whole frame says: the command word is the command's own, and the rest its operands. -/
theorem parseCommand_ok {txtMax cmd : Word} {args : List Word} {i : Instr}
    (h : parseCommand txtMax cmd args = .ok (i, [])) : cmd = commandWord i ∧ ReadsOperands txtMax args i := by
  unfold parseCommand at h
  split at h
  -- EDGE's opcode, the reserved ones
  case h_11 | h_12 => cases h
  all_goals simp only [needSel0_eq_ok, needImm0_eq_ok, andThen_eq_ok, takeW_eq_ok] at h
  -- CRR
  case h_1 hopc =>
    obtain ⟨himm, h⟩ := h
    cases h
    exact ⟨eq_cmdWord hopc rfl himm, rfl⟩
  -- CRW
  case h_2 hopc =>
    obtain ⟨himm, v, _, hargs, h⟩ := h
    cases h
    exact ⟨eq_cmdWord hopc rfl himm, hargs⟩
  -- NEXTLEN, RECV
  case h_3 hopc | h_4 hopc =>
    obtain ⟨hsel, himm, h⟩ := h
    cases h
    exact ⟨eq_cmdWord hopc hsel himm, rfl⟩
  -- DECODE, LIMIT, PT2STR
  case h_5 hopc | h_8 hopc | h_9 hopc =>
    obtain ⟨hsel, himm, _, _, hargs, h⟩ := h
    cases h
    exact ⟨eq_cmdWord hopc hsel himm, hargs⟩
  -- ENCODE
  case h_6 hopc =>
    obtain ⟨hsel, himm, id, ws, hid, msg, _, hmsg, capacity, _, rfl, h⟩ := h
    cases h
    exact ⟨eq_cmdWord hopc hsel himm, ws, hid, hmsg⟩
  -- TX
  case h_7 hopc =>
    obtain ⟨hsel, p, _, hargs, h⟩ := h
    cases h
    exact ⟨eq_cmdWord hopc hsel rfl, hargs⟩
  -- STR2PT
  case h_10 hopc =>
    obtain ⟨hsel, himm, token, _, htoken, maxlen, _, rfl, h⟩ := h
    cases h
    exact ⟨eq_cmdWord hopc hsel himm, htoken⟩

/-- The command word of `i` before words that read as its operands reads as `i`. -/
theorem parseCommand_commandWord {txtMax : Word} {args : List Word} {i : Instr} (h : ReadsOperands txtMax args i) :
    parseCommand txtMax (commandWord i) args = .ok (i, []) := by
  cases i with
  | edge now => exact h.elim
  | crr | crw =>
    subst h
    simp [parseCommand, commandWord, needImm0]
  | nextlen | recv =>
    subst h
    rfl
  | decode p | tx _ p | pt2str p =>
    have h : takePT args = .ok (p, []) := h
    simp [parseCommand, commandWord, needSel0, needImm0, h]
  | limit ids =>
    have h : takeTXTLIST txtMax args = .ok (ids, []) := h
    simp [parseCommand, commandWord, needSel0, needImm0, h]
  | str2pt token maxlen =>
    have h : takeTXT txtMax args = .ok (token, [maxlen]) := h
    simp [parseCommand, commandWord, needSel0, needImm0, h]
  | encode id msg capacity =>
    obtain ⟨ws, hid, hmsg⟩ := h
    simp [parseCommand, commandWord, needSel0, needImm0, hid, hmsg]

/-- A frame decodes to `i` exactly if its command word is that of `i` and its argument words read as the operands
of `i`. -/
theorem decodeFrame_eq_ok (txtMax cmd : Word) (args : List Word) (i : Instr) :
    decodeFrame txtMax cmd args = .ok i ↔ cmd = commandWord i ∧ ReadsOperands txtMax args i := by
  rw [decodeFrame, wholeFrame_eq_ok]
  refine ⟨parseCommand_ok, ?_⟩
  rintro ⟨rfl, h⟩
  exact parseCommand_commandWord h

/-! ## Operands written and read -/

/-- A command's own argument words read as its operands, if they are within bounds. -/
theorem readsOperands_argumentWords {txtMax : Word} {i : Instr} (hw : i.wellFormed txtMax = true)
    (hc : i.isCommand = true) : ReadsOperands txtMax (argumentWords i) i := by
  cases i with
  | crr | crw | nextlen | recv => rfl
  | decode p | tx _ p | pt2str p => simpa [ReadsOperands, argumentWords] using takePT_encodePT p [] hw
  | encode id msg capacity =>
    obtain ⟨hid, hmsg⟩ := (Bool.and_eq_true _ _).mp hw
    refine ⟨encodeTXT msg ++ [capacity], ?_, takeTXT_encodeTXT txtMax msg _ hmsg⟩
    simpa [argumentWords] using takeTXT_encodeTXT txtMax id (encodeTXT msg ++ [capacity]) hid
  | limit ids => simpa [ReadsOperands, argumentWords] using takeTXTLIST_encode txtMax ids [] hw
  | str2pt token maxlen => exact takeTXT_encodeTXT txtMax token _ hw
  | edge now => cases hc

/-- Operands that are read are within bounds (R87 (d), (e)). -/
theorem ReadsOperands.wellFormed {txtMax : Word} {args : List Word} {i : Instr} (h : ReadsOperands txtMax args i) :
    i.wellFormed txtMax = true := by
  cases i with
  | crr | crw | nextlen | recv => rfl
  | decode p | tx _ p | pt2str p => exact (takePT_ok _ _ _ h).1
  | encode id msg capacity =>
    obtain ⟨ws, hid, hmsg⟩ := h
    exact (Bool.and_eq_true _ _).mpr ⟨takeTXT_ok _ _ _ _ hid, takeTXT_ok _ _ _ _ hmsg⟩
  | limit ids => exact takeTXTLIST_ok _ _ _ _ h
  | str2pt token maxlen => exact takeTXT_ok _ _ _ _ h
  | edge now => exact h.elim

/-- Words that read as the operands of a command without texts are its own. -/
theorem ReadsOperands.eq_argumentWords {txtMax : Word} {args : List Word} {i : Instr}
    (h : ReadsOperands txtMax args i) (hencode : ∀ a b c, i ≠ .encode a b c) (hlimit : ∀ ids, i ≠ .limit ids)
    (hstr2pt : ∀ t m, i ≠ .str2pt t m) : args = argumentWords i := by
  cases i with
  | crr | crw | nextlen | recv => exact h
  | decode p | tx _ p | pt2str p => simpa [argumentWords] using (takePT_ok _ _ _ h).2
  | encode id msg capacity => exact absurd rfl (hencode id msg capacity)
  | limit ids => exact absurd rfl (hlimit ids)
  | str2pt token maxlen => exact absurd rfl (hstr2pt token maxlen)
  | edge now => exact h.elim

theorem decodeFrame_argumentWords {txtMax : Word} {i : Instr} (hw : i.wellFormed txtMax = true)
    (hc : i.isCommand = true) : decodeFrame txtMax (commandWord i) (argumentWords i) = .ok i :=
  (decodeFrame_eq_ok _ _ _ _).mpr ⟨rfl, readsOperands_argumentWords hw hc⟩

/-! ## A greater TXT_MAX (R87 (e)) -/

/-- A greater TXT_MAX refuses no text that a smaller one admits. -/
theorem takeTXT_mono {m m' : Word} (hm : m ≤ m') {ws : List Word} {r : Text × List Word}
    (h : takeTXT m ws = .ok r) : takeTXT m' ws = .ok r := by
  cases ws with
  | nil => exact h
  | cons b ws =>
    have hm : m.toNat ≤ m'.toNat := hm
    simp only [takeTXT] at h ⊢
    split at h
    · cases h
    · rw [if_neg (by omega)]
      exact h

theorem takeTexts_mono {m m' : Word} (hm : m ≤ m') {n : Nat} {ws : List Word} {r : List Text × List Word}
    (h : takeTexts m n ws = .ok r) : takeTexts m' n ws = .ok r := by
  induction n generalizing ws r with
  | zero => exact h
  | succ n ih =>
    simp only [takeTexts] at h ⊢
    split at h
    · cases h
    · next ht =>
      split at h
      · cases h
      · next hts =>
        rw [takeTXT_mono hm ht]
        simp only [ih hts]
        exact h

theorem ReadsOperands.mono {m m' : Word} (hm : m ≤ m') {args : List Word} {i : Instr}
    (h : ReadsOperands m args i) : ReadsOperands m' args i := by
  cases i with
  | crr | crw | nextlen | recv | decode | tx | pt2str | edge => exact h
  | encode id msg capacity =>
    obtain ⟨ws, hid, hmsg⟩ := h
    exact ⟨ws, takeTXT_mono hm hid, takeTXT_mono hm hmsg⟩
  | limit ids =>
    cases args with
    | nil => cases h
    | cons n ws => exact takeTexts_mono hm h
  | str2pt token maxlen => exact takeTXT_mono hm h

/-- A frame that decodes under one TXT_MAX decodes to the same command under a greater one. -/
theorem decodeFrame_mono {m m' : Word} (hm : m ≤ m') {cmd : Word} {args : List Word} {i : Instr}
    (h : decodeFrame m cmd args = .ok i) : decodeFrame m' cmd args = .ok i := by
  rw [decodeFrame_eq_ok] at h ⊢
  obtain ⟨hcmd, hops⟩ := h
  exact ⟨hcmd, hops.mono hm⟩

/-! ## Trace records (R89) -/

theorem decodeTrace_edge (txtMax now : Word) : decodeTrace txtMax [edgeWord, now] = .ok (.edge now) := rfl

/-- A record whose first word is not EDGE's is a frame. -/
theorem decodeTrace_frame {txtMax cmd : Word} {args : List Word} (h : cmd ≠ edgeWord) :
    decodeTrace txtMax (cmd :: args) = decodeFrame txtMax cmd args := by
  rw [decodeTrace, parseTrace, if_neg h, decodeFrame]

/-- A command's word is not EDGE's: the opcodes differ. -/
theorem commandWord_ne_edgeWord {i : Instr} (hc : i.isCommand = true) : commandWord i ≠ edgeWord := by
  intro h
  have hopc := congrArg opcOf h
  rw [show edgeWord = cmdWord 0xFF 0 0 from rfl, opcOf_cmdWord] at hopc
  cases i with
  | edge now => cases hc
  | crr | crw | nextlen | recv | decode | encode | tx | limit | pt2str | str2pt =>
    rw [commandWord, opcOf_cmdWord] at hopc
    exact absurd hopc (by decide)

/-- The records that decode: EDGE's word and a CLOCK value, or a frame that decodes. -/
theorem decodeTrace_ok_cases {txtMax : Word} {ws : List Word} {i : Instr} (h : decodeTrace txtMax ws = .ok i) :
    (∃ now, ws = [edgeWord, now] ∧ i = .edge now) ∨
    (∃ cmd args, ws = cmd :: args ∧ cmd ≠ edgeWord ∧ decodeFrame txtMax cmd args = .ok i) := by
  cases ws with
  | nil => cases h
  | cons cmd args =>
    by_cases he : cmd = edgeWord
    · subst he
      rw [decodeTrace, wholeFrame_eq_ok, parseTrace, if_pos rfl, andThen_eq_ok] at h
      obtain ⟨now, ws, hargs, h⟩ := h
      cases h
      exact .inl ⟨now, by rw [(takeW_eq_ok _ _ _).mp hargs], rfl⟩
    · exact .inr ⟨cmd, args, rfl, he, decodeTrace_frame he ▸ h⟩

/-- Settles O1: a command's words are its command word and words that read as its operands; EDGE's record is its
word and the CLOCK value. -/
theorem decodeEncodeRoundTrip : Obligations.DecodeEncodeRoundTrip := by
  intro txtMax i hw
  refine ⟨?_, decodeFrame_argumentWords hw⟩
  by_cases hc : i.isCommand = true
  · exact (decodeTrace_frame (commandWord_ne_edgeWord hc)).trans (decodeFrame_argumentWords hw hc)
  · cases i with
    | edge now => exact decodeTrace_edge txtMax now
    | crr | crw | nextlen | recv | decode | encode | tx | limit | pt2str | str2pt => exact absurd rfl hc

/-- Settles O2: the words of each text carry it with any padding, all other words are the command's own. -/
theorem decodedFrameIsItsEncoding : Obligations.DecodedFrameIsItsEncoding := by
  intro txtMax cmd args i h
  obtain ⟨hcmd, hops⟩ := (decodeFrame_eq_ok _ _ _ _).mp h
  refine ⟨hops.wellFormed, decodeFrame_isCommand _ _ _ _ h, hcmd, ?_, ?_, ?_, hops.eq_argumentWords⟩
  · rintro id msg capacity rfl
    obtain ⟨ws, hid, hmsg⟩ := hops
    obtain ⟨w1, rfl, hw1⟩ := Machine.takeTXT_carries _ _ _ _ hid
    obtain ⟨w2, rfl, hw2⟩ := Machine.takeTXT_carries _ _ _ _ hmsg
    exact ⟨w1, w2, (List.append_assoc w1 w2 _).symm, hw1, hw2⟩
  · rintro ids rfl
    obtain ⟨items, hargs, hitems⟩ := Machine.takeTXTLIST_carries _ _ _ _ hops
    exact ⟨items, by simpa using hargs, hitems⟩
  · rintro token maxlen rfl
    exact Machine.takeTXT_carries _ _ _ _ hops

/-- Settles O3: each written word is the command word of its instruction, so the round trip gives it back. -/
theorem writtenWordsDecode : Obligations.WrittenWordsDecode :=
  ⟨decodeFrame_argumentWords (i := .crr 2) rfl rfl, decodeFrame_argumentWords (i := .crw 0 0xFFFFFFFF) rfl rfl,
    decodeFrame_argumentWords (i := .nextlen) rfl rfl, decodeFrame_argumentWords (i := .recv) rfl rfl,
    decodeFrame_argumentWords (i := .decode [300, 900]) rfl rfl,
    decodeFrame_argumentWords (i := .encode [0x74, 0x70] [0x7B, 0x7D] 255) rfl rfl,
    decodeFrame_argumentWords (i := .tx 2 [500, 1000]) rfl rfl,
    decodeFrame_argumentWords (i := .limit [[0x74, 0x71], [0x74, 0x71]]) rfl rfl,
    decodeFrame_argumentWords (i := .pt2str [300, 310, 9000, 305]) rfl rfl,
    decodeFrame_argumentWords (i := .str2pt [0x63, 0x3A, 0x3B, 0x70, 0x3A, 0x40] 9) rfl rfl,
    decodeTrace_edge 255 0x1234⟩

/-! ## The bytes of packed texts (R83) -/

/-- Byte `r` of a data word is bits 8r + 7 to 8r. -/
theorem getElem?_unpackWord (w : Word) {r : Nat} (h : r < 4) :
    (unpackWord w)[r]? = some (w.extractLsb' (8 * r) 8) := by
  obtain rfl | rfl | rfl | rfl : r = 0 ∨ r = 1 ∨ r = 2 ∨ r = 3 := by omega
  all_goals rfl

/-- Byte `i` of a list of data words lies in word ⌊i / 4⌋. -/
theorem getElem?_flatMap_unpackWord (ws : List Word) (i : Nat) :
    (ws.flatMap unpackWord)[i]? = ws[i / 4]?.map fun w => w.extractLsb' (8 * (i % 4)) 8 := by
  induction ws generalizing i with
  | nil => simp
  | cons w ws ih =>
    have hlen : (unpackWord w).length = 4 := rfl
    rw [List.flatMap_cons]
    by_cases hi : i < 4
    · rw [List.getElem?_append_left (hlen ▸ hi), getElem?_unpackWord w hi, Nat.div_eq_of_lt hi,
        Nat.mod_eq_of_lt hi]
      rfl
    · obtain ⟨k, rfl⟩ := Nat.exists_eq_add_of_le' (Nat.le_of_not_lt hi)
      rw [List.getElem?_append_right (hlen ▸ Nat.le_add_left 4 k), hlen, Nat.add_sub_cancel, ih,
        Nat.add_div_right k (by decide), Nat.add_mod_right, List.getElem?_cons_succ]

/-- The packed words of a text hold its bytes, then padding bytes 0x00. -/
theorem flatMap_unpackWord_packText (t : Text) :
    ∃ k, (packText t).flatMap unpackWord = t ++ List.replicate k 0 := by
  induction t using packText.induct with
  | case1 => exact ⟨0, rfl⟩
  | case2 a => exact ⟨3, by simp [packText, unpackWord_packWord, List.replicate]⟩
  | case3 a b => exact ⟨2, by simp [packText, unpackWord_packWord, List.replicate]⟩
  | case4 a b c => exact ⟨1, by simp [packText, unpackWord_packWord]⟩
  | case5 a b c d rest ih =>
    obtain ⟨k, ih⟩ := ih
    exact ⟨k, by simp [packText, unpackWord_packWord, ih]⟩

/-- Byte `i` of a text, or 0x00 beyond its end, stands in its packed words. -/
theorem packText_byte {t : Text} {i : Nat} {w : Word} (h : (packText t)[i / 4]? = some w) :
    w.extractLsb' (8 * (i % 4)) 8 = t.getD i 0 := by
  have hbyte := getElem?_flatMap_unpackWord (packText t) i
  obtain ⟨k, hk⟩ := flatMap_unpackWord_packText t
  rw [h, hk, Option.map_some] at hbyte
  rw [List.getD_eq_getElem?_getD]
  by_cases hi : i < t.length
  · rw [List.getElem?_append_left hi] at hbyte
    rw [hbyte, Option.getD_some]
  · rw [List.getElem?_append_right (Nat.le_of_not_lt hi)] at hbyte
    rw [List.getElem?_eq_none (Nat.le_of_not_lt hi), Option.getD_none]
    exact List.eq_of_mem_replicate (List.mem_of_getElem? hbyte)

/-- Settles O5: a text's bytes are those of its packed words, and reading cuts the bytes of the words at `b`. -/
theorem textPackingLittleEndian : Obligations.TextPackingLittleEndian := by
  refine ⟨fun t => ⟨packText_length t, fun i w => packText_byte⟩, fun b ws i w hi hw => ?_, unpackText_length⟩
  rw [unpackText, List.getElem?_take_of_lt hi, getElem?_flatMap_unpackWord, hw, Option.map_some]

end Sys2Proof

namespace Sys2Proof.Machine

/-- Settles O6: word 0 of a DEC record for each status, and of a RAW record; the rest is `recordFrame`. -/
theorem evtRecordWords : Obligations.EvtRecordWords :=
  ⟨fun _ _ _ _ => ⟨rfl, rfl, rfl, rfl⟩, fun _ => rfl⟩

/-! ## Reserved encodings and operands out of bounds (R87, R91) -/

/-- The command words R90 admits: an assigned opcode, SEL 0 but for CRR and CRW, IMM 0 but for TX. -/
theorem commandWord_fields {i : Instr} (hc : i.isCommand = true) :
    (opcOf (commandWord i)).toNat ∈ [0x01, 0x02, 0x10, 0x11, 0x20, 0x30, 0x31, 0x40, 0x50, 0x51] ∧
    ((opcOf (commandWord i)).toNat ∉ [0x01, 0x02] → selOf (commandWord i) = 0) ∧
    ((opcOf (commandWord i)).toNat ≠ 0x31 → immOf (commandWord i) = 0) := by
  cases i with
  | edge now => cases hc
  | crr | crw | nextlen | recv | decode | encode | tx | limit | pt2str | str2pt => simp [commandWord]

theorem readCR_reserved (s : State) {n : BitVec 8} (h : 12 < n.toNat) : readCR s n = none := by
  unfold readCR
  split
  case h_14 => rfl
  all_goals omega

theorem writeCR_reserved (s : State) {n : BitVec 8} (v : Word) (h : 4 < n.toNat) : writeCR s n v = none := by
  unfold writeCR
  split
  case h_6 => rfl
  all_goals omega

/-- Settles O4: no command has such a word, and CRR and CRW decode whatever register they name. -/
theorem reservedEncodingsAnswered : Obligations.ReservedEncodingsAnswered := by
  intro s cmd args rest hin
  refine ⟨fun hres => ?_, fun hopc himm hargs hsel => ?_, fun hopc himm hargs hsel => ?_⟩
  · cases hd : decodeFrame s.cfg.txtMax cmd args with
    | error e => exact step_illegal hin hd
    | ok i =>
      obtain ⟨rfl, _⟩ := (decodeFrame_eq_ok _ _ _ _).mp hd
      obtain ⟨hassigned, hsel, himm⟩ := commandWord_fields (decodeFrame_isCommand _ _ _ _ hd)
      rcases hres with h | ⟨h, hne⟩ | ⟨h, hne⟩
      · exact absurd hassigned h
      · exact absurd (hsel h) hne
      · exact absurd (himm h) hne
  · have hcmd : cmd = commandWord (.crr (selOf cmd)) := eq_cmdWord (congrArg BitVec.toNat hopc) rfl himm
    rw [step_command hin ((decodeFrame_eq_ok _ _ _ _).mpr ⟨hcmd, hargs⟩), exec, execCrr, readCR_reserved _ hsel]
  · obtain ⟨v, hv⟩ := List.length_eq_one_iff.mp hargs
    have hcmd : cmd = commandWord (.crw (selOf cmd) v) := eq_cmdWord (congrArg BitVec.toNat hopc) rfl himm
    rw [step_command hin ((decodeFrame_eq_ok _ _ _ _).mpr ⟨hcmd, hv⟩), exec, execCrw,
      writeCR_reserved _ _ (by omega)]

theorem onWellFormed_of_false {i : Instr} {s : State} (h : i.wellFormed s.cfg.txtMax = false)
    (run : Host.Outcome State Fault Refusal) : onWellFormed i s run = .next (answerError .illegal s) := by
  rcases onWellFormed_cases i s run with ⟨hw, _⟩ | ⟨_, e⟩
  · rw [h] at hw
    cases hw
  · exact e

/-- Settles O10: only instructions that run under `onWellFormed` can have operands out of bounds. -/
theorem oversizedOperandsIllegal : Obligations.OversizedOperandsIllegal := by
  intro s i h
  cases i with
  | crr | crw | nextlen | recv | edge => cases h
  | decode | encode | tx | limit | pt2str | str2pt => exact onWellFormed_of_false h _

/-! ## Steps by their inputs (R80, R89) -/

theorem recordInput_frame {cmd : Word} (h : cmd ≠ edgeWord) (args : List Word) :
    recordInput (cmd :: args) = .frame cmd args := by
  cases args with
  | nil => rfl
  | cons v args => rw [recordInput, if_neg fun he => h he.1]

/-- A record that decodes, delivered as the next input, runs its instruction as the next step. -/
theorem step_recordInput (s : State) {ws : List Word} {i : Instr} (h : decodeTrace 0 ws = .ok i) :
    step { s with inputs := recordInput ws :: s.inputs } = exec i s := by
  rcases decodeTrace_ok_cases h with ⟨now, rfl, rfl⟩ | ⟨cmd, args, rfl, hne, hd⟩
  · exact step_edge rfl
  · rw [recordInput_frame hne]
    exact step_command rfl (decodeFrame_mono (Nat.zero_le s.cfg.txtMax.toNat) hd)

/-- Settles O9: a table word is a record, and what decodes it with TXT_MAX 0 decodes it under any. -/
theorem tableWordRunsNext : Obligations.TableWordRunsNext := by
  intro s nbits w i h
  unfold decodeTableWord at h
  split at h
  · next hd =>
    cases h
    exact step_recordInput s hd
  · cases h

/-- Settles O11: a command that runs and a refused frame each add one result frame, the sampler none. -/
theorem oneResultPerFrame : Obligations.OneResultPerFrame := by
  intro s t rest h
  refine ⟨fun cmd args hin => ?_, fun now hin => ?_⟩ <;>
    rcases step_next_cases h with ⟨hin', _⟩ | ⟨_, _, _, i, hin', _, hc, hx⟩ | ⟨_, _, _, hin', rfl⟩ |
      ⟨_, _, hin', rfl⟩ | ⟨_, hin', _⟩ <;> cases hin.symm.trans hin'
  · have keeps := exec_keeps i _ t hc hx
    exact ⟨keeps.inputs, keeps.results⟩
  · exact ⟨rfl, _, rfl⟩
  · rw [edgeStep_only_sampler]
    exact ⟨rfl, rfl⟩

end Sys2Proof.Machine
end

section
/-! PROOFS. The statements of 40_control.md: what CRW stores, what it refuses, and who moves the cursors. -/

namespace Sys2Proof.Machine

/-! ## CRR and CRW by the register -/

/-- CRR of a number without a register answers E_OPERAND (R121). -/
theorem exec_crr_of_readCR_none {s : State} {n : BitVec 8} (h : readCR s n = none) :
    exec (.crr n) s = .next (answerError .operand s) := by
  rw [exec, execCrr, h]

/-- CRW of a number without a writable register answers E_OPERAND (R121, R123). -/
theorem exec_crw_of_writeCR_none {s : State} {n : BitVec 8} {v : Word} (h : writeCR s n v = none) :
    exec (.crw n v) s = .next (answerError .operand s) := by
  rw [exec, execCrw, h]

/-- CRW of a writable register answers RES = 0 (R122). -/
theorem exec_crw_of_writeCR {s u : State} {n : BitVec 8} {v : Word} (h : writeCR s n v = some u) :
    exec (.crw n v) s = .next (answer 0 [] u) := by
  rw [exec, execCrw, h]

/-- Settles O17: no register, readable or writable, has such a number. -/
theorem reservedRegisterRefused : Obligations.ReservedRegisterRefused := fun s _ v h =>
  ⟨exec_crr_of_readCR_none (readCR_reserved s h), exec_crw_of_writeCR_none (writeCR_reserved s v (by omega))⟩

/-! ## RXEN (R124) -/

/-- An edge at a disabled sampler is dropped (R141). -/
theorem edgeStep_of_disabled (now : Word) {s : State} (h : s.rxEn = false) : edgeStep now s = s :=
  edgeStep_of_not_accepted s now fun ha => Bool.false_ne_true (h.symm.trans ((edgeAccepted_iff s).mp ha).1)

theorem runEdges_of_disabled (nows : List Word) {s : State} (h : s.rxEn = false) : runEdges nows s = s := by
  induction nows with
  | nil => rfl
  | cons now nows ih => rw [runEdges_cons, edgeStep_of_disabled now h, ih]

/-- Settles O19: CRW stores bit 0 and nothing else, and a disabled sampler drops each edge in turn. -/
theorem crwRxenChangesOnlyEn : Obligations.CrwRxenChangesOnlyEn :=
  ⟨fun _ _ => exec_crw_of_writeCR rfl, fun _ nows h => runEdges_of_disabled nows h⟩

/-! ## The stored value and its read-back (R125, R126) -/

/-- What a register holds after the write is what it reads after CRW. -/
theorem readCR_of_crw {s t u : State} {n : BitVec 8} {v w : Word} (hw : writeCR s n v = some u)
    (hr : readCR u n = some w) (h : exec (.crw n v) s = .next t) : readCR t n = some w := by
  cases (exec_crw_of_writeCR hw).symm.trans h
  exact hr

/-- RXEN keeps bit 0 of the value written (R124). -/
theorem rxenWord_write (s : State) (v : Word) : rxenWord { s with rxEn := v.getLsbD 0 } = v &&& 1 :=
  BitVec.and_one_eq_setWidth_ofBool_getLsbD.symm

/-- CBEN keeps bits 0 and 1 of the value written (R125). -/
theorem cbenWord_write (s : State) (v : Word) :
    cbenWord { s with cbDec := v.getLsbD 0, cbRaw := v.getLsbD 1 } = v &&& 3 := by
  unfold cbenWord
  apply BitVec.eq_of_getLsbD_eq
  intro i _
  rw [BitVec.getLsbD_setWidth, BitVec.getLsbD_append, BitVec.getLsbD_and]
  match i with
  | 0 => simp
  | 1 => simp
  | i + 2 =>
    have hmask : (3#32).getLsbD (i + 2) = false := by
      simp [BitVec.getLsbD_ofNat, Nat.testBit_succ]
    simp [hmask]

/-- MINGAPLEN, MINRAWLEN and MAXRAWLEN hold the whole value written (R126). -/
theorem readCR_writeCR_lengths (s : State) {n : BitVec 8} (v : Word) (h2 : 2 ≤ n.toNat) (h4 : n.toNat ≤ 4) :
    ∃ u, writeCR s n v = some u ∧ readCR u n = some v := by
  unfold writeCR readCR
  obtain h | h | h : n.toNat = 2 ∨ n.toNat = 3 ∨ n.toNat = 4 := by omega
  all_goals
    rw [h]
    exact ⟨_, rfl, rfl⟩

/-- Settles O20: each write by its register, each read-back by what the register holds after the write. -/
theorem crwWritesConfiguration : Obligations.CrwWritesConfiguration := by
  intro s v
  refine ⟨exec_crw_of_writeCR rfl, exec_crw_of_writeCR rfl, exec_crw_of_writeCR rfl, exec_crw_of_writeCR rfl,
    fun t h => ?_, fun t h => ?_, fun n t h2 h4 h => ?_⟩
  · exact readCR_of_crw rfl (congrArg some (rxenWord_write s v)) h
  · exact readCR_of_crw rfl (congrArg some (cbenWord_write s v)) h
  · obtain ⟨u, hw, hr⟩ := readCR_writeCR_lengths s v h2 h4
    exact readCR_of_crw hw hr h

/-! ## The cursors (R123) -/

/-- RECV leaves CONS, or moves it to the next slot (R161). -/
theorem recvStep_cons_cases (s : State) : (recvStep s).cons = s.cons ∨ (recvStep s).cons = nextSlot s.cons :=
  (recvStep_cases s).imp (fun ⟨_, e⟩ => by rw [e]; rfl) fun ⟨_, e⟩ => by rw [e]; rfl

/-- An edge leaves PROD, or moves it to the next slot (R144). -/
theorem edgeStep_prod_cases (now : Word) (s : State) :
    (edgeStep now s).prod = s.prod ∨ (edgeStep now s).prod = nextSlot s.prod := by
  rcases edgeStep_cases now s with ⟨e, _⟩ | ⟨_, _, ⟨_, e⟩ | ⟨_, ⟨_, e⟩ | ⟨_, ⟨_, e⟩ | ⟨_, e⟩⟩⟩⟩ <;> rw [e]
  · exact .inl rfl
  · exact .inl rfl
  · exact .inl rfl
  · exact .inr (closedState_prod now s)
  · exact .inl rfl

theorem edgeStep_cons_reg (now : Word) (s : State) : (edgeStep now s).cons = s.cons := by
  rw [edgeStep_only_sampler]

/-- A command leaves PROD, and a command that moves CONS is RECV and moves it to the next slot (R161). -/
theorem exec_cursors {i : Instr} {s t : State} (hc : i.isCommand = true) (h : exec i s = .next t) :
    t.prod = s.prod ∧ (t.cons ≠ s.cons → t.cons = nextSlot s.cons ∧ i = .recv) := by
  rcases exec_ring_cases hc h with ⟨hi, rfl⟩ | ⟨_, _, hprod, hcons, _⟩
  · exact ⟨recvStep_prod s, fun hne => ⟨(recvStep_cons_cases s).resolve_left hne, hi⟩⟩
  · exact ⟨hprod, fun hne => absurd hcons hne⟩

/-- Settles O18: CRW of registers 5 to 12 writes none, an edge moves PROD alone, a command CONS alone. -/
theorem cursorsHaveOneOwner : Obligations.CursorsHaveOneOwner := by
  refine ⟨fun s n v h5 _ => exec_crw_of_writeCR_none (writeCR_reserved s v h5), ?_⟩
  intro s t i rest hin hreset h
  rcases step_next_cases h with ⟨hin', _⟩ | ⟨cmd, args, rest', c, hin', hd, hc, hx⟩ | ⟨_, _, _, hin', rfl⟩ |
    ⟨now, rest', hin', rfl⟩ | ⟨rest', hin', _⟩ <;> cases hin.symm.trans hin'
  · obtain ⟨hprod, hcons⟩ := exec_cursors hc hx
    refine ⟨fun hne => absurd hprod hne, fun hne => ?_⟩
    obtain ⟨hnext, rfl⟩ := hcons hne
    exact ⟨hnext, cmd, args, rfl, hd⟩
  · exact ⟨fun hne => absurd rfl hne, fun hne => absurd rfl hne⟩
  · have hprod := edgeStep_prod_cases now { s with inputs := rest }
    have hcons := edgeStep_cons_reg now { s with inputs := rest }
    exact ⟨fun hne => ⟨hprod.resolve_left hne, now, rfl⟩, fun hne => absurd hcons hne⟩
  · exact absurd rfl hreset

end Sys2Proof.Machine
end

section
/-! PROOFS. The statements of 41_sampler.md: one edge by its gates and filters (R141 to R146), then edges given by
their durations. The edges below the gap threshold keep an invariant, `Capturing`: the train in progress is what
the wrapping count leaves of the durations so far (R147). The gap edge then closes or discards that train. -/

namespace Sys2Proof.Machine

open Sys2Proof.Config (nslots cap)

/-! ## One edge by its duration (R140 to R146) -/

/-- Settles O21: such an edge is not accepted. -/
theorem edgeGatedChangesNothing : Obligations.EdgeGatedChangesNothing := fun _ now h =>
  congrArg Host.Outcome.next (h.elim (edgeStep_of_disabled now) (edgeStep_of_parked now))

/-- A glitch changes nothing (R146). -/
theorem edgeStep_of_glitch {now : Word} {s : State} (h : elapsed now s.lastEdge ≤ s.cfg.minPulse) :
    edgeStep now s = s := by
  rw [edgeStep_eq, if_neg fun hd => BitVec.not_lt.mpr h hd.2]

section
variable {now : Word} {s : State} (ha : edgeAccepted s = true)
include ha

/-- A duration that is too long becomes the baseline and is not stored (R145). -/
theorem edgeStep_of_overlong (hmin : s.cfg.minPulse < elapsed now s.lastEdge)
    (hmax : s.cfg.maxPulse ≤ elapsed now s.lastEdge) : edgeStep now s = movedState now s := by
  rw [edgeStep_eq, if_pos ⟨ha, hmin⟩, if_neg (BitVec.not_lt.mpr hmax)]

variable (hd : Stored s (elapsed now s.lastEdge))
include hd

/-- What an accepted edge within the filters does, by the gap threshold and the counted length (R142 to R144). -/
theorem edgeStep_of_stored :
    edgeStep now s =
      if s.minGapLen < elapsed now s.lastEdge then
        if gapCloses s then closedState now s else discardedState now s
      else storedState now s := by
  obtain ⟨hmin, hmax⟩ := hd
  rw [edgeStep_eq, if_pos ⟨ha, hmin⟩, if_pos hmax]

theorem edgeStep_of_subgap (hg : elapsed now s.lastEdge ≤ s.minGapLen) : edgeStep now s = storedState now s := by
  rw [edgeStep_of_stored ha hd, if_neg (BitVec.not_lt.mpr hg)]

theorem edgeStep_of_gap (hg : s.minGapLen < elapsed now s.lastEdge) :
    edgeStep now s = if gapCloses s then closedState now s else discardedState now s := by
  rw [edgeStep_of_stored ha hd, if_pos hg]

/-- A gap starts a fresh train, closed or not (R143). -/
theorem edgeStep_nrPulses_of_gap (hg : s.minGapLen < elapsed now s.lastEdge) :
    (edgeStep now s).nrPulses.val = 0 := by
  rw [edgeStep_of_gap ha hd hg]
  split
  · rw [closedState_nrPulses]
  · rw [discardedState_nrPulses]

/-- An edge within the filters writes its duration at (PROD, NRPULSES) and no other word (R142). -/
theorem memRead_edgeStep_of_stored (k : Fin nslots) (i : Nat) :
    memRead (edgeStep now s) k i =
      if k = s.prod ∧ i = s.nrPulses.val then elapsed now s.lastEdge else memRead s k i := by
  rw [edgeStep_of_stored ha hd]
  split
  · split
    · exact memRead_closedState now s k i
    · exact memRead_discardedState now s k i
  · exact memRead_storedState now s k i

end

/-- Settles O22: the glitch fails the first filter, the over-long duration the second alone. -/
theorem edgeRejectedByFilters : Obligations.EdgeRejectedByFilters := by
  intro s now hadm hen h0
  have ha := (edgeAccepted_iff s).mpr ⟨hen, h0⟩
  refine ⟨fun h => congrArg Host.Outcome.next (edgeStep_of_glitch h), fun h => ?_⟩
  obtain ⟨hfilters, _⟩ := hadm
  have hmin : s.cfg.minPulse < now - s.lastEdge := Nat.lt_of_lt_of_le hfilters h
  exact congrArg Host.Outcome.next (edgeStep_of_overlong ha hmin h)

/-- Settles O23: the write, then the three outcomes: stored below the threshold, closed or discarded at a gap. -/
theorem edgeStoresPulse : Obligations.EdgeStoresPulse := by
  intro s now hen h0 hd
  have ha := (edgeAccepted_iff s).mpr ⟨hen, h0⟩
  refine ⟨edgeStep now s, rfl, edgeStep_lastEdge ha hd.1, ?_, fun hg => ?_, fun hg =>
    ⟨edgeStep_nrPulses_of_gap ha hd hg, fun hq => ?_, fun hq => ?_⟩⟩
  · rw [memRead_edgeStep_of_stored ha hd, if_pos ⟨rfl, rfl⟩]
  · rw [edgeStep_of_subgap ha hd hg]
    exact ⟨rfl, rfl, (congrArg Fin.val (lenRead_storedState now s s.prod)).trans h0⟩
  · rw [edgeStep_of_gap ha hd hg, if_pos hq, lenRead_closedState, if_pos rfl, closedState_prod]
    exact ⟨rfl, rfl⟩
  · rw [edgeStep_of_gap ha hd hg, if_neg hq]
    exact ⟨(congrArg Fin.val (lenRead_discardedState now s s.prod)).trans h0, rfl⟩

/-! ## The frame of EDGE -/

/-- The one word an edge may write is the one at (PROD, NRPULSES). -/
theorem memRead_edgeStep_ne (now : Word) {s : State} {k : Fin nslots} {i : Nat}
    (h : k ≠ s.prod ∨ i ≠ s.nrPulses.val) : memRead (edgeStep now s) k i = memRead s k i := by
  have hne : ¬ (k = s.prod ∧ i = s.nrPulses.val) := not_and_or.mpr h
  rcases edgeStep_cases now s with ⟨e, _⟩ | ⟨ha, hmin, ⟨_, e⟩ | ⟨hmax, _⟩⟩
  · rw [e]
  · rw [e]
    rfl
  · rw [memRead_edgeStep_of_stored ha ⟨hmin, hmax⟩, if_neg hne]

/-- The one length an edge may write is the one of the slot at PROD. -/
theorem lenRead_edgeStep_ne (now : Word) {s : State} {k : Fin nslots} (h : k ≠ s.prod) :
    lenRead (edgeStep now s) k = lenRead s k := by
  rcases edgeStep_cases now s with ⟨e, _⟩ | ⟨_, _, ⟨_, e⟩ | ⟨_, ⟨_, e⟩ | ⟨_, ⟨_, e⟩ | ⟨_, e⟩⟩⟩⟩ <;> rw [e]
  · rfl
  · exact lenRead_storedState now s k
  · rw [lenRead_closedState, if_neg h]
  · exact lenRead_discardedState now s k

/-- Settles O24: the four fields the sampler owns, and of RING the word and the length it may write. -/
theorem edgeFrame : Obligations.EdgeFrame := fun s now =>
  ⟨edgeStep now s, rfl, edgeStep_only_sampler now s, fun _ _ => memRead_edgeStep_ne now,
    fun _ => lenRead_edgeStep_ne now⟩

/-! ## What the count modulo CAP leaves of a train (R147) -/

/-- The last `length mod CAP` pulses of a train. -/
def lastPulses (T : Train) : Train := T.drop (T.length - T.length % cap)

@[simp] theorem lastPulses_length (T : Train) : (lastPulses T).length = T.length % cap := by
  rw [lastPulses, List.length_drop, Nat.sub_sub_self (Nat.mod_le _ _)]

/-- A train below CAP is left whole. -/
theorem lastPulses_of_lt {T : Train} (h : T.length < cap) : lastPulses T = T := by
  rw [lastPulses, Nat.mod_eq_of_lt h, Nat.sub_self, List.drop_zero]

/-- One more pulse is one more left, until they are CAP and none is left. -/
theorem lastPulses_concat (T : Train) (d : Word) :
    lastPulses (T ++ [d]) = if T.length % cap + 1 = cap then [] else lastPulses T ++ [d] := by
  unfold lastPulses
  rw [List.length_append, List.length_singleton, cap_eq]
  split
  · refine List.drop_eq_nil_of_le ?_
    rw [List.length_append, List.length_singleton]
    omega
  · next hno =>
    have hstart : T.length + 1 - (T.length + 1) % 255 = T.length - T.length % 255 := by omega
    rw [hstart, List.drop_append_of_le_length (Nat.sub_le _ _)]

/-- A stored duration joins the train in progress, until that would hold CAP and a fresh one starts (R142). -/
theorem inProgress_storedState (now : Word) (s : State) :
    inProgress (storedState now s) =
      if s.nrPulses.val + 1 = cap then [] else inProgress s ++ [elapsed now s.lastEdge] := by
  have hlt := s.nrPulses.isLt
  unfold inProgress
  rw [storedState_prod, storedState_nrPulses, nextCount_val]
  split
  · next hwrap => rw [hwrap, Nat.mod_self]; rfl
  · next hno =>
    have hkeep : copyOut (storedState now s) s.prod s.nrPulses.val = copyOut s s.prod s.nrPulses.val :=
      copyOut_congr _ s s.prod s.prod _ fun i hi => by
        rw [memRead_storedState, if_neg fun h => absurd h.2 hi.ne]
    rw [Nat.mod_eq_of_lt (Nat.lt_of_le_of_ne hlt hno), copyOut_succ, hkeep, memRead_storedState,
      if_pos ⟨rfl, rfl⟩]

/-- A closed slot holds the train in progress with the gap duration stored (R144). -/
theorem trainAt_closedState (now : Word) (s : State) :
    trainAt (closedState now s) s.prod = inProgress (storedState now s) := by
  unfold trainAt inProgress
  rw [lenRead_closedState, if_pos rfl]
  exact copyOut_congr _ _ _ _ _ fun i _ => by rw [memRead_closedState, storedState_prod, memRead_storedState]

/-! ## Edges below the gap threshold -/

/-- The last of the edges at given durations falls their sum after the baseline. -/
theorem edgeTimes_concat (t : Word) (ds : List Word) (g : Word) :
    edgeTimes t (ds ++ [g]) = edgeTimes t ds ++ [t + ds.sum + g] := by
  induction ds generalizing t with
  | nil => simp [edgeTimes]
  | cons d ds ih => simp [edgeTimes, ih, BitVec.add_assoc]

@[simp] theorem edgeTimes_length (t : Word) (ds : List Word) : (edgeTimes t ds).length = ds.length := by
  induction ds generalizing t with
  | nil => rfl
  | cons d ds ih => simp [edgeTimes, ih]

/-- The sampler, set up as in `s`, has stored the durations `ds` since `s`, and no gap. -/
structure Capturing (s : State) (ds : Train) (t : State) : Prop where
  setup : SameOffSampler s t
  prod : t.prod = s.prod
  empty : lenRead t s.prod = lenRead s s.prod
  baseline : t.lastEdge = s.lastEdge + ds.sum
  held : inProgress t = lastPulses ds

/-- With no pulse counted, the train in progress is empty. -/
theorem Capturing.refl {s : State} (h : s.nrPulses.val = 0) : Capturing s [] s where
  setup := rfl
  prod := rfl
  empty := rfl
  baseline := by simp
  held := by rw [inProgress, h]; rfl

section
variable {s t : State} {ds : Train} (h : Capturing s ds t)
include h

theorem Capturing.nrPulses : t.nrPulses.val = ds.length % cap := by
  have hlen := congrArg List.length h.held
  rwa [lastPulses_length, inProgress, copyOut_length] at hlen

/-- The sampler is enabled, configured and bounded as in `s`. -/
theorem Capturing.config : t.cfg = s.cfg ∧ t.rxEn = s.rxEn ∧ t.minGapLen = s.minGapLen ∧
    t.minRawLen = s.minRawLen ∧ t.maxRawLen = s.maxRawLen := by
  rw [show t = _ from h.setup]
  exact ⟨rfl, rfl, rfl, rfl, rfl⟩

theorem Capturing.accepted (hs : edgeAccepted s = true) : edgeAccepted t = true := by
  obtain ⟨hen, h0⟩ := (edgeAccepted_iff s).mp hs
  rw [edgeAccepted_iff, h.prod, h.empty]
  obtain ⟨_, hrx, _⟩ := h.config
  exact ⟨hrx.trans hen, h0⟩

theorem Capturing.stored {d : Word} (hd : Stored s d) : Stored t (elapsed (t.lastEdge + d) t.lastEdge) := by
  obtain ⟨hcfg, _⟩ := h.config
  unfold Stored
  rwa [elapsed_add, hcfg]

theorem Capturing.le_minGapLen {d : Word} (hd : d ≤ s.minGapLen) :
    elapsed (t.lastEdge + d) t.lastEdge ≤ t.minGapLen := by
  obtain ⟨_, _, hgap, _⟩ := h.config
  rwa [elapsed_add, hgap]

theorem Capturing.minGapLen_lt {d : Word} (hd : s.minGapLen < d) :
    t.minGapLen < elapsed (t.lastEdge + d) t.lastEdge := by
  obtain ⟨_, _, hgap, _⟩ := h.config
  rwa [elapsed_add, hgap]

/-- Whether a gap closes its train depends on how many durations came before it, modulo CAP. -/
theorem Capturing.gapCloses_iff : gapCloses t ↔
    s.minRawLen.toNat ≤ (ds.length + 1) % cap ∧ (ds.length + 1) % cap ≤ s.maxRawLen.toNat := by
  obtain ⟨_, _, _, hlo, hhi⟩ := h.config
  unfold gapCloses
  rw [h.nrPulses, Nat.mod_add_mod, hlo, hhi]

/-- Storing a duration carries the invariant on. -/
theorem Capturing.concat (d : Word) : Capturing s (ds ++ [d]) (storedState (t.lastEdge + d) t) where
  setup := h.setup.trans rfl
  prod := h.prod
  empty := (lenRead_storedState _ t s.prod).trans h.empty
  baseline := by
    rw [storedState_lastEdge, h.baseline, List.sum_append, List.sum_singleton, BitVec.add_assoc]
  held := by rw [inProgress_storedState, lastPulses_concat, h.nrPulses, h.held, elapsed_add]

end

/-- Edges below the gap threshold are stored, one after the other (R142). -/
theorem capturing_runEdges {s : State} {ds : Train} (ha : edgeAccepted s = true) (h0 : s.nrPulses.val = 0)
    (hds : ∀ d ∈ ds, Stored s d ∧ d ≤ s.minGapLen) :
    Capturing s ds (runEdges (edgeTimes s.lastEdge ds) s) := by
  induction ds using List.reverseRecOn with
  | nil => exact .refl h0
  | append_singleton ds d ih =>
    have ih := ih fun x hx => hds x (List.mem_append_left [d] hx)
    obtain ⟨hd, hsub⟩ := hds d (List.mem_append_right ds (List.mem_singleton_self d))
    have hnext := ih.concat d
    rw [edgeTimes_concat, runEdges_append, runEdges_cons, runEdges_nil, ← ih.baseline]
    rwa [edgeStep_of_subgap (ih.accepted ha) (ih.stored hd) (ih.le_minGapLen hsub)]

/-! ## The gap edge -/

/-- The edges of a train are the edges below the gap threshold, then the gap edge. -/
theorem exists_capturing_runEdges {s : State} {ds : Train} (g : Word) (ha : edgeAccepted s = true)
    (h0 : s.nrPulses.val = 0) (hds : ∀ d ∈ ds, Stored s d ∧ d ≤ s.minGapLen) :
    ∃ t, Capturing s ds t ∧ runEdges (edgeTimes s.lastEdge (ds ++ [g])) s = edgeStep (t.lastEdge + g) t := by
  have h := capturing_runEdges ha h0 hds
  refine ⟨_, h, ?_⟩
  rw [edgeTimes_concat, runEdges_append, runEdges_cons, runEdges_nil, h.baseline]

section
variable {s t : State} {ds : Train} {g : Word} (h : Capturing s ds t) (ha : edgeAccepted s = true)
  (hg : Stored s g) (hgap : s.minGapLen < g)
include h ha hg hgap

theorem Capturing.nrPulses_after_gap : (edgeStep (t.lastEdge + g) t).nrPulses.val = 0 :=
  edgeStep_nrPulses_of_gap (h.accepted ha) (h.stored hg) (h.minGapLen_lt hgap)

/-- A train whose wrapped count qualifies closes, and its slot holds what the count leaves of the durations (R144,
R147). -/
theorem Capturing.after_closing_gap
    (hq : s.minRawLen.toNat ≤ (ds.length + 1) % cap ∧ (ds.length + 1) % cap ≤ s.maxRawLen.toNat) :
    (edgeStep (t.lastEdge + g) t).prod = nextSlot s.prod ∧
      (lenRead (edgeStep (t.lastEdge + g) t) s.prod).val = (ds.length + 1) % cap ∧
      trainAt (edgeStep (t.lastEdge + g) t) s.prod = lastPulses (ds ++ [g]) := by
  rw [edgeStep_of_gap (h.accepted ha) (h.stored hg) (h.minGapLen_lt hgap), if_pos (h.gapCloses_iff.mpr hq)]
  have htrain : trainAt (closedState (t.lastEdge + g) t) s.prod = lastPulses (ds ++ [g]) := by
    rw [← h.prod, trainAt_closedState, (h.concat g).held]
  refine ⟨?_, ?_, htrain⟩
  · rw [closedState_prod, h.prod]
  · rw [← trainAt_length, htrain, lastPulses_length, List.length_append, List.length_singleton]

/-- A train whose wrapped count does not qualify is discarded (R144). -/
theorem Capturing.after_discarding_gap
    (hq : ¬ (s.minRawLen.toNat ≤ (ds.length + 1) % cap ∧ (ds.length + 1) % cap ≤ s.maxRawLen.toNat)) :
    (lenRead (edgeStep (t.lastEdge + g) t) s.prod).val = 0 ∧ (edgeStep (t.lastEdge + g) t).prod = s.prod := by
  rw [edgeStep_of_gap (h.accepted ha) (h.stored hg) (h.minGapLen_lt hgap),
    if_neg fun hc => hq (h.gapCloses_iff.mp hc), lenRead_discardedState, h.empty]
  exact ⟨((edgeAccepted_iff s).mp ha).2, h.prod⟩

end

/-- Settles O26: the gap closes what the edges before it captured. -/
theorem overlongTrainKeepsSuffix : Obligations.OverlongTrainKeepsSuffix := by
  intro s ds g hen hempty h0 hds hg hgap hlo hhi
  have ha := (edgeAccepted_iff s).mpr ⟨hen, hempty⟩
  obtain ⟨t, h, hrun⟩ := exists_capturing_runEdges g ha h0 hds
  have hclosed := h.after_closing_gap ha hg hgap ⟨hlo, hhi⟩
  rw [lastPulses, List.length_append] at hclosed
  rwa [hrun]

/-- Settles O25: the machine's run is the edges' run, and a train below CAP is left whole. -/
theorem pulseTrainCapture : Obligations.PulseTrainCapture := by
  intro s ds g rest hen hempty h0 hds hg hgap hlen hin
  have ha := (edgeAccepted_iff s).mpr ⟨hen, hempty⟩
  obtain ⟨t, h, hrun⟩ := exists_capturing_runEdges g ha h0 hds
  have hcore := run_edges (edgeTimes s.lastEdge (ds ++ [g])) rest s
  rw [← hin, hrun, edgeTimes_length, List.length_append, List.length_singleton] at hcore
  have hclose := h.after_closing_gap ha hg hgap
  have hdiscard := h.after_discarding_gap ha hg hgap
  rw [Nat.mod_eq_of_lt hlen] at hclose hdiscard
  rw [lastPulses_of_lt (by simpa using hlen)] at hclose
  refine ⟨_, hcore, rfl, h.nrPulses_after_gap ha hg hgap, fun hq => ?_, hdiscard, fun hlo hhi => ?_⟩
  · obtain ⟨hprod, hcount, htrain⟩ := hclose hq
    exact ⟨hcount, htrain, hprod⟩
  · have hlimits : (s.minRawLen.toNat ≤ ds.length + 1 ∧ ds.length + 1 ≤ s.maxRawLen.toNat) ↔
        4 ≤ ds.length ∧ ds.length ≤ 253 := by
      have h5 : (5 : Word).toNat = 5 := rfl
      have h255 : (255 : Word).toNat = 255 := rfl
      rw [hlo, hhi, h5, h255]
      omega
    rw [← hlimits]
    refine ⟨fun hnext => ?_, fun hq => (hclose hq).1⟩
    by_contra hq
    exact nextSlot_ne s.prod (hnext.symm.trans (hdiscard hq).2)

end Sys2Proof.Machine
end

section
/-! PROOFS. The statements of 42_fifo.md: what NEXTLEN and RECV answer (R160 to R162), then the ring as a queue
(R163). RECV takes the train at CONS off, since it moves CONS past that slot and writes no word of another; an edge
leaves the queued trains alone, since it writes no full slot, and adds one exactly where it closes a train at PROD. -/

namespace Sys2Proof.Machine

open Sys2Proof.Config (nslots cap)

/-! ## What RECV answers (R161, R162) -/

/-- RECV on an empty slot answers 0 and nothing moves. -/
theorem recvStep_of_empty {s : State} (h : (lenRead s s.cons).val = 0) : recvStep s = answer 0 [] s :=
  (recvStep_cases s).elim And.right fun hne => absurd h hne.1

section
variable {s : State} (h : (lenRead s s.cons).val ≠ 0)
include h

/-- RECV on a full slot answers its train, releases the slot and moves CONS on. -/
theorem recvStep_of_full :
    recvStep s = answer (countWord (trainAt s s.cons).length) (trainAt s s.cons) (advanceCons (releaseSlot s)) := by
  rw [trainAt_length]
  exact (recvStep_cases s).elim (fun h0 => absurd h0.1 h) And.right

theorem recvStep_results_of_full :
    (recvStep s).results =
      s.results ++ [⟨BitVec.ofNat 32 (trainAt s s.cons).length, trainAt s s.cons⟩] := by
  rw [recvStep_of_full h]
  rfl

theorem recvStep_cons_of_full : (recvStep s).cons = nextSlot s.cons := by
  rw [recvStep_of_full h]
  rfl

end

/-- Settles O32: the words RECV answers are those of the train at CONS. -/
theorem recvDrainsSlot : Obligations.RecvDrainsSlot := by
  intro s
  refine ⟨fun h0 => congrArg Host.Outcome.next (recvStep_of_empty h0), fun h =>
    ⟨recvStep s, trainAt s s.cons, rfl, trainAt_length s s.cons, fun i hi => ?_, ?_, ?_, ?_⟩⟩
  · rw [trainAt_length] at hi
    exact copyOut_getElem? s s.cons _ i hi
  · rw [recvStep_results_of_full h, trainAt_length]
  · rw [lenRead_recvStep, if_pos rfl]
  · rw [recvStep_cons_of_full h, nextSlot_val]

/-- Settles O33: RECV's one write to the ring is the length of the slot at CONS. -/
theorem recvFrame : Obligations.RecvFrame := by
  intro s
  refine ⟨recvStep s, rfl, ?_, memRead_recvStep s, fun k hk => ?_⟩
  · rcases recvStep_cases s with ⟨_, e⟩ | ⟨_, e⟩ <;> rw [e] <;> rfl
  · rw [lenRead_recvStep, if_neg hk]

/-! ## Edges before RECV (R160) -/

/-- An edge leaves the closed train of a full slot alone (R69). -/
theorem trainAt_edgeStep (now : Word) {s : State} {k : Fin nslots} (h : (lenRead s k).val ≠ 0) :
    trainAt (edgeStep now s) k = trainAt s k :=
  trainAt_congr s _ k k (edgeStep_keeps_len now s k h) fun i _ => edgeStep_keeps_mem now s k i h

/-- Settles O31: the slot at CONS is full, so edges leave what RECV answers as it is. -/
theorem nextlenPeeks : Obligations.NextlenPeeks := by
  refine fun s => ⟨rfl, fun nows h => ⟨recvStep (runEdges nows s), trainAt s s.cons, rfl, trainAt_length s s.cons, ?_⟩⟩
  calc (recvStep (runEdges nows s)).results
      = (runEdges nows s).results ++ [⟨countWord (pendingLen s), trainAt s s.cons⟩] :=
        congrArg State.results (recvStep_runEdges nows s h)
    _ = s.results ++ [⟨BitVec.ofNat 32 (lenRead s s.cons).val, trainAt s s.cons⟩] := by
        rw [runEdges_results]
        rfl

/-! ## The ring as a queue (R163) -/

/-- Fewer than NSLOTS places after a slot stands another. -/
theorem slotFrom_succ_ne (k : Fin nslots) {i : Nat} (hi : i + 1 < 10) : slotFrom k (i + 1) ≠ k := by
  intro hk
  have := slotFrom_injective k (i + 1) 0 hi (by decide) (by rwa [slotFrom_zero])
  omega

/-- RECV takes the oldest closed train off the queue. -/
theorem RingRun.queued_recvStep {s : State} {m : Nat} (h : RingRun s (m + 1)) :
    queued s (m + 1) = trainAt s s.cons :: queued (recvStep s) m := by
  have hfull := h.cons_ne_zero_iff.mpr m.succ_pos
  obtain ⟨hm, _⟩ := h
  have hm : m + 1 ≤ 10 := hm
  have hkeep : ∀ i < m, trainAt (recvStep s) (slotFrom (recvStep s).cons i) = trainAt s (slotFrom s.cons (i + 1)) := by
    intro i hi
    rw [recvStep_cons_of_full hfull, slotFrom_nextSlot]
    refine trainAt_congr s _ _ _ ?_ fun j _ => memRead_recvStep s _ j
    rw [lenRead_recvStep, if_neg (slotFrom_succ_ne s.cons (by omega))]
  rw [queued_cons]
  exact congrArg _ (List.map_congr_left fun i hi => (hkeep i (List.mem_range.mp hi)).symm)

/-- EDGE closes a train at PROD, or leaves PROD and every length (R144). -/
theorem edgeStep_closes_or_keeps (now : Word) (s : State) :
    (edgeAccepted s = true ∧ gapCloses s ∧ edgeStep now s = closedState now s) ∨
    ((edgeStep now s).prod = s.prod ∧ ∀ k, lenRead (edgeStep now s) k = lenRead s k) := by
  rcases edgeStep_cases now s with ⟨e, _⟩ | ⟨ha, _, ⟨_, e⟩ | ⟨_, ⟨_, e⟩ | ⟨_, ⟨hq, e⟩ | ⟨_, e⟩⟩⟩⟩
  · exact .inr (by simp [e])
  · exact .inr ⟨by rw [e, movedState_prod], fun k => by rw [e]; rfl⟩
  · exact .inr (by simp [e])
  · exact .inl ⟨ha, hq, e⟩
  · exact .inr (by simp [e])

theorem edgeStep_cons (now : Word) (s : State) : (edgeStep now s).cons = s.cons := runEdges_cons_reg [now] s

section
variable {s : State} {n : Nat} (h : RingRun s n) (now : Word)
include h

/-- An edge that closes no train leaves the run. -/
theorem RingRun.of_edge_keeps (hprod : (edgeStep now s).prod = s.prod)
    (hlen : ∀ k, lenRead (edgeStep now s) k = lenRead s k) : RingRun (edgeStep now s) n := by
  obtain ⟨hn, hp, hrun⟩ := h
  refine ⟨hn, by rw [hprod, edgeStep_cons, hp], fun i hi => ?_⟩
  rw [edgeStep_cons, hlen]
  exact hrun i hi

/-- No edge changes a queued train: each stands in a full slot (R69). -/
theorem RingRun.queued_edgeStep : queued (edgeStep now s) n = queued s n := by
  obtain ⟨hn, _, hrun⟩ := h
  refine queued_congr s _ n fun i hi => ?_
  rw [edgeStep_cons]
  exact trainAt_edgeStep now ((hrun i (hi.trans_le hn)).mpr hi)

end

/-- The train a gap closes, of a length that is not 0, is the train in progress with the gap (R144): the count has
not wrapped. -/
theorem trainAt_closedState_concat (now : Word) {s : State} (hlen : (nextCount s.nrPulses).val ≠ 0) :
    trainAt (closedState now s) s.prod = inProgress s ++ [now - s.lastEdge] := by
  have hno : s.nrPulses.val + 1 ≠ cap := fun hwrap => hlen (by rw [nextCount_val, hwrap, Nat.mod_self])
  rw [trainAt_closedState, inProgress_storedState, if_neg hno]

/-- While MINRAWLEN ≥ 1, a train that closes has a length that is not 0 (R144). -/
theorem nextCount_ne_zero_of_gapCloses {s : State} (hmin : 1 ≤ s.minRawLen.toNat) (hq : gapCloses s) :
    (nextCount s.nrPulses).val ≠ 0 := by
  rw [nextCount_val]
  exact Nat.one_le_iff_ne_zero.mp (hmin.trans hq.1)

/-- A closing edge adds, at the end of the queue, the train in progress with the gap. -/
theorem RingRun.queued_closedState {s : State} {n : Nat} (h : RingRun s n) {now : Word}
    (hlen : (nextCount s.nrPulses).val ≠ 0) (e : edgeStep now s = closedState now s) :
    queued (closedState now s) (n + 1) = queued s n ++ [inProgress s ++ [now - s.lastEdge]] := by
  have ⟨_, hp, _⟩ := h
  rw [queued_succ, ← e, h.queued_edgeStep now, e, closedState_cons, ← hp, trainAt_closedState_concat now hlen]

/-- Settles O34: RECV takes the first train, a closing edge adds the last, any other edge leaves them. -/
theorem ringIsQueue : Obligations.RingIsQueue := by
  intro s n h
  refine ⟨?_, ?_, fun now hmin => ⟨edgeStep now s, rfl, ?_⟩⟩
  · rintro rfl
    exact congrArg Host.Outcome.next (recvStep_of_empty (not_not.mp fun hne => (h.cons_ne_zero_iff.mp hne).false))
  · rintro m rfl
    exact ⟨recvStep s, trainAt s s.cons, rfl, h.after_recv, h.queued_recvStep,
      recvStep_results_of_full (h.cons_ne_zero_iff.mpr m.succ_pos)⟩
  · rcases edgeStep_closes_or_keeps now s with ⟨ha, hq, e⟩ | ⟨hprod, hlen⟩
    · have hempty := ((edgeAccepted_iff s).mp ha).2
      have hcount := nextCount_ne_zero_of_gapCloses hmin hq
      rw [e]
      exact .inr ⟨h.lt_of_prod_empty hempty, h.after_close now hempty hcount, h.queued_closedState hcount e⟩
    · exact .inl ⟨h.of_edge_keeps now hprod hlen, h.queued_edgeStep now⟩

end Sys2Proof.Machine
end

section
/-! PROOFS. The statements of 43_decode.md about the whole walk of DECODE: its frame (R194), the records in their
order (R190 to R192), and the walk over two lists (R181, R197), which does not see ACTIVE, CBEN.RAW or the result
frames. -/

namespace Sys2Proof.Machine

/-! ## The command, its walk and its raw record -/

/-- DECODE runs on every train within CAP (R87, R180). -/
theorem exec_decode (s : State) {T : Train} (hT : T.length ≤ 255) : exec (.decode T) s = .next (decodeStep T s) :=
  if_pos (decide_eq_true hT)

theorem emitRaw_sameOffDecoder (T : Train) (s : State) : SameOffDecoder s (emitRaw T s) := by
  unfold emitRaw
  split
  · exact emit_sameOffDecoder _ s
  · exact SameOffDecoder.refl s

/-- RAW comes last, with the train as given (R191). -/
theorem emitRaw_evt (T : Train) (s : State) :
    (emitRaw T s).evt = s.evt ++ if s.cbRaw = true then [.raw T] else [] := by
  unfold emitRaw
  split
  · rfl
  · rw [List.append_nil]

section
variable {s t : State} (h : SameOffDecoder s t)
include h

theorem SameOffDecoder.cfg : t.cfg = s.cfg := (congrArg State.cfg h :)
theorem SameOffDecoder.cbDec : t.cbDec = s.cbDec := (congrArg State.cbDec h :)
theorem SameOffDecoder.cbRaw : t.cbRaw = s.cbRaw := (congrArg State.cbRaw h :)
theorem SameOffDecoder.results : t.results = s.results := (congrArg State.results h :)

end

/-- Before its result frame DECODE changes at most DS, the EVT trace and the clock's supply (R194). -/
theorem decoded_sameOffDecoder (T : Train) (s : State) :
    SameOffDecoder s (emitRaw T (decodeWalk T s.active s).1) :=
  (decodeWalk_sameOffDecoder T s.active s).trans (emitRaw_sameOffDecoder T _)

theorem decodeStep_results (T : Train) (s : State) :
    (decodeStep T s).results = s.results ++ [⟨countWord (decodeWalk T s.active s).2, []⟩] := by
  rw [decodeStep, answer_results, (decoded_sameOffDecoder T s).results]

theorem decodeStep_ds (T : Train) (s : State) : (decodeStep T s).ds = (decodeWalk T s.active s).1.ds :=
  emitRaw_ds T _

theorem decodeStep_evt (T : Train) (s : State) :
    (decodeStep T s).evt = (decodeWalk T s.active s).1.evt ++ if s.cbRaw = true then [.raw T] else [] := by
  rw [← (decodeWalk_sameOffDecoder T s.active s).cbRaw]
  exact emitRaw_evt T _

/-! ## The frame (R194) -/

/-- The walk leaves the state of a descriptor that it does not visit. -/
theorem dsAt_decodeWalk (T : Train) {js : List Nat} {k : Nat} (hk : k ∉ js) (s : State) :
    dsAt (decodeWalk T js s).1 k = dsAt s k := by
  induction js generalizing s with
  | nil => rfl
  | cons j js ih =>
    obtain ⟨hj, hjs⟩ := not_or.mp (List.mem_cons.not.mp hk)
    exact (ih hjs _).trans ((decodeEntry_ds T j s).2 k hj)

/-- Settles O42: the walk writes DS only at the entries it visits. (The name `decodeFrame` is the frame decoder's.) -/
theorem decodeCommandFrame : Obligations.DecodeFrame := by
  intro s T hT
  refine ⟨decodeStep T s, exec_decode s hT, ?_, ?_, fun j hj => ?_⟩
  · have hs := decoded_sameOffDecoder T s
    unfold decodeStep
    dsimp only
    rw [hs]
    rfl
  · rw [decodeStep_ds, decodeWalk_ds_length]
  · rw [dsAt, decodeStep_ds]
    exact dsAt_decodeWalk T hj s

/-! ## The records (R190 to R192) -/

theorem decodeWalk_count_le (T : Train) (js : List Nat) (s : State) : (decodeWalk T js s).2 ≤ js.length := by
  induction js generalizing s with
  | nil => exact Nat.le_refl 0
  | cons j js ih =>
    have hhere := decodeEntry_count_le T j s
    have hrest := ih (decodeEntry T j s).1
    rw [List.length_cons]
    exact (Nat.add_le_add hhere hrest).trans_eq (Nat.add_comm 1 _)

/-- A DEC record of the descriptor numbered `j`. -/
def RecordOf (c : Config.Instantiation) (j : Nat) (r : Record) : Prop :=
  ∃ P, c.protocols[j]? = some P ∧ ∃ msg st n dev, r = Record.dec P.id msg st n dev

/-- The records of a walk: DEC records alone, one for each message if CBEN.DEC is set, of a sublist of the entries
and in their order (R181, R190). -/
theorem decodeWalk_records (T : Train) (js : List Nat) (s : State) :
    ∃ decs, (decodeWalk T js s).1.evt = s.evt ++ decs ∧
      decs.length = (if s.cbDec = true then (decodeWalk T js s).2 else 0) ∧
      ∃ ks, ks.Sublist js ∧ List.Forall₂ (RecordOf s.cfg) ks decs := by
  induction js generalizing s with
  | nil => exact ⟨[], (List.append_nil _).symm, (ite_self 0).symm, [], .slnil, .nil⟩
  | cons j js ih =>
    have hsame := decodeEntry_sameOffDecoder T j s
    obtain ⟨here, hevt, hlen, hof⟩ := decodeEntry_records T j s
    obtain ⟨rest, hevt', hlen', ks, hks, hof'⟩ := ih (decodeEntry T j s).1
    rw [hsame.cbDec] at hlen'
    rw [hsame.cfg] at hof'
    refine ⟨here ++ rest, ?_, ?_, ?_⟩
    · rw [← List.append_assoc, ← hevt]
      exact hevt'
    · rw [List.length_append, hlen, hlen']
      split <;> rfl
    · rcases hof with rfl | ⟨P, hP, msg, st, n, dev, rfl⟩
      · exact ⟨ks, hks.cons j, hof'⟩
      · exact ⟨j :: ks, hks.cons_cons j, .cons ⟨P, hP, msg, st, n, dev, rfl⟩ hof'⟩

/-- Settles O41: the walk's records, and then the raw record. -/
theorem decodeRecordsInOrder : Obligations.DecodeRecordsInOrder := by
  intro s T hT
  obtain ⟨decs, hevt, hlen, hof⟩ := decodeWalk_records T s.active s
  refine ⟨decodeStep T s, (decodeWalk T s.active s).2, decs, exec_decode s hT, decodeWalk_count_le T s.active s,
    decodeStep_results T s, ?_, hlen, hof⟩
  rw [decodeStep_evt, hevt]

/-! ## Two lists of entries (R181, R197) -/

/-- The state with another ACTIVE, another CBEN.RAW and other result frames: what the walk over given entries does
not see. -/
def retask (active : List Nat) (raw : Bool) (results : List Result) (s : State) : State :=
  { s with active := active, cbRaw := raw, results := results }

section
variable (active : List Nat) (raw : Bool) (results : List Result) (s : State)

theorem afterClock_retask : afterClock (retask active raw results s) = retask active raw results (afterClock s) := by
  unfold afterClock
  cases h : s.clockIn <;> simp [retask, h]

theorem takeMessage_retask (j : Nat) (id : Text) (m : Config.Doc) :
    takeMessage j id m (retask active raw results s) = retask active raw results (takeMessage j id m s) := by
  have hdec : (retask active raw results s).cbDec = s.cbDec := rfl
  unfold takeMessage
  rw [hdec]
  dsimp only
  split <;> rfl

theorem validatedEntry_retask (j : Nat) (pid : Text) (parsed : Option Config.Doc) :
    validatedEntry j pid parsed (retask active raw results s) =
      Prod.map (retask active raw results) id (validatedEntry j pid parsed s) := by
  unfold validatedEntry
  rw [afterClock_retask]
  cases parsed with
  | none => rfl
  | some m => exact congrArg (·, 1) (takeMessage_retask active raw results (setDs j _ (afterClock s)) j pid m)

theorem decodeEntry_retask (T : Train) (j : Nat) :
    decodeEntry T j (retask active raw results s) =
      Prod.map (retask active raw results) id (decodeEntry T j s) := by
  have hcfg : (retask active raw results s).cfg = s.cfg := rfl
  have hraw : setRawlen j T.length (retask active raw results s) =
    retask active raw results (setRawlen j T.length s) := rfl
  unfold decodeEntry
  rw [hcfg, hraw]
  split
  · rfl
  · split
    · dsimp only
      rw [validatedEntry_retask]
      split <;> rfl
    · rfl

theorem decodeWalk_retask (T : Train) (js : List Nat) :
    decodeWalk T js (retask active raw results s) =
      Prod.map (retask active raw results) id (decodeWalk T js s) := by
  induction js generalizing s with
  | nil => rfl
  | cons j js ih =>
    unfold decodeWalk
    dsimp only
    rw [decodeEntry_retask, Prod.map_fst, ih]
    rfl

/-- DECODE, with the task it runs under named: the walk's end with the raw record and the result frame. -/
theorem exec_decode_retask {T : Train} (hT : T.length ≤ 255) :
    exec (.decode T) (retask active raw results s) =
      .next (retask active raw (results ++ [⟨countWord (decodeWalk T active s).2, []⟩])
        (if raw = true then emit (.raw T) (decodeWalk T active s).1 else (decodeWalk T active s).1)) := by
  have hactive : (retask active raw results s).active = active := rfl
  rw [exec_decode _ hT, decodeStep, hactive, decodeWalk_retask]
  cases raw <;> rfl

end

/-- Settles O40: the walk over the second list starts where the walk over the first ends, and neither sees ACTIVE,
CBEN.RAW or the result frames. -/
theorem decodeComposes : Obligations.DecodeComposes := by
  intro s T a b hT hab
  have hsplit := decodeWalk_append T a b s
  rw [← hab] at hsplit
  have hwhole := exec_decode_retask s.active s.cbRaw s.results s hT
  rw [hsplit] at hwhole
  exact ⟨_, _, (decodeWalk T a s).2, (decodeWalk T b (decodeWalk T a s).1).2,
    exec_decode_retask a false s.results s hT, exec_decode_retask b s.cbRaw _ (decodeWalk T a s).1 hT,
    rfl, rfl, hwhole⟩

end Sys2Proof.Machine
end

section
/-! PROOFS. The statements of 43_decode.md about one entry: skipped, not validated, without a message, or with one
(R182 to R190). DECODE writes DS[j] in one piece, whatever the order of the writes in the walk, so a chain of messages
(R195) is a chain of runs of the repeat machine. -/

namespace Sys2Proof.Machine

open Sys2Proof.Config (Fn Descriptor)

/-! ## Entries that are skipped (R182) -/

/-- An entry that lacks validate or parse, or has no descriptor, is skipped (R182). -/
theorem decodeEntry_of_skipped (T : Train) {s : State} {j : Nat}
    (h : ∀ P, s.cfg.protocols[j]? = some P → P.validate = none ∨ P.parse = none) :
    decodeEntry T j s = (s, 0) := by
  unfold decodeEntry
  split
  · rfl
  · next P hP =>
    split
    · next hval hparse =>
      rcases h P hP with e | e
      · exact absurd (hval.symm.trans e) (Option.some_ne_none _)
      · exact absurd (hparse.symm.trans e) (Option.some_ne_none _)
    · rfl

theorem decodeWalk_of_skipped (T : Train) {s : State} {js : List Nat}
    (h : ∀ j ∈ js, ∀ P, s.cfg.protocols[j]? = some P → P.validate = none ∨ P.parse = none) :
    decodeWalk T js s = (s, 0) := by
  induction js with
  | nil => rfl
  | cons j js ih =>
    rw [decodeWalk, decodeEntry_of_skipped T (h j List.mem_cons_self)]
    dsimp only
    rw [ih fun k hk => h k (List.mem_cons_of_mem j hk), Nat.zero_add]

/-! ## An ACTIVE of one entry (R183 to R190) -/

/-- The descriptor `j` is `P`, with the capabilities `v` and `p` that DECODE asks for, and ACTIVE lists it alone. -/
structure OnlyActive (s : State) (j : Nat) (P : Descriptor) (v : Fn Train Bool) (p : Fn Train (Option Config.Doc)) :
    Prop where
  active : s.active = [j]
  descriptor : s.cfg.protocols[j]? = some P
  validate : P.validate = some v
  parse : P.parse = some p

/-- Burst timing written out (R184): the burst reset is taken on the difference from FIRST as the shift leaves it. -/
theorem burstTiming_eq (now : Word) (d : DescState) :
    burstTiming now d =
      let first := if d.firstV = true then d.second else now
      { d with
        firstV := true, first := first, second := now,
        repeats := if 500000 < (now - first).toNat then 0 else d.repeats } := by
  have hwindow : ∀ w : Word, Config.burstWindow < w ↔ 500000 < w.toNat := fun _ => Iff.rfl
  unfold burstTiming stampTimes
  simp only [hwindow, elapsed]
  split <;> split <;> rfl

/-- The state of a descriptor after a successful validation at `now` of a train of `n` pulses: the train exposed
(R183), then burst timing (R184). -/
def validatedDs (now : Word) (n : Nat) (d : DescState) : DescState :=
  burstTiming now { d with rawlen := BitVec.ofNat 32 n }

theorem setDs_setDs (j : Nat) (d e : DescState) (s : State) : setDs j e (setDs j d s) = setDs j e s := by
  unfold setDs
  rw [List.set_set]

theorem setDs_afterClock (j : Nat) (d : DescState) (s : State) :
    setDs j d (afterClock s) = { afterClock s with ds := s.ds.set j d } := by
  rw [setDs, afterClock_ds]

theorem afterClock_setDs (j : Nat) (d : DescState) (s : State) :
    afterClock (setDs j d s) = setDs j d (afterClock s) := by
  unfold afterClock
  cases h : s.clockIn <;> simp [setDs, h]

theorem dsAt_setDs_self {s : State} {j : Nat} (hj : j < s.ds.length) (d : DescState) : dsAt (setDs j d s) j = d := by
  rw [dsAt_setDs, if_pos ⟨rfl, hj⟩]

/-- A validated entry, its train exposed before: one write of DS[j] and one draw, then the message, if there is one. -/
theorem validatedEntry_setRawlen (T : Train) {j : Nat} {s : State} (hj : j < s.ds.length) (id : Text)
    (parsed : Option Config.Doc) :
    validatedEntry j id parsed (setRawlen j T.length s) =
      let s1 := setDs j (validatedDs (clockValue s) T.length (dsAt s j)) (afterClock s)
      parsed.elim (s1, 0) fun m => (takeMessage j id m s1, 1) := by
  have hclock : clockValue (setRawlen j T.length s) = clockValue s := rfl
  unfold validatedEntry
  rw [hclock, setRawlen, dsAt_setDs_self hj, afterClock_setDs, setDs_setDs]
  cases parsed <;> rfl

/-- A message at an entry whose state was just written: the machine's result replaces that state (R186 to R190). -/
theorem takeMessage_setDs {s : State} {c : Config.Instantiation} {j : Nat} (hj : j < s.ds.length) (hc : s.cfg = c)
    (id : Text) {m : Config.Doc} {status : Status} {d e : DescState}
    (hrun : repeatMachine (applyFn c.codec.encode m) e = (status, d)) :
    takeMessage j id m (setDs j e s) =
      if s.cbDec = true then emit (.dec id d.snap status d.repeats (deviceId c m)) (setDs j d s)
      else setDs j d s := by
  unfold takeMessage
  rw [dsAt_setDs_self hj, setDs_cfg, hc, hrun, setDs_cbDec]
  dsimp only
  rw [setDs_setDs]

section
variable {s : State} {j : Nat} {P : Descriptor} {v : Fn Train Bool} {p : Fn Train (Option Config.Doc)} {T : Train}
  (h : OnlyActive s j P v p) (hT : T.length ≤ 255)
include h hT

/-- DECODE on an ACTIVE of one entry that has both capabilities (R183). -/
theorem OnlyActive.exec_eq :
    exec (.decode T) s =
      let entry := if applyFn v T = true then validatedEntry j P.id (applyFn p T) (setRawlen j T.length s)
        else (setRawlen j T.length s, 0)
      .next (answer (countWord entry.2) [] (emitRaw T entry.1)) := by
  rw [exec_decode s hT, decodeStep, h.active, decodeWalk, decodeWalk, decodeEntry, h.descriptor]
  dsimp only
  rw [h.validate, h.parse]
  rfl

theorem OnlyActive.exec_of_not_validated (hv : applyFn v T = false) :
    exec (.decode T) s = .next (answer 0 [] (emitRaw T (setRawlen j T.length s))) := by
  rw [h.exec_eq hT, hv]
  rfl

variable (hj : j < s.ds.length) (hv : applyFn v T = true)
include hj hv

theorem OnlyActive.exec_of_no_message (hp : applyFn p T = none) :
    exec (.decode T) s = .next (answer 0 [] (emitRaw T
      { afterClock s with ds := s.ds.set j (validatedDs (clockValue s) T.length (dsAt s j)) })) := by
  rw [h.exec_eq hT, if_pos hv, validatedEntry_setRawlen T hj, hp, ← setDs_afterClock]
  rfl

/-- DECODE on a message on which the repeat machine gives `status` and `d` (R186 to R190). -/
theorem OnlyActive.exec_of_message {m : Config.Doc} {status : Status} {d : DescState} (hp : applyFn p T = some m)
    (hrun : repeatMachine (applyFn s.cfg.codec.encode m) (validatedDs (clockValue s) T.length (dsAt s j)) =
      (status, d)) :
    exec (.decode T) s = .next (answer 1 [] (emitRaw T
      (if s.cbDec = true then
        emit (.dec P.id d.snap status d.repeats (deviceId s.cfg m)) { afterClock s with ds := s.ds.set j d }
      else { afterClock s with ds := s.ds.set j d }))) := by
  have hmsg := takeMessage_setDs (s := afterClock s) ((afterClock_ds s).symm ▸ hj) (afterClock_cfg s) P.id hrun
  rw [afterClock_cbDec, setDs_afterClock j d] at hmsg
  rw [h.exec_eq hT, if_pos hv, validatedEntry_setRawlen T hj, hp, ← hmsg]
  rfl

end

/-- Settles O37: a skipped entry leaves the state as it is, a failed validate ends its entry after RAWLEN. -/
theorem decodeSkipsEntries : Obligations.DecodeSkipsEntries := by
  refine ⟨fun s T hT hskip => ?_, fun s T j P v p hT hactive hP hval hparse hv => ?_⟩
  · rw [exec_decode s hT, decodeStep, decodeWalk_of_skipped T hskip]
    rfl
  · exact (OnlyActive.mk hactive hP hval hparse).exec_of_not_validated hT hv

/-- Settles O38: with no message the entry ends at its burst timing. -/
theorem decodeBurstTiming : Obligations.DecodeBurstTiming := by
  intro s T j P v p hT hactive hP hval hparse hv hp hj
  have h := (OnlyActive.mk hactive hP hval hparse).exec_of_no_message hT hj hv hp
  rw [validatedDs, burstTiming_eq] at h
  exact h

/-! ## The repeat machine on a message (R186 to R189) -/

section
variable {msg : Text} {d : DescState}

theorem repeatMachine_of_first (h : (d.repeats + 1).toNat ≤ 1 ∨ d.snapV = false) :
    repeatMachine msg d = (.first, { d with repeats := d.repeats + 1, snap := msg, snapV := true }) := by
  rcases repeatMachine_cases msg d with ⟨_, e⟩ | ⟨h1, hv, _⟩
  · exact e
  · exact absurd h (not_or.mpr ⟨h1.not_ge, by simp [hv]⟩)

variable (h1 : 1 < (d.repeats + 1).toNat) (hv : d.snapV = true)
include h1 hv

/-- Past the first message of a burst the status is one of the other three. -/
theorem repeatMachine_past_first :
    ((d.repeats + 1).toNat < 100 ∧ msg = d.snap ∧
        repeatMachine msg d = (.valid, { d with repeats := d.repeats + 1 + 100, snap := msg })) ∨
      ((d.repeats + 1).toNat < 100 ∧ msg ≠ d.snap ∧
        repeatMachine msg d = (.invalid, { d with repeats := d.repeats + 1, snap := msg })) ∨
      (100 ≤ (d.repeats + 1).toNat ∧ repeatMachine msg d = (.known, { d with repeats := d.repeats + 1 })) := by
  rcases repeatMachine_cases msg d with ⟨hfirst, _⟩ | ⟨_, _, hrest⟩
  · exact absurd hfirst (not_or.mpr ⟨h1.not_ge, by simp [hv]⟩)
  · exact hrest

theorem repeatMachine_of_valid (h100 : (d.repeats + 1).toNat < 100) (hm : msg = d.snap) :
    repeatMachine msg d = (.valid, { d with repeats := d.repeats + 1 + 100, snap := msg }) := by
  rcases repeatMachine_past_first (msg := msg) h1 hv with ⟨_, _, e⟩ | ⟨_, hne, _⟩ | ⟨hge, _⟩
  · exact e
  · exact absurd hm hne
  · exact absurd h100 hge.not_gt

theorem repeatMachine_of_invalid (h100 : (d.repeats + 1).toNat < 100) (hm : msg ≠ d.snap) :
    repeatMachine msg d = (.invalid, { d with repeats := d.repeats + 1, snap := msg }) := by
  rcases repeatMachine_past_first (msg := msg) h1 hv with ⟨_, heq, _⟩ | ⟨_, _, e⟩ | ⟨hge, _⟩
  · exact absurd heq hm
  · exact e
  · exact absurd h100 hge.not_gt

end

theorem repeatMachine_of_known {msg : Text} {d : DescState} (hv : d.snapV = true)
    (h100 : 100 ≤ (d.repeats + 1).toNat) :
    repeatMachine msg d = (.known, { d with repeats := d.repeats + 1 }) := by
  rcases repeatMachine_past_first (msg := msg) (by omega) hv with ⟨hlt, _⟩ | ⟨hlt, _⟩ | ⟨_, e⟩
  · exact absurd h100 hlt.not_ge
  · exact absurd h100 hlt.not_ge
  · exact e

/-- Settles O39: the four outcomes of the machine, each carried to DECODE's record and DS[j] alike. -/
theorem decodeRepeatMachine : Obligations.DecodeRepeatMachine := by
  intro s T j P v p m hT hactive hP hval hparse hv hp hj d r msg ends
  have hends {status : Status} {d' : DescState} (hrun : repeatMachine msg d = (status, d')) : ends status d' :=
    (OnlyActive.mk hactive hP hval hparse).exec_of_message hT hj hv hp hrun
  exact ⟨fun hfirst => hends (repeatMachine_of_first hfirst),
    fun h1 h100 hsnap heq => hends (repeatMachine_of_valid h1 hsnap h100 heq),
    fun h1 h100 hsnap hne => hends (repeatMachine_of_invalid h1 hsnap h100 hne),
    fun h100 hsnap => hends (repeatMachine_of_known hsnap h100)⟩

/-! ## Bursts (R195) -/

/-- A run of the repeat machine announces a status, a count and a snapshot text, the last validation being at `now`. -/
structure Announces (run : Status × DescState) (status : Status) (count : Word) (text : Text) (now : Word) : Prop where
  status : run.1 = status
  repeats : run.2.repeats = count
  snap : run.2.snap = text
  snapV : run.2.snapV = true
  firstV : run.2.firstV = true
  second : run.2.second = now

/-- The run of the repeat machine on a message whose train of `n` pulses is validated at `now` (R183 to R189). -/
def messageRun (msg : Text) (now : Word) (n : Nat) (d : DescState) : Status × DescState :=
  repeatMachine msg (validatedDs now n d)

/-- From REPEATS = 0 or a burst reset a message is FIRST (R187). -/
theorem messageRun_announces_first (msg : Text) (now : Word) (n : Nat) {d : DescState}
    (h : d.repeats = 0 ∨ (d.firstV = true ∧ 500000 < (now - d.second).toNat)) :
    Announces (messageRun msg now n d) .first 1 msg now := by
  have hzero : (validatedDs now n d).repeats = 0 := by
    rw [validatedDs, burstTiming_eq]
    rcases h with h | ⟨hf, hlt⟩
    · simp [h]
    · dsimp only
      rw [if_pos hf, if_pos hlt]
  rw [messageRun, repeatMachine_of_first (.inl (by rw [hzero]; decide)), hzero, validatedDs, burstTiming_eq]
  exact ⟨rfl, rfl, rfl, rfl, rfl, rfl⟩

section
variable {run : Status × DescState} {status : Status} {count : Word} {text : Text} {last now : Word}
  (h : Announces run status count text last) (hgap : (now - last).toNat ≤ 500000)
include h hgap

/-- Burst timing within the window moves the times alone (R184). -/
theorem Announces.validatedDs_eq (n : Nat) :
    validatedDs now n run.2 =
      { repeats := count, firstV := true, first := last, second := now, snapV := true, snap := text,
        rawlen := BitVec.ofNat 32 n } := by
  obtain ⟨_, rfl, rfl, hsnapV, hfirstV, rfl⟩ := h
  rw [validatedDs, burstTiming_eq]
  dsimp only
  rw [hsnapV, if_pos hfirstV, if_neg hgap.not_gt]

theorem Announces.known (msg : Text) (n : Nat) (h100 : 100 ≤ (count + 1).toNat) :
    Announces (messageRun msg now n run.2) .known (count + 1) text now := by
  rw [messageRun, h.validatedDs_eq hgap n, repeatMachine_of_known rfl h100]
  exact ⟨rfl, rfl, rfl, rfl, rfl, rfl⟩

variable {msg : Text} (n : Nat) (h1 : 1 < (count + 1).toNat) (h100 : (count + 1).toNat < 100)
include h1 h100

theorem Announces.valid (hm : msg = text) :
    Announces (messageRun msg now n run.2) .valid (count + 1 + 100) msg now := by
  rw [messageRun, h.validatedDs_eq hgap n, repeatMachine_of_valid h1 rfl h100 hm]
  exact ⟨rfl, rfl, rfl, rfl, rfl, rfl⟩

theorem Announces.invalid (hm : msg ≠ text) :
    Announces (messageRun msg now n run.2) .invalid (count + 1) msg now := by
  rw [messageRun, h.validatedDs_eq hgap n, repeatMachine_of_invalid h1 rfl h100 hm]
  exact ⟨rfl, rfl, rfl, rfl, rfl, rfl⟩

end

/-- The record of a run that announces something says just that (R190). -/
theorem Announces.record {run : Status × DescState} {status : Status} {count : Word} {text : Text} {now : Word}
    (h : Announces run status count text now) (id dev : Text) :
    Record.dec id run.2.snap run.1 run.2.repeats dev = .dec id text status count dev := by
  rw [h.snap, h.status, h.repeats]

/-- The entry `j` alone is decoded, with DEC records and without RAW records, and the clock supplies `clocks`. -/
structure Listening (s : State) (j : Nat) (P : Descriptor) (v : Fn Train Bool) (p : Fn Train (Option Config.Doc))
    (clocks : List Word) : Prop extends OnlyActive s j P v p where
  inRange : j < s.ds.length
  cbDec : s.cbDec = true
  cbRaw : s.cbRaw = false
  clockIn : s.clockIn = clocks

theorem clockValue_of_cons {s : State} {c : Word} {cs : List Word} (h : s.clockIn = c :: cs) : clockValue s = c := by
  rw [clockValue, h]

theorem afterClock_of_cons {s : State} {c : Word} {cs : List Word} (h : s.clockIn = c :: cs) :
    afterClock s = { s with clockIn := cs } := by
  rw [afterClock, h]

/-- DECODE of a message: one record with what the machine's run announces, and the next message finds the run's end. -/
theorem Listening.exec_message {s : State} {j : Nat} {P : Descriptor} {v : Fn Train Bool}
    {p : Fn Train (Option Config.Doc)} {c : Word} {cs : List Word} (h : Listening s j P v p (c :: cs)) {T : Train}
    {m : Config.Doc} (hT : T.length ≤ 255) (hv : applyFn v T = true) (hp : applyFn p T = some m) :
    let run := messageRun (applyFn s.cfg.codec.encode m) c T.length (dsAt s j)
    ∃ t, exec (.decode T) s = .next t ∧ t.cfg = s.cfg ∧ Listening t j P v p cs ∧ dsAt t j = run.2 ∧
      t.evt = s.evt ++ [.dec P.id run.2.snap run.1 run.2.repeats (deviceId s.cfg m)] := by
  intro run
  have hrun : repeatMachine (applyFn s.cfg.codec.encode m) (validatedDs (clockValue s) T.length (dsAt s j)) =
      (run.1, run.2) := by
    rw [clockValue_of_cons h.clockIn]
    rfl
  have hexec := h.exec_of_message hT h.inRange hv hp hrun
  rw [if_pos h.cbDec, afterClock_of_cons h.clockIn, emitRaw, if_neg (by simp [h.cbRaw])] at hexec
  refine ⟨_, hexec, rfl, ⟨⟨h.active, h.descriptor, h.validate, h.parse⟩, ?_, h.cbDec, h.cbRaw, rfl⟩, ?_, rfl⟩
  · exact h.inRange.trans_eq (List.length_set).symm
  · exact dsAt_setDs_self h.inRange run.2

/-- Settles O43: each message is given to the state in which the one before left DS[j]. -/
theorem burstStatuses : Obligations.BurstStatuses := by
  intro s j P v p T1 T2 T3 m1 m2 m3 c1 c2 c3 cs hactive hP hval hparse hj hdec hraw hclock hT1 hT2 hT3 hv1 hv2 hv3
    hp1 hp2 hp3 hstart text dev
  have hs : Listening s j P v p (c1 :: c2 :: c3 :: cs) := ⟨⟨hactive, hP, hval, hparse⟩, hj, hdec, hraw, hclock⟩
  obtain ⟨t1, hexec1, hcfg1, ht1, hds1, hevt1⟩ := hs.exec_message hT1 hv1 hp1
  obtain ⟨t2, hexec2, hcfg2, ht2, hds2, hevt2⟩ := ht1.exec_message hT2 hv2 hp2
  obtain ⟨t3, hexec3, _, _, _, hevt3⟩ := ht2.exec_message hT3 hv3 hp3
  have first := messageRun_announces_first (text m1) c1 T1.length hstart
  rw [hcfg1, hds1] at hevt2
  rw [hcfg2, hcfg1, hds2, hcfg1, hds1] at hevt3
  refine ⟨t1, t2, hexec1, hexec2, ?_, fun hgap hne => ?_, fun hgap => ?_, fun hgap hgap' heq heq' => ?_⟩
  · rw [hevt1, first.record]
  · have second := first.invalid hgap T2.length (by decide) (by decide) hne
    rw [hevt2, second.record]
    rfl
  · have second := messageRun_announces_first (text m2) c2 T2.length (.inr ⟨first.firstV, by rwa [first.second]⟩)
    rw [hevt2, second.record]
  · have second := first.valid hgap T2.length (by decide) (by decide) heq
    have third := second.known hgap' (text m3) T3.length (by decide)
    refine ⟨?_, t3, hexec3, ?_⟩
    · rw [hevt2, second.record, heq]
      rfl
    · rw [hevt3, third.record, heq]
      rfl

end Sys2Proof.Machine
end

section
/-! PROOFS. The statements of 43_decode.md about the repeat machine alone (R198) and the device identifier (R193). -/

namespace Sys2Proof.Machine

/-! ## A burst of unequal texts (R198) -/

/-- Texts each unlike the one before, counted from `d` on and below 100, give INVALID and nothing else (R188). -/
theorem runMachine_of_unequal {msgs : List Text} {d : DescState} (hv : d.snapV = true) (h1 : 1 ≤ d.repeats.toNat)
    (h100 : d.repeats.toNat + msgs.length < 100) (hne : (d.snap :: msgs).IsChain (· ≠ ·)) :
    (runMachine msgs d).1 = List.replicate msgs.length .invalid ∧
      (runMachine msgs d).2.repeats.toNat = d.repeats.toNat + msgs.length ∧ (runMachine msgs d).2.snapV = true := by
  induction msgs generalizing d with
  | nil => exact ⟨rfl, rfl, hv⟩
  | cons msg msgs ih =>
    obtain ⟨hmsg, hmsgs⟩ := List.isChain_cons_cons.mp hne
    rw [List.length_cons] at h100
    have hnext : (d.repeats + 1).toNat = d.repeats.toNat + 1 := by
      rw [BitVec.toNat_add, show (1 : Word).toNat = 1 from rfl]
      omega
    have hrun := repeatMachine_of_invalid (msg := msg) (by omega) hv (by omega) hmsg.symm
    obtain ⟨hstatuses, hrepeats, hsnapV⟩ :=
      ih (d := { d with repeats := d.repeats + 1, snap := msg }) hv (by rw [hnext]; omega) (by rw [hnext]; omega) hmsgs
    rw [runMachine, hrun]
    refine ⟨?_, ?_, hsnapV⟩
    · rw [List.length_cons, List.replicate_succ, ← hstatuses]
    · rw [List.length_cons, hrepeats, hnext]
      omega

/-- A count that wraps to 0, or reaches 1, gives FIRST (R187). -/
theorem repeatMachine_of_wrap (msg : Text) {d : DescState} (h : d.repeats = 0xFFFFFFFF ∨ d.repeats = 0) :
    repeatMachine msg d = (.first, { d with repeats := d.repeats + 1, snap := msg, snapV := true }) :=
  repeatMachine_of_first (.inl (by rcases h with e | e <;> rw [e] <;> decide))

/-- Settles O44: the first text is FIRST with count 1, and the 98 after it, each unlike the one before, count on to 99. -/
theorem invalidRunReachesKnown : Obligations.InvalidRunReachesKnown := by
  refine ⟨fun d msgs last hd hlen hne => ?_, fun d msg h => ?_⟩
  · obtain ⟨msg, msgs, rfl⟩ := List.exists_cons_of_length_eq_add_one hlen
    rw [List.length_cons, Nat.add_right_cancel_iff] at hlen
    have hone : d.repeats + 1 = 1 := by rw [hd]; rfl
    have hfirst := repeatMachine_of_wrap msg (.inr hd)
    rw [hone] at hfirst
    have hbelow : 1 + msgs.length < 100 := by omega
    obtain ⟨hstatuses, hrepeats, hsnapV⟩ := runMachine_of_unequal
      (d := { d with repeats := 1, snap := msg, snapV := true }) rfl (Nat.le_refl 1) hbelow hne
    rw [runMachine, hfirst]
    dsimp only
    generalize (runMachine msgs _).2 = e at *
    have he : e.repeats = 99 := BitVec.eq_of_toNat_eq (by rw [hrepeats, hlen]; rfl)
    have hknown := repeatMachine_of_known (msg := last) hsnapV (by rw [he]; decide)
    refine ⟨by rw [hstatuses, hlen], he, ?_, ?_⟩
    · rw [hknown]
    · rw [hknown, he]
      rfl
  · rw [repeatMachine_of_wrap msg h]
    exact ⟨rfl, rfl⟩

/-! ## Device identifiers (R193) -/

/-- The integer nearest to a real, a tie going away from zero. -/
def NearestAway (r : ℝ) (v : Int) : Prop := |r - v| ≤ 1 / 2 ∧ (|r - v| = 1 / 2 → |r| < |(v : ℝ)|)

theorem NearestAway.of_lt {r : ℝ} {v : Int} (h : |r - v| < 1 / 2) : NearestAway r v :=
  ⟨h.le, fun htie => absurd htie h.ne⟩

theorem NearestAway.neg {r : ℝ} {v : Int} (h : NearestAway r v) : NearestAway (-r) (-v) := by
  have hdiff : |-r - ((-v : Int) : ℝ)| = |r - v| := by
    rw [Int.cast_neg, neg_sub_neg, abs_sub_comm]
  unfold NearestAway
  rw [hdiff, abs_neg, Int.cast_neg, abs_neg]
  exact h

/-- A quotient of natural numbers is rounded by the quotient of 2a + b by 2b, a tie going up. -/
theorem nearestAway_div (a : Nat) {b : Nat} (hb : 0 < b) :
    NearestAway ((a : ℝ) / b) (((2 * a + b) / (2 * b) : Nat) : Int) := by
  have hlow := Nat.mul_div_le (2 * a + b) (2 * b)
  have hup := Nat.lt_mul_div_succ (2 * a + b) (show 0 < 2 * b by omega)
  generalize (2 * a + b) / (2 * b) = m at *
  have hb' : (0 : ℝ) < b := by exact_mod_cast hb
  have hlow : (m : ℝ) - 1 / 2 ≤ a / b := by
    have : 2 * (b : ℝ) * m ≤ 2 * a + b := by exact_mod_cast hlow
    rw [le_div_iff₀ hb']
    linarith
  have hup : (a : ℝ) / b < m + 1 / 2 := by
    have : 2 * (a : ℝ) + b < 2 * b * (m + 1) := by exact_mod_cast hup
    rw [div_lt_iff₀ hb']
    linarith
  rw [NearestAway, Int.cast_natCast]
  refine ⟨abs_le.mpr ⟨by linarith, by linarith⟩, fun htie => ?_⟩
  have hbelow : (a : ℝ) / b < m := by
    rcases eq_or_eq_neg_of_abs_eq htie with e | e <;> linarith
  rwa [Nat.abs_cast, abs_of_nonneg (by positivity)]

/-- A negative rational is rounded as its absolute value, then negated. -/
theorem nearestAway_roundRational (x : Rat) : NearestAway x (roundRational x) := by
  have hnear := nearestAway_div x.num.natAbs x.den_pos
  rw [Nat.cast_natAbs] at hnear
  unfold roundRational
  rw [Rat.cast_def x]
  dsimp only
  split
  · next hneg =>
    rw [abs_of_neg hneg, Int.cast_neg, neg_div] at hnear
    simpa using hnear.neg
  · next hpos =>
    rwa [abs_of_nonneg (not_lt.mp hpos)] at hnear

/-- An irrational is no tie, so its integer part and the half it lies in give the nearest integer. -/
theorem nearestAway_irrational {r : ℝ} (hr : Irrational r) {upper : Bool}
    (hupper : upper = true ↔ 1 / 2 < Int.fract r) : NearestAway r (roundAway (.irrational ⌊r⌋ upper)) := by
  have hsum := Int.floor_add_fract r
  have h0 := Int.fract_nonneg r
  have h1 := Int.fract_lt_one r
  have hne : Int.fract r ≠ 1 / 2 := fun e => hr ⟨⌊r⌋ + 1 / 2, by push_cast; linarith⟩
  unfold roundAway
  dsimp only
  refine .of_lt (abs_lt.mpr ?_)
  split
  · next h =>
    have := hupper.mp h
    push_cast
    constructor <;> linarith
  · next h =>
    have := lt_of_le_of_ne (not_lt.mp (hupper.not.mp h)) hne
    constructor <;> linarith

theorem nearestAway_roundAway {x : Config.Number} {r : ℝ} (h : Denotes x r) : NearestAway r (roundAway x) := by
  cases x with
  | rational x =>
    obtain rfl : r = x := h
    exact nearestAway_roundRational x
  | irrational whole upper =>
    obtain ⟨hr, rfl, hupper⟩ := h
    exact nearestAway_irrational hr hupper

/-- The digits of a positive number start with one that is not '0': the last quotient below 10 is not 0. -/
theorem decimalOnto_head_ne_zero {fuel n : Nat} (hn : 0 < n) (hfuel : n < fuel) (acc : Text) :
    ∃ ch rest, decimalOnto fuel n acc = ch :: rest ∧ ch ≠ 48 := by
  induction fuel generalizing n acc with
  | zero => omega
  | succ fuel ih =>
    rw [decimalOnto]
    split
    · next hlt =>
      refine ⟨digitByte n, acc, rfl, fun e => ?_⟩
      have hval : 48 + n = 48 := (digitByte_toNat n hlt).symm.trans (congrArg BitVec.toNat e)
      omega
    · exact ih (by omega) (by omega) _

theorem decimalText_no_leading_zero {n : Nat} (h : (decimalText n).head? = some 48) : decimalText n = [48] := by
  rcases n.eq_zero_or_pos with rfl | hn
  · rfl
  · obtain ⟨ch, rest, e, hch⟩ := decimalOnto_head_ne_zero hn n.lt_succ_self []
    rw [decimalText, e] at h
    exact absurd (Option.some.inj h) hch

/-- Settles O45: the number is rounded to the nearest integer, and the decimal text of an integer is its sign and
digits. -/
theorem deviceIdText : Obligations.DeviceIdText := by
  refine ⟨fun _ _ h => nearestAway_roundAway h,
    fun n => ⟨decimalText_value n, decimalText_digits n, decimalText_ne_nil n, decimalText_no_leading_zero⟩,
    fun v => ?_, fun c m => ⟨fun x h => ?_, fun hn t ht => ?_, fun hn ht => ?_⟩⟩
  · rw [integerText]
    split <;> rfl
  · rw [deviceId, h]
  · rw [deviceId, hn, ht]
  · rw [deviceId, hn, ht]

end Sys2Proof.Machine
end

section
/-! PROOFS. The statements of 44_encode_tx.md: what ENCODE refuses (R221, R222, R226), what it answers with the
descriptor its search finds (R222 to R225), its frame (R227), and the waveform of TX (R230, R231). -/

namespace Sys2Proof.Machine

/-! ## ENCODE, outcome by outcome -/

/-- ENCODE runs on texts within TXT_MAX (R87, R220). -/
theorem exec_encode {s : State} {id msg : Text} (capacity : Word) (hid : id.length ≤ s.cfg.txtMax.toNat)
    (hmsg : msg.length ≤ s.cfg.txtMax.toNat) :
    exec (.encode id msg capacity) s = encodeCommand id msg capacity s :=
  if_pos (by simp [Instr.wellFormed, textOk, hid, hmsg])

/-- The message is checked before the id (R221). -/
theorem encodeCommand_of_malformed {s : State} {msg : Text} (id : Text) (capacity : Word)
    (hv : applyFn s.cfg.codec.valid msg = false) :
    encodeCommand id msg capacity s = .next (answerError .malformed s) := by
  rw [encodeCommand, hv]
  rfl

section
variable {s : State} {id msg : Text} {capacity : Word} (hv : applyFn s.cfg.codec.valid msg = true)
include hv

theorem encodeCommand_of_not_found (hf : findEncoder id capacity 0 s.cfg.protocols = none) :
    encodeCommand id msg capacity s = .next (answerError .noProto s) := by
  rw [encodeCommand, if_pos hv, hf]

theorem encodeCommand_of_found {e : Encoder} (hf : findEncoder id capacity 0 s.cfg.protocols = some e) :
    encodeCommand id msg capacity s = useEncoder e (applyFn s.cfg.codec.parse msg) s := by
  rw [encodeCommand, if_pos hv, hf]

end

section
variable {e : Encoder} {d : Config.Doc}

theorem useEncoder_of_failed (s : State) (hc : applyFn e.create d = none) :
    useEncoder e d s = .next (answerError .create (setRawlen e.index 0 s)) := by
  rw [useEncoder, hc]

theorem useEncoder_of_overrun (s : State) {r : Train} (hc : applyFn e.create d = some r)
    (ho : createOverruns e r = true) : useEncoder e d s = .fault .createOverrun := by
  rw [useEncoder, hc]
  exact if_pos ho

theorem useEncoder_of_built (s : State) {r : Train} (hc : applyFn e.create d = some r)
    (ho : createOverruns e r = false) :
    useEncoder e d s = .next (answer (countWord r.length) r (setRawlen e.index r.length s)) := by
  rw [useEncoder, hc]
  dsimp only
  rw [if_neg (Bool.eq_false_iff.mp ho), setRawlen_setRawlen]

end

/-- Settles O46: the search fails where no descriptor is usable, and under unique ids one that is not usable is the
only candidate. -/
theorem encodeRefusals : Obligations.EncodeRefusals := by
  intro s id msg capacity hid hmsg
  rw [exec_encode capacity hid hmsg]
  have refused (hv : applyFn s.cfg.codec.valid msg = true)
      (hnone : id = [] ∨ ∀ P ∈ s.cfg.protocols, P.id = id → P.maxrawlen ≤ capacity → P.create = none) :
      encodeCommand id msg capacity s = .next (answerError .noProto s) :=
    encodeCommand_of_not_found hv ((findEncoder_eq_none id capacity 0 _).mpr hnone)
  refine ⟨encodeCommand_of_malformed id capacity, fun hv hnone => refused hv (.inr hnone),
    fun hv hadm P hP hPid hunusable => refused hv (.inr fun Q hQ hQid hcap => ?_),
    fun hv hempty => refused hv (.inl hempty)⟩
  obtain rfl : Q = P := List.inj_on_of_nodup_map hadm.2 hQ hP (hQid.trans hPid.symm)
  exact hunusable.resolve_left (BitVec.not_lt.mpr hcap)

/-- Settles O47: the search finds the first usable descriptor, and the three outcomes are those of its create. -/
theorem encodeBuildsTrain : Obligations.EncodeBuildsTrain := by
  intro s id msg capacity j P f hid hmsg hv hne hj hPid hcap hcreate hfirst
  have hfound := findEncoder_first id capacity _ 0 j P f hne hj hPid hcap hcreate hfirst
  rw [Nat.zero_add] at hfound
  rw [exec_encode capacity hid hmsg, encodeCommand_of_found hv hfound]
  refine ⟨fun r hr hmax h255 => useEncoder_of_built s hr (decide_eq_false ?_),
    fun hnone => useEncoder_of_failed s hnone,
    fun r hr hover => useEncoder_of_overrun s hr (decide_eq_true (.inl hover))⟩
  exact not_or.mpr ⟨Nat.not_lt.mpr hmax, Nat.not_lt.mpr h255⟩

/-- RAWLEN where the use of a descriptor answers (R223, R224): 0 after a failed create, else the train's length. -/
theorem useEncoder_ds {e : Encoder} {d : Config.Doc} {s t : State} (h : useEncoder e d s = .next t) :
    t.ds = (setRawlen e.index (((applyFn e.create d).map List.length).getD 0) s).ds := by
  cases hc : applyFn e.create d with
  | none =>
    rw [useEncoder_of_failed s hc] at h
    cases h
    rfl
  | some r =>
    cases ho : createOverruns e r with
    | true =>
      rw [useEncoder_of_overrun s hc ho] at h
      cases h
    | false =>
      rw [useEncoder_of_built s hc ho] at h
      cases h
      rfl

/-- A text out of bounds, a malformed message and a failed search are each answered by an error alone (R221, R222). -/
theorem exec_encode_refused {s : State} {id msg : Text} {capacity : Word}
    (h : (Instr.encode id msg capacity).wellFormed s.cfg.txtMax = false ∨
      applyFn s.cfg.codec.valid msg = false ∨ findEncoder id capacity 0 s.cfg.protocols = none) :
    ∃ err, exec (.encode id msg capacity) s = .next (answerError err s) := by
  rcases onWellFormed_cases (.encode id msg capacity) s (encodeCommand id msg capacity s) with
    ⟨hw, hrun⟩ | ⟨_, hrun⟩
  · cases hv : applyFn s.cfg.codec.valid msg with
    | false => exact ⟨.malformed, hrun.trans (encodeCommand_of_malformed id capacity hv)⟩
    | true =>
      have hf : findEncoder id capacity 0 s.cfg.protocols = none := by simpa [hw, hv] using h
      exact ⟨.noProto, hrun.trans (encodeCommand_of_not_found hv hf)⟩
  · exact ⟨.illegal, hrun⟩

/-- Settles O48: beside its result frame a completed ENCODE leaves what the use of the descriptor found leaves, and
a refused one leaves nothing. -/
theorem encodeFrame : Obligations.EncodeFrame := by
  intro s t id msg capacity h
  obtain ⟨r, ht⟩ := execEncode_frame id msg capacity s t h
  have hresults : t.results = s.results ++ [r] := congrArg State.results ht
  refine ⟨hresults ▸ ht, ⟨r, hresults⟩, fun e hw hv hf => ?_, fun hrefused => ?_⟩
  · have hrun : exec (.encode id msg capacity) s = useEncoder e (applyFn s.cfg.codec.parse msg) s :=
      (if_pos hw).trans (encodeCommand_of_found hv hf)
    rw [useEncoder_ds (hrun.symm.trans h)]
    cases applyFn e.create (applyFn s.cfg.codec.parse msg) <;> rfl
  · obtain ⟨err, herr⟩ := exec_encode_refused hrefused
    rw [herr] at h
    cases h
    rfl

/-! ## The waveform of TX -/

/-- TX runs on every train within CAP (R87, R230). -/
theorem exec_tx (s : State) (repeats : BitVec 16) {T : Train} (hT : T.length ≤ 255) :
    exec (.tx repeats T) s = .next (answer 0 [] (driveTx (txWaveform repeats.toNat T) .low s)) :=
  if_pos (decide_eq_true hT)

@[simp] theorem otherLevel_otherLevel (l : Level) : otherLevel (otherLevel l) = l := by
  cases l <;> rfl

/-- Within one repetition the even positions have the level it begins with, the odd ones the other (R230). -/
theorem getElem?_txPulses (l : Level) (T : Train) (k : Nat) :
    (txPulses l T)[k]? = T[k]?.map (.hold (if k % 2 = 0 then l else otherLevel l)) := by
  induction T generalizing l k with
  | nil => rfl
  | cons p T ih =>
    cases k with
    | zero => rfl
    | succ k =>
      rw [txPulses, List.getElem?_cons_succ, List.getElem?_cons_succ, ih, otherLevel_otherLevel]
      rcases Nat.mod_two_eq_zero_or_one k with h | h <;> simp [Nat.add_mod, h]

/-- Position `q` of a list repeated `n` times is its position modulo the list's length. -/
theorem getElem?_flatten_replicate {α : Type} (xs : List α) {n q : Nat} (hq : q < n * xs.length) :
    (List.replicate n xs).flatten[q]? = xs[q % xs.length]? := by
  induction n generalizing q with
  | zero => omega
  | succ n ih =>
    rw [List.replicate_succ, List.flatten_cons]
    by_cases hlt : q < xs.length
    · rw [List.getElem?_append_left hlt, Nat.mod_eq_of_lt hlt]
    · have hle := Nat.le_of_not_lt hlt
      rw [Nat.succ_mul] at hq
      rw [List.getElem?_append_right hle, ih (by omega), ← Nat.mod_eq_sub_mod hle]

/-- Settles O49: the waveform is the repetitions of one alternating train, then the LOW level. -/
theorem txWaveformShape : Obligations.TxWaveformShape := by
  intro s repeats T hT
  refine ⟨(List.replicate repeats.toNat (txPulses .high T)).flatten, ?_, ?_, fun q p hq hp => ?_⟩
  · rw [exec_tx s repeats hT, driveTx, txWaveform, List.append_assoc]
  · simp
  · rw [← txPulses_length .high T] at hq
    rw [getElem?_flatten_replicate _ hq, txPulses_length, getElem?_txPulses, hp]
    rfl

end Sys2Proof.Machine
end

section
/-! PROOFS. The statement of 45_limit.md: LIMIT's new ACTIVE, and that nothing else changes (R250 to R254). -/

namespace Sys2Proof.Machine

/-- The index of an id is the first of 0, 1, … at which the canonical list has a descriptor of that id (R251). -/
theorem findProtocol_eq_find?_range (ps : List Config.Descriptor) (id : Text) :
    findProtocol ps id =
      (List.range ps.length).find? fun j => (ps[j]?.map Config.Descriptor.id) = some id := by
  ext j
  rw [findProtocol, List.findIdx?_eq_some_iff_getElem, List.find?_range_eq_some, List.mem_range]
  constructor
  · rintro ⟨hj, hid, hfirst⟩
    refine ⟨by simpa [hj] using hid, hj, fun k hk => ?_⟩
    simpa [hk.trans hj] using hfirst k hk
  · rintro ⟨hid, hj, hfirst⟩
    refine ⟨hj, by simpa [hj] using hid, fun k hk => ?_⟩
    simpa [hk.trans hj] using hfirst k hk

/-- The new ACTIVE is the known ids in reverse input order, if there is one (R250, R252). -/
theorem limitedActive_of_known {ps : List Config.Descriptor} {ids : List Text}
    (h : ids.reverse.filterMap (findProtocol ps) ≠ []) :
    limitedActive ps ids = ids.reverse.filterMap (findProtocol ps) := by
  rw [limitedActive, matchedIds_eq, List.append_nil]
  split
  · next hnil => exact absurd hnil h
  · next hcons => exact hcons.symm

/-- With no known id the new ACTIVE is the whole canonical list (R253). -/
theorem limitedActive_of_unknown {ps : List Config.Descriptor} {ids : List Text}
    (h : ids.reverse.filterMap (findProtocol ps) = []) : limitedActive ps ids = List.range ps.length := by
  rw [limitedActive, matchedIds_eq, h]
  rfl

/-- LIMIT runs on every list of ids within the bounds of R87, and writes ACTIVE and its result frame only (R254). -/
theorem exec_limit (s : State) {ids : List Text} (h : textsOk s.cfg.txtMax ids = true) :
    exec (.limit ids) s = .next (answer 0 [] { s with active := limitedActive s.cfg.protocols ids }) :=
  if_pos h

/-- Settles O50: each id is looked up by its first index, and the empty outcome stands for the whole list. -/
theorem limitReplacesActive : Obligations.LimitReplacesActive := by
  intro s ids hids
  have hknown := funext (findProtocol_eq_find?_range s.cfg.protocols)
  refine ⟨_, exec_limit s hids, ?_⟩
  rw [← hknown]
  exact ⟨limitedActive_of_known, limitedActive_of_unknown⟩

end Sys2Proof.Machine
end

section
/-! PROOFS. The statements of 46_text_codec.md on PT2STR: the type table and the codes a train gets (R270 to R277). -/

namespace Sys2Proof.Machine

/-! ## The search for a type (R271) -/

/-- A type found is one of the table's. -/
theorem findType_lt {types : List Word} {x : Word} {t : Nat} (h : findType types x = some t) : t < types.length := by
  obtain ⟨⟨rep, hrep, -⟩, -⟩ := findType_eq_some types x t h
  exact (List.getElem?_eq_some_iff.mp hrep).1

/-- A type added at the end leaves the first type a pulse matches what it was. -/
theorem findType_concat {types : List Word} {x : Word} {t : Nat} (h : findType types x = some t) (y : Word) :
    findType (types ++ [y]) x = some t := by
  rw [findType] at h
  rw [findType, List.findIdx?_append, h, Option.some_or]

theorem typeMatches_self (x : Word) : typeMatches x x = true := by
  rw [typeMatches_iff, Int.sub_self]
  decide

/-- A pulse that matches no type of the table matches itself at its end (R272). -/
theorem findType_concat_self {types : List Word} {x : Word} (h : findType types x = none) :
    findType (types ++ [x]) x = some types.length := by
  rw [findType] at h
  simp [findType, List.findIdx?_append, h, List.findIdx?_cons, typeMatches_self]

/-- No two types of a table match (R278). -/
abbrev TypesApart (types : List Word) : Prop := types.Pairwise fun a b => typeMatches b a = false

/-- Of types that do not match each other, each one is found as itself (R278). -/
theorem findType_getElem {types : List Word} (hapart : TypesApart types) {t : Nat} (ht : t < types.length) :
    findType types types[t] = some t := by
  rw [findType, List.findIdx?_eq_some_iff_getElem]
  refine ⟨ht, typeMatches_self _, fun i hi => ?_⟩
  rw [List.pairwise_iff_getElem.mp hapart i t (hi.trans ht) ht hi]
  decide

theorem indexChar_toNat {t : Nat} (h : t < 16) : (indexChar t).toNat = 48 + t := by
  rw [indexChar, BitVec.toNat_ofNat]
  omega

/-! ## The loop over the pulses (R270) -/

theorem codePulses_seen {types : List Word} {x : Word} {t : Nat} (h : findType types x = some t) (codes : Text)
    (p : Train) : codePulses types codes (x :: p) = codePulses types (codes ++ [indexChar t]) p := by
  rw [codePulses, h]

theorem codePulses_fresh {types : List Word} {x : Word} (h : findType types x = none) (hroom : types.length ≠ 16)
    (codes : Text) (p : Train) :
    codePulses types codes (x :: p) = codePulses (types ++ [x]) (codes ++ [indexChar types.length]) p := by
  rw [codePulses, h]
  exact if_neg hroom

theorem codePulses_full {types : List Word} {x : Word} (h : findType types x = none) (hfull : types.length = 16)
    (codes : Text) (p : Train) : codePulses types codes (x :: p) = none := by
  rw [codePulses, h]
  exact if_pos hfull

/-- The loop stops where a pulse matches none of 16 types, and nowhere else (R273). -/
theorem codePulses_eq_none {types : List Word} {codes : Text} {p : Train} :
    codePulses types codes p = none ↔ ∃ q x rest T C, p = q ++ x :: rest ∧
      codePulses types codes q = some (T, C) ∧ T.length = 16 ∧ findType T x = none := by
  constructor
  · intro h
    induction p generalizing types codes with
    | nil => cases h
    | cons x p ih =>
      cases hf : findType types x with
      | some t =>
        rw [codePulses_seen hf] at h
        obtain ⟨q, y, rest, T, C, rfl, hq, hfull⟩ := ih h
        exact ⟨x :: q, y, rest, T, C, rfl, (codePulses_seen hf codes q).trans hq, hfull⟩
      | none =>
        by_cases hfull : types.length = 16
        · exact ⟨[], x, p, types, codes, rfl, rfl, hfull, hf⟩
        · rw [codePulses_fresh hf hfull] at h
          obtain ⟨q, y, rest, T, C, rfl, hq, hfull'⟩ := ih h
          exact ⟨x :: q, y, rest, T, C, rfl, (codePulses_fresh hf hfull codes q).trans hq, hfull'⟩
  · rintro ⟨q, x, rest, T, C, rfl, hq, hfull, hf⟩
    rw [codePulses_append, hq]
    exact codePulses_full hf hfull C rest

/-- What PT2STR makes of a train, pulse by pulse: the next pulse is given the code of the first type it matches,
or becomes the next type of a table with room (R271, R272, R274). -/
inductive Coded : Train → List Word → Text → Prop
  | nil : Coded [] [] []
  | seen {p : Train} {types : List Word} {codes : Text} {x : Word} {t : Nat} (hp : Coded p types codes)
      (hf : findType types x = some t) : Coded (p ++ [x]) types (codes ++ [indexChar t])
  | fresh {p : Train} {types : List Word} {codes : Text} {x : Word} (hp : Coded p types codes)
      (hf : findType types x = none) (hroom : types.length ≠ 16) :
      Coded (p ++ [x]) (types ++ [x]) (codes ++ [indexChar types.length])

/-- The loop goes on with what it has made of the pulses before. -/
theorem Coded.append {q p : Train} {T types : List Word} {C codes : Text} (hq : Coded q T C)
    (h : codePulses T C p = some (types, codes)) : Coded (q ++ p) types codes := by
  induction p generalizing q T C with
  | nil =>
    cases h
    rwa [List.append_nil]
  | cons x p ih =>
    rw [List.append_cons]
    cases hf : findType T x with
    | some t =>
      rw [codePulses_seen hf] at h
      exact ih (.seen hq hf) h
    | none =>
      by_cases hfull : T.length = 16
      · rw [codePulses_full hf hfull] at h
        cases h
      · rw [codePulses_fresh hf hfull] at h
        exact ih (.fresh hq hf hfull) h

/-- `Coded` says what the loop of R270 answers. -/
theorem coded_iff {p : Train} {types : List Word} {codes : Text} :
    Coded p types codes ↔ codePulses [] [] p = some (types, codes) := by
  refine ⟨fun h => ?_, Coded.append .nil⟩
  induction h with
  | nil => rfl
  | seen _ hf ih =>
    rw [codePulses_append, ih]
    exact codePulses_seen hf _ []
  | fresh _ hf hroom ih =>
    rw [codePulses_append, ih]
    exact codePulses_fresh hf hroom _ []

namespace Coded

variable {p : Train} {types : List Word} {codes : Text}

theorem types_length (h : Coded p types codes) : types.length ≤ 16 := by
  induction h with
  | nil => exact Nat.zero_le _
  | seen _ _ ih => exact ih
  | fresh _ _ hroom ih =>
    rw [List.length_append, List.length_singleton]
    omega

/-- A type is a pulse of the train (R272). -/
theorem types_subset (h : Coded p types codes) : types ⊆ p := by
  induction h with
  | nil => exact List.Subset.refl _
  | seen _ _ ih => exact List.subset_append_of_subset_left _ ih
  | fresh _ _ _ ih =>
    exact List.append_subset.mpr ⟨List.subset_append_of_subset_left _ ih, List.subset_append_right _ _⟩

theorem typesApart (h : Coded p types codes) : TypesApart types := by
  induction h with
  | nil => exact List.Pairwise.nil
  | seen _ _ ih => exact ih
  | @fresh p types _ x _ hf _ ih =>
    refine List.pairwise_append.mpr ⟨ih, List.pairwise_singleton _ _, fun a ha b hb => ?_⟩
    rw [List.mem_singleton.mp hb]
    exact (findType_eq_none types x).mp hf a ha

/-- One code a pulse, each the index character of the first type the pulse matches (R271, R274). -/
theorem codes_forall₂ (h : Coded p types codes) :
    List.Forall₂ (fun x ch => ∃ t, findType types x = some t ∧ ch = indexChar t) p codes := by
  induction h with
  | nil => exact List.Forall₂.nil
  | seen _ hf ih => exact List.rel_append ih (.cons ⟨_, hf, rfl⟩ .nil)
  | fresh _ hf _ ih =>
    refine List.rel_append (ih.imp ?_) (.cons ⟨_, findType_concat_self hf, rfl⟩ .nil)
    rintro y _ ⟨t, ht, rfl⟩
    exact ⟨t, findType_concat ht _, rfl⟩

/-- The code at a pulse, by its position. -/
theorem code {k : Nat} {x : Word} {ch : Byte} (h : Coded p types codes) (hx : p[k]? = some x)
    (hch : codes[k]? = some ch) : ∃ t < 16, findType types x = some t ∧ ch = indexChar t := by
  obtain ⟨hk, rfl⟩ := List.getElem?_eq_some_iff.mp hx
  obtain ⟨hk', rfl⟩ := List.getElem?_eq_some_iff.mp hch
  obtain ⟨t, hf, hcode⟩ := h.codes_forall₂.get hk hk'
  exact ⟨t, (findType_lt hf).trans_le h.types_length, hf, hcode⟩

theorem codes_length (h : Coded p types codes) : codes.length = p.length := h.codes_forall₂.length_eq.symm

/-- Every code is the index character of a type of the table. -/
theorem codes_mem {ch : Byte} (h : Coded p types codes) (hch : ch ∈ codes) :
    ∃ t < types.length, ch = indexChar t := by
  obtain ⟨k, hk, rfl⟩ := List.mem_iff_getElem.mp hch
  obtain ⟨t, hf, e⟩ := h.codes_forall₂.get (h.codes_length ▸ hk) hk
  exact ⟨t, findType_lt hf, e⟩

/-- Every type of the table has been given as a code (R272). -/
theorem types_used (h : Coded p types codes) {i : Nat} (hi : i < types.length) : indexChar i ∈ codes := by
  induction h with
  | nil => exact absurd hi (Nat.not_lt_zero i)
  | seen _ _ ih => exact List.mem_append_left _ (ih hi)
  | fresh _ _ _ ih =>
    rw [List.length_append, List.length_singleton] at hi
    rcases Nat.lt_succ_iff_lt_or_eq.mp hi with hlt | rfl
    · exact List.mem_append_left _ (ih hlt)
    · exact List.mem_append_right _ (List.mem_singleton_self _)

end Coded

/-- A code not met before stands for its own pulse, the types before that having been met (R272). -/
def FirstUse (p : Train) (types : List Word) (codes : Text) : Prop :=
  ∀ k x ch, p[k]? = some x → codes[k]? = some ch → ch ∉ codes.take k →
    ∃ t, ch = indexChar t ∧ types[t]? = some x ∧ ∀ i < t, indexChar i ∈ codes.take k

/-- One more pulse: what holds of the positions before it stays, so its own code alone is in question. -/
theorem FirstUse.concat {p : Train} {types more : List Word} {codes : Text} {x : Word} {t : Nat}
    (h : FirstUse p types codes) (hlen : codes.length = p.length)
    (hlast : indexChar t ∉ codes → (types ++ more)[t]? = some x ∧ ∀ i < t, indexChar i ∈ codes) :
    FirstUse (p ++ [x]) (types ++ more) (codes ++ [indexChar t]) := by
  intro k y ch hy hch
  rcases Nat.lt_trichotomy k p.length with hk | rfl | hk
  · rw [List.getElem?_append_left hk] at hy
    rw [List.getElem?_append_left (hlen ▸ hk)] at hch
    rw [List.take_append_of_le_length (hlen ▸ hk.le)]
    intro hnew
    obtain ⟨u, hu, hx, hmet⟩ := h k y ch hy hch hnew
    obtain ⟨hlt, -⟩ := List.getElem?_eq_some_iff.mp hx
    exact ⟨u, hu, (List.getElem?_append_left hlt).trans hx, hmet⟩
  · rw [List.getElem?_concat_length] at hy
    rw [← hlen, List.getElem?_concat_length] at hch
    cases hy
    cases hch
    rw [← hlen, List.take_left]
    exact fun hnew => ⟨t, rfl, hlast hnew⟩
  · rw [List.getElem?_eq_none (by simpa using hk)] at hy
    cases hy

theorem Coded.firstUse {p : Train} {types : List Word} {codes : Text} (h : Coded p types codes) :
    FirstUse p types codes := by
  induction h with
  | nil => exact fun k x ch hx => by cases hx
  | @seen p types codes x t hp hf ih =>
    rw [← List.append_nil types]
    exact ih.concat hp.codes_length fun hnew => absurd (hp.types_used (findType_lt hf)) hnew
  | fresh hp _ _ ih =>
    exact ih.concat hp.codes_length fun _ => ⟨List.getElem?_concat_length, fun i hi => hp.types_used hi⟩

/-- The first use of a code, by the positions before it. -/
theorem Coded.firstUse_of_code {p : Train} {types : List Word} {codes : Text} {k : Nat} {x : Word} {t : Nat}
    (h : Coded p types codes) (hf : findType types x = some t) (hx : p[k]? = some x)
    (hch : codes[k]? = some (indexChar t)) (hnew : ∀ j < k, codes[j]? ≠ some (indexChar t)) :
    types[t]? = some x ∧ ∀ i < t, ∃ j < k, codes[j]? = some (indexChar i) := by
  have hmem (ch : Byte) : ch ∈ codes.take k ↔ ∃ j < k, codes[j]? = some ch := by
    simp [List.mem_iff_getElem?, List.getElem?_take]
  obtain ⟨u, -, hu, hmet⟩ := h.firstUse k x _ hx hch fun hin => by
    obtain ⟨j, hj, e⟩ := (hmem _).mp hin
    exact hnew j hj e
  obtain ⟨hlt, rfl⟩ := List.getElem?_eq_some_iff.mp hu
  obtain rfl : u = t := Option.some.inj ((findType_getElem h.typesApart hlt).symm.trans hf)
  exact ⟨hu, fun i hi => (hmem _).mp (hmet i hi)⟩

/-! ## PT2STR (R270) -/

theorem trainToken_of_coded {p : Train} {types : List Word} {codes : Text} (h : Coded p types codes) :
    trainToken p = some (tokenText types codes) := by
  rw [trainToken, coded_iff.mp h]

theorem trainToken_eq_none {p : Train} : trainToken p = none ↔ codePulses [] [] p = none := by
  rw [trainToken]
  cases codePulses [] [] p <;> simp

/-- PT2STR of a train within CAP answers its token, if there is one (R270). -/
theorem exec_pt2str_of_some (s : State) {p : Train} {token : Text} (hp : p.length ≤ 255)
    (h : trainToken p = some token) :
    exec (.pt2str p) s = .next (answer (BitVec.ofNat 32 token.length) (packText token) s) := by
  refine (if_pos (decide_eq_true hp)).trans ?_
  rw [h]
  rfl

/-- PT2STR of a train within CAP answers the empty result where there is no token (R273). -/
theorem exec_pt2str_of_none (s : State) {p : Train} (hp : p.length ≤ 255) (h : trainToken p = none) :
    exec (.pt2str p) s = .next (answer 0 [] s) := by
  refine (if_pos (decide_eq_true hp)).trans ?_
  rw [h]

/-- Settles O52: the empty train needs no type, and a train of one pulse one. -/
theorem pt2strSmallTrains : Obligations.Pt2strSmallTrains := by
  intro s
  have hempty : Coded [] [] [] := .nil
  refine ⟨exec_pt2str_of_some s (by simp) (trainToken_of_coded hempty), fun d => ?_⟩
  have hone : Coded [d] [d] [0x30] := hempty.fresh rfl (by simp)
  exact exec_pt2str_of_some s (by simp) (trainToken_of_coded hone)

theorem not_near_iff (x rep : Word) :
    ¬ (((x.toNat / 50 : Nat) : Int) - ((rep.toNat / 50 : Nat) : Int)).natAbs ≤ 2 ↔ typeMatches x rep = false := by
  rw [← typeMatches_iff, Bool.not_eq_true]

/-- Settles O53: what the loop makes of a train, by `Coded`, in the statement's words. -/
theorem pt2strCodesNameTypes : Obligations.Pt2strCodesNameTypes := by
  intro s p types codes hp hloop near token
  have h := coded_iff.mpr hloop
  refine ⟨exec_pt2str_of_some s hp ((trainToken_of_coded h).trans (congrArg some (tokenText_eq types codes))),
    h.types_length, h.codes_length, fun t ht => h.types_subset ht,
    h.typesApart.imp fun hab => (not_near_iff _ _).mpr hab, fun k x ch hx hch => ?_⟩
  obtain ⟨t, ht, hf, rfl⟩ := h.code hx hch
  obtain ⟨⟨rep, hrep, hnear⟩, hfirst⟩ := findType_eq_some types x t hf
  rw [indexChar_toNat ht, Nat.add_sub_cancel_left]
  exact ⟨Nat.le_add_right 48 t, ⟨rep, hrep, (typeMatches_iff _ _).mp hnear⟩,
    fun i hi rep hr => (not_near_iff _ _).mpr (hfirst i hi rep hr), h.firstUse_of_code hf hx hch⟩

theorem trainToken_ne_nil {p : Train} {token : Text} (h : trainToken p = some token) : token ≠ [] := by
  rw [trainToken] at h
  split at h <;> cases h
  exact List.cons_ne_nil _ _

theorem packText_ne_nil {t : Text} (h : t ≠ []) : packText t ≠ [] := by
  rw [← List.length_pos_iff] at h ⊢
  rw [packText_length, textWords]
  omega

/-- Result frames with different payloads are different answers. -/
theorem answer_payload_inj {r r' : Word} {out out' : List Word} {s : State} (h : answer r out s = answer r' out' s) :
    out = out' := by
  have hres : s.results ++ [⟨r, out⟩] = s.results ++ [⟨r', out'⟩] := congrArg State.results h
  exact congrArg Result.payload (List.cons.inj (List.append_cancel_left hres)).1

/-- Settles O54: the loop stops at a 17th type alone, and a token's payload is not empty. -/
theorem pt2strTooManyTypes : Obligations.Pt2strTooManyTypes := by
  intro s p hp near
  have hnone : trainToken p = none ↔ ∃ q x rest types codes, p = q ++ x :: rest ∧
      codePulses [] [] q = some (types, codes) ∧ types.length = 16 ∧ ∀ t ∈ types, ¬ near x t := by
    simp only [trainToken_eq_none, codePulses_eq_none, findType_eq_none, near, not_near_iff]
  rw [← hnone]
  refine ⟨exec_pt2str_of_none s hp, fun h => Option.eq_none_iff_forall_ne_some.mpr fun token htok => ?_⟩
  rw [exec_pt2str_of_some s hp htok] at h
  exact packText_ne_nil (trainToken_ne_nil htok) (answer_payload_inj (Host.Outcome.next.inj h))

end Sys2Proof.Machine
end

section
/-! PROOFS. The statements of 46_text_codec.md on STR2PT: the type list, the code section and the markers (R280 to
R286), and the round trip (R278). -/

namespace Sys2Proof.Machine

/-! ## The type list (R280, R283) -/

theorem isDigit_eq_false {ch : Byte} (h : ¬ (48 ≤ ch.toNat ∧ ch.toNat ≤ 57)) : isDigit ch = false := by
  rwa [← isDigit_iff, Bool.not_eq_true] at h

/-- The table after some more numbers are pushed onto it, each read from its digits (R283). -/
def pushNumbers (types : List Word) (numbers : List Text) : Option (List Word) :=
  numbers.foldlM (fun table n => pushType table (digitsValue 0 n)) types

/-- A number fits if it has at most 32 bits and the table has room (R283). -/
theorem pushType_eq (types : List Word) (v : Nat) :
    pushType types v = if v < 2 ^ 32 ∧ types.length ≠ 16 then some (types ++ [BitVec.ofNat 32 v]) else none := by
  simp only [pushType, ← Nat.not_lt, ne_eq, ite_not, ite_and]

theorem pushNumbers_cons (types : List Word) (n : Text) (numbers : List Text) :
    pushNumbers types (n :: numbers) =
      (pushType types (digitsValue 0 n)).bind fun table => pushNumbers table numbers := List.foldlM_cons

theorem pushNumbers_concat (types : List Word) (numbers : List Text) (n : Text) :
    pushNumbers types (numbers ++ [n]) =
      (pushNumbers types numbers).bind fun table => pushType table (digitsValue 0 n) := by
  simp [pushNumbers, List.foldlM_append]

/-- Numbers fit if each has at most 32 bits and the table has room for them all (R283). -/
theorem pushNumbers_eq_some {types : List Word} {numbers : List Text} (hroom : types.length + numbers.length ≤ 16)
    (hfit : ∀ n ∈ numbers, digitsValue 0 n < 2 ^ 32) :
    pushNumbers types numbers = some (types ++ numbers.map fun n => BitVec.ofNat 32 (digitsValue 0 n)) := by
  induction numbers generalizing types with
  | nil => exact congrArg some (List.append_nil types).symm
  | cons n numbers ih =>
    rw [List.length_cons] at hroom
    rw [pushNumbers_cons, pushType_eq, if_pos ⟨hfit n List.mem_cons_self, by omega⟩, Option.bind_some,
      ih (by simp; omega) fun m hm => hfit m (List.mem_cons_of_mem _ hm), List.append_assoc]
    rfl

theorem pushNumbers_eq_some_fits {types table : List Word} {numbers : List Text} (hroom : types.length ≤ 16)
    (h : pushNumbers types numbers = some table) :
    types.length + numbers.length ≤ 16 ∧ ∀ n ∈ numbers, digitsValue 0 n < 2 ^ 32 := by
  induction numbers generalizing types with
  | nil => exact ⟨hroom, fun n hn => by cases hn⟩
  | cons n numbers ih =>
    rw [pushNumbers_cons, pushType_eq] at h
    split at h
    · next hfit =>
      obtain ⟨hl, hrest⟩ := ih (by simp; omega) h
      rw [List.length_append, List.length_singleton] at hl
      exact ⟨by rw [List.length_cons]; omega, List.forall_mem_cons.mpr ⟨hfit.1, hrest⟩⟩
    · cases h

/-- The loop over numbers that each have a comma behind them (R280). -/
theorem scanTypes_numbers {numbers : List Text} (h : ∀ n ∈ numbers, n ≠ [] ∧ AllDigits n) (rest : Text)
    (types : List Word) :
    scanTypes ((numbers.map fun n => n ++ [0x2C]).flatten ++ rest) none types =
      (pushNumbers types numbers).bind fun table => scanTypes rest none table := by
  induction numbers generalizing types with
  | nil => rfl
  | cons n numbers ih =>
    obtain ⟨⟨hne, hn⟩, hrest⟩ := List.forall_mem_cons.mp h
    have hcomma : ((n :: numbers).map fun n => n ++ [0x2C]).flatten ++ rest =
        n ++ chComma :: ((numbers.map fun n => n ++ [0x2C]).flatten ++ rest) := by simp [chComma]
    rw [hcomma, scanTypes_number n _ types hn hne, scanTypes_comma, pushNumbers_cons]
    cases pushType types (digitsValue 0 n) with
    | none => rfl
    | some table => exact ih hrest table

/-- A digit starts a number, or continues the one at hand (R280). -/
theorem scanTypes_digit {ch : Byte} (h : isDigit ch = true) (rest : Text) (number : Option Nat) (types : List Word) :
    scanTypes (ch :: rest) number types = scanTypes rest (some (10 * number.getD 0 + digitValue ch)) types := by
  cases number <;> exact if_pos h

/-- Where a number must start and no digit does, the list is malformed (R283). -/
theorem scanTypes_no_number {ch : Byte} (h : isDigit ch = false) (rest : Text) (types : List Word) :
    scanTypes (ch :: rest) none types = none := by
  simp [scanTypes, h]

/-- A byte after a number that is no digit, comma or '@' makes the list malformed (R283). -/
theorem scanTypes_bad_end {ch : Byte} (h : isDigit ch = false) (hcomma : ch ≠ 0x2C) (hat : ch ≠ 0x40) (rest : Text)
    (v : Nat) (types : List Word) : scanTypes (ch :: rest) (some v) types = none := by
  simp only [scanTypes, h, chAt, chComma, hcomma, hat]
  cases pushType types v <;> rfl

/-- A list that no '@' closes is malformed (R282). -/
theorem scanTypes_unclosed {list : Text} (h : 0x40 ∉ list) (number : Option Nat) (types : List Word) :
    scanTypes list number types = none := by
  induction list generalizing number types with
  | nil => rfl
  | cons ch list ih =>
    obtain ⟨hch, hlist⟩ := List.ne_and_not_mem_of_not_mem_cons h
    cases hd : isDigit ch with
    | true => rw [scanTypes_digit hd, ih hlist]
    | false =>
      cases number with
      | none => exact scanTypes_no_number hd _ _
      | some v =>
        by_cases hcomma : ch = chComma
        · rw [hcomma, scanTypes_comma]
          cases pushType types v with
          | none => rfl
          | some table => exact ih hlist none table
        · exact scanTypes_bad_end hd hcomma (Ne.symm hch) _ _ _

/-- The table of a list that does not start with '@' is what the loop reads. -/
theorem typeTable_eq_scanTypes {list : Text} (h : list.head? ≠ some 0x40) :
    typeTable list = scanTypes list none [] := by
  cases list with
  | nil => rfl
  | cons ch rest => exact if_neg fun hch => h (congrArg some hch)

/-- A number starts with a digit, so not with '@'. -/
theorem head?_append_of_digits {n : Text} (hne : n ≠ []) (hn : AllDigits n) (rest : Text) :
    (n ++ rest).head? ≠ some 0x40 := by
  cases n with
  | nil => exact absurd rfl hne
  | cons ch n =>
    intro h
    have := (hn ch List.mem_cons_self).2
    rw [Option.some.inj h] at this
    contradiction

/-- A list that starts with a number and its comma does not start with '@'. -/
theorem head?_numbers {numbers : List Text} (h : ∀ n ∈ numbers, n ≠ [] ∧ AllDigits n) (rest : Text)
    (hrest : numbers = [] → rest.head? ≠ some 0x40) :
    ((numbers.map fun n => n ++ [0x2C]).flatten ++ rest).head? ≠ some 0x40 := by
  cases numbers with
  | nil => exact hrest rfl
  | cons n numbers =>
    obtain ⟨⟨hne, hn⟩, -⟩ := List.forall_mem_cons.mp h
    rw [List.map_cons, List.flatten_cons, List.append_assoc, List.append_assoc]
    exact head?_append_of_digits hne hn _

/-- Single commas between texts are a comma behind each but the last. -/
theorem flatten_intersperse_concat (init : List Text) (last : Text) :
    ((init ++ [last]).intersperse [0x2C]).flatten = (init.map fun n => n ++ [0x2C]).flatten ++ last := by
  induction init with
  | nil => simp
  | cons n init ih =>
    cases init with
    | nil => simp
    | cons m init => simpa using ih

/-- The table of a list of numbers, whatever follows its '@' (R280, R283). -/
theorem typeTable_numbers {numbers : List Text} (hne : numbers ≠ []) (h : ∀ n ∈ numbers, n ≠ [] ∧ AllDigits n)
    (after : Text) :
    typeTable ((numbers.intersperse [0x2C]).flatten ++ 0x40 :: after) = pushNumbers [] numbers := by
  obtain ⟨init, last, rfl⟩ := (List.eq_nil_or_concat' numbers).resolve_left hne
  obtain ⟨hinit, hlast⟩ := List.forall_mem_append.mp h
  obtain ⟨hlne, hl⟩ := hlast last (List.mem_singleton_self _)
  rw [flatten_intersperse_concat, List.append_assoc,
    typeTable_eq_scanTypes (head?_numbers hinit _ fun _ => head?_append_of_digits hlne hl _),
    scanTypes_numbers hinit, pushNumbers_concat]
  congr 1
  funext table
  rw [scanTypes_number last _ table hl hlne]
  exact scanTypes_at _ _ _

/-! ## The code section (R281, R284) -/

/-- A byte of the code section that names an entry of a table of the given size. -/
def NamesEntry (size : Nat) (ch : Byte) : Prop :=
  48 ≤ ch.toNat ∧ ch.toNat - 48 < size ∧ ch ≠ 0x3B ∧ ch ≠ 0x40

/-- The entries a text of codes names (R281). -/
def namedEntries (types : List Word) (codes : Text) : Train := codes.map fun ch => types.getD (ch.toNat - 48) 0

/-- The code loop reads codes that name entries, as far as maxlen goes, and goes on behind them (R281). -/
theorem readCodes_append {types : List Word} {good : Text} (h : ∀ g ∈ good, NamesEntry types.length g)
    (maxlen : Nat) (rest : Text) : readCodes types maxlen (good ++ rest) =
      (readCodes types (maxlen - good.length) rest).map (namedEntries types (good.take maxlen) ++ ·) := by
  induction good generalizing maxlen with
  | nil => simp [namedEntries]
  | cons g good ih =>
    cases maxlen with
    | zero => cases rest <;> simp [readCodes, namedEntries]
    | succ maxlen =>
      obtain ⟨⟨hlow, hlt, hsemi, hat⟩, hgood⟩ := List.forall_mem_cons.mp h
      rw [List.cons_append, readCodes_code types maxlen g _ types[g.toNat - 48] hsemi hat hlow
        (List.getElem?_eq_getElem hlt), ih hgood, List.length_cons, Nat.add_sub_add_right, Option.map_map]
      congr 1
      funext out
      simp [namedEntries, hlt]

/-- A byte that is no end of the section and names no entry is a format error, once it is reached (R284). -/
theorem readCodes_bad {types : List Word} {maxlen : Nat} {ch : Byte} (hreach : maxlen ≠ 0) (hsemi : ch ≠ 0x3B)
    (hat : ch ≠ 0x40) (hout : ch.toNat < 48 ∨ 48 + types.length ≤ ch.toNat) (rest : Text) :
    readCodes types maxlen (ch :: rest) = none := by
  obtain ⟨n, rfl⟩ := Nat.exists_eq_succ_of_ne_zero hreach
  simp only [readCodes, chSemicolon, chAt, hsemi, hat, or_self, if_false]
  split
  · rfl
  · rw [List.getElem?_eq_none (by omega)]

theorem readCodes_append_bad {types : List Word} {maxlen : Nat} {good : Text} {ch : Byte}
    (h : ∀ g ∈ good, NamesEntry types.length g) (hreach : good.length < maxlen) (hsemi : ch ≠ 0x3B) (hat : ch ≠ 0x40)
    (hout : ch.toNat < 48 ∨ 48 + types.length ≤ ch.toNat) (rest : Text) :
    readCodes types maxlen (good ++ ch :: rest) = none := by
  rw [readCodes_append h, readCodes_bad (Nat.sub_ne_zero_of_lt hreach) hsemi hat hout]
  rfl

/-- Settles O58: each clause by what the loops do at the byte in question. -/
theorem tokenGrammar : Obligations.TokenGrammar := by
  refine ⟨fun numbers after hne h => ?_, fun _ => rfl, fun numbers ch rest h hch hat => ?_,
    fun numbers last ch rest h hch hcomma hat => ?_, fun list h => ?_,
    fun types maxlen good ch rest h hreach hsemi hat hout => readCodes_append_bad h hreach hsemi hat hout rest⟩
  · intro value list
    have htable : typeTable list = pushNumbers [] numbers := typeTable_numbers hne h after
    rw [htable]
    refine ⟨fun ⟨hroom, hfit⟩ => ?_, fun hbad => Option.eq_none_iff_forall_ne_some.mpr fun table hpush => hbad ?_⟩
    · exact pushNumbers_eq_some (by simpa using hroom) hfit
    · obtain ⟨hroom, hfit⟩ := pushNumbers_eq_some_fits (Nat.zero_le _) hpush
      exact ⟨by simpa using hroom, hfit⟩
  · have hhead := head?_numbers h (ch :: rest) fun hnil he => hat hnil (Option.some.inj he)
    rw [typeTable_eq_scanTypes hhead, scanTypes_numbers h]
    simp only [scanTypes_no_number (isDigit_eq_false hch)]
    exact Option.bind_fun_none _
  · obtain ⟨⟨hlne, hl⟩, hnumbers⟩ := List.forall_mem_cons.mp h
    have hhead := head?_numbers hnumbers (last ++ ch :: rest) fun _ => head?_append_of_digits hlne hl _
    rw [List.append_assoc, typeTable_eq_scanTypes hhead, scanTypes_numbers hnumbers]
    simp only [scanTypes_number last _ _ hl hlne, scanTypes_bad_end (isDigit_eq_false hch) hcomma hat]
    exact Option.bind_fun_none _
  · rw [typeTable_eq_scanTypes fun he => h (List.mem_of_head? he), scanTypes_unclosed h]

/-! ## Tokens (R280, R282) -/

/-- A text with both markers is decoded by its type list, then by its codes. -/
theorem tokenTrain_of_markers {token codes list : Text} (hc : afterMarker chC chColon token = some codes)
    (hp : afterMarker chP chColon token = some list) (maxlen : Nat) :
    tokenTrain token maxlen = (typeTable list).bind fun types => readCodes types maxlen codes := by
  simp only [tokenTrain, hc, hp]
  cases typeTable list <;> rfl

/-- A text without one of the markers is a format error (R282). -/
theorem tokenTrain_no_marker {token : Text} (h : ¬ [chC, chColon] <:+: token ∨ ¬ [chP, chColon] <:+: token)
    (maxlen : Nat) : tokenTrain token maxlen = none := by
  rw [← afterMarker_eq_none, ← afterMarker_eq_none] at h
  rw [tokenTrain]
  rcases h with h | h <;> rw [h]
  cases afterMarker chC chColon token <;> rfl

/-- A malformed type list is a format error, whatever the codes (R283). -/
theorem tokenTrain_bad_list {token list : Text} (hp : afterMarker chP chColon token = some list)
    (hlist : typeTable list = none) (maxlen : Nat) : tokenTrain token maxlen = none := by
  cases hc : afterMarker chC chColon token with
  | none => rw [tokenTrain, hc]
  | some codes =>
    rw [tokenTrain_of_markers hc hp, hlist]
    rfl

/-- STR2PT of a text within TXT_MAX answers the pulses it is decoded to (R280). -/
theorem exec_str2pt_of_some {s : State} {token : Text} {maxlen : Word} {out : Train}
    (hlen : token.length ≤ s.cfg.txtMax.toNat) (h : tokenTrain token maxlen.toNat = some out) :
    exec (.str2pt token maxlen) s = .next (answer (BitVec.ofNat 32 out.length) out s) := by
  refine (if_pos ((textOk_iff _ _).mpr hlen)).trans ?_
  rw [h]
  rfl

/-- STR2PT of a text within TXT_MAX that is no token answers E_FORMAT (R282 to R284). -/
theorem exec_str2pt_of_none {s : State} {token : Text} {maxlen : Word} (hlen : token.length ≤ s.cfg.txtMax.toNat)
    (h : tokenTrain token maxlen.toNat = none) :
    exec (.str2pt token maxlen) s = .next (answer (BitVec.ofInt 32 (-4)) [] s) := by
  refine (if_pos ((textOk_iff _ _).mpr hlen)).trans ?_
  rw [h]
  rfl

theorem readCodes_zero (types : List Word) (codes : Text) : readCodes types 0 codes = some [] := by
  cases codes <;> rfl

/-- Settles O57: each clause by the part of the text at which the decoder stops. -/
theorem str2ptFormatErrors : Obligations.Str2ptFormatErrors := by
  intro s token maxlen hlen
  refine ⟨fun h => exec_str2pt_of_none hlen (tokenTrain_no_marker h _), fun pre list htok hfirst hlist => ?_,
    fun pre list types htok hfirst hlist => ⟨fun before good ch rest htok' hfirst' h hreach hsemi hat hout => ?_,
      fun hc => ?_⟩⟩ <;>
    have hp : afterMarker chP chColon token = some list := htok ▸ afterMarker_first _ _ (by decide) pre list hfirst
  · exact exec_str2pt_of_none hlen (tokenTrain_bad_list hp hlist _)
  · have hc : afterMarker chC chColon token = some (good ++ ch :: rest) := by
      rw [htok', List.append_assoc]
      exact afterMarker_first _ _ (by decide) before _ hfirst'
    refine exec_str2pt_of_none hlen ?_
    rw [tokenTrain_of_markers hc hp, hlist]
    exact readCodes_append_bad h hreach hsemi hat hout rest
  · obtain ⟨codes, hcodes⟩ : ∃ codes, afterMarker chC chColon token = some codes :=
      Option.ne_none_iff_exists'.mp fun hnone => (afterMarker_eq_none _ _ _).mp hnone hc
    refine exec_str2pt_of_some hlen (out := []) ?_
    rw [tokenTrain_of_markers hcodes hp, hlist]
    exact readCodes_zero types codes

/-- Bytes other than the marker's first are skipped (R282). -/
theorem afterMarker_append {a : Byte} {before : Text} (h : a ∉ before) (b : Byte) (rest : Text) :
    afterMarker a b (before ++ rest) = afterMarker a b rest := by
  induction before with
  | nil => rfl
  | cons x before ih =>
    obtain ⟨hx, hbefore⟩ := List.ne_and_not_mem_of_not_mem_cons h
    rw [List.cons_append, afterMarker_skip a b x _ hx.symm, ih hbefore]

/-- The type list of a token gives the types back, if the table has room for them (R275, R283). -/
theorem typeTable_typeText {types : List Word} (h : types.length ≤ 16) :
    typeTable (typeText types ++ [chAt]) = some types := by
  by_cases hne : types = []
  · rw [hne]
    rfl
  · rw [typeText_eq]
    refine (typeTable_numbers (by simpa using hne) (List.forall_mem_map.mpr fun t _ =>
      ⟨decimalText_ne_nil t.toNat, decimalText_digits t.toNat⟩) []).trans ?_
    have hvalue (t : Word) : digitsValue 0 (decimalText t.toNat) = t.toNat := decimalText_value t.toNat
    rw [pushNumbers_eq_some (by simpa using h) (List.forall_mem_map.mpr fun t _ => (hvalue t).trans_lt t.isLt)]
    simp [hvalue, Function.comp_def]

/-- A token is decoded to the entries its codes name, cut at maxlen (R275, R280, R281). -/
theorem tokenTrain_tokenText {types : List Word} {codes : Text} (hroom : types.length ≤ 16)
    (h : ∀ ch ∈ codes, NamesEntry types.length ch) (maxlen : Nat) :
    tokenTrain (tokenText types codes) maxlen = some (namedEntries types (codes.take maxlen)) := by
  have hc : afterMarker chC chColon (tokenText types codes) =
      some (codes ++ chSemicolon :: ([chP, chColon] ++ typeText types ++ [chAt])) := by
    refine (afterMarker_here chC chColon _).trans (congrArg some ?_)
    simp
  have hp : afterMarker chP chColon (tokenText types codes) = some (typeText types ++ [chAt]) := by
    have hbefore : chP ∉ [chC, chColon] ++ codes ++ [chSemicolon] := by
      rw [List.mem_append, List.mem_append, not_or, not_or]
      refine ⟨⟨by decide, fun hin => ?_⟩, by decide⟩
      obtain ⟨_, hlt, _⟩ := h chP hin
      exact absurd (hlt.trans_le hroom) (by decide)
    have htok : tokenText types codes =
        ([chC, chColon] ++ codes ++ [chSemicolon]) ++ chP :: chColon :: (typeText types ++ [chAt]) := by
      simp [tokenText]
    rw [htok, afterMarker_append hbefore, afterMarker_here]
  rw [tokenTrain_of_markers hc hp, typeTable_typeText hroom, Option.bind_some, readCodes_append h,
    readCodes_end _ _ _ _ (.inl rfl), Option.map_some, List.append_nil]

/-- Settles O56: a table of at most 16 entries has none that '@' names. -/
theorem str2ptReadsTokens : Obligations.Str2ptReadsTokens := by
  intro s types codes maxlen hroom h token hlen out
  refine exec_str2pt_of_some hlen ?_
  have htok : token = tokenText types codes := (tokenText_eq types codes).symm
  rw [htok]
  refine tokenTrain_tokenText hroom (fun ch hch => ?_) _
  obtain ⟨hlow, hlt, hsemi⟩ := h ch hch
  refine ⟨hlow, hlt, hsemi, ?_⟩
  rintro rfl
  exact absurd (hlt.trans_le hroom) (by decide)

/-! ## The round trip (R278) -/

/-- The first entries of a longer table are named by the same codes. -/
theorem Coded.namedEntries_concat_types {p : Train} {types : List Word} {codes : Text} (h : Coded p types codes)
    (x : Word) : namedEntries (types ++ [x]) codes = namedEntries types codes := by
  refine List.map_congr_left fun ch hch => ?_
  obtain ⟨t, ht, rfl⟩ := h.codes_mem hch
  rw [indexChar_toNat (ht.trans_le h.types_length)]
  simp [ht, List.getElem?_append_left]

theorem namedEntries_concat {types : List Word} {t : Nat} (codes : Text) (hroom : types.length ≤ 16)
    (ht : t < types.length) : namedEntries types (codes ++ [indexChar t]) = namedEntries types codes ++ [types[t]] := by
  simp [namedEntries, indexChar_toNat (ht.trans_le hroom), ht]

/-- The pulses a train's codes name have the same types and the same codes (R278). -/
theorem Coded.of_namedEntries {p : Train} {types : List Word} {codes : Text} (h : Coded p types codes) :
    Coded (namedEntries types codes) types codes := by
  induction h with
  | nil => exact .nil
  | @seen p types codes x t hp hf ih =>
    rw [namedEntries_concat codes hp.types_length (findType_lt hf)]
    exact ih.seen (findType_getElem hp.typesApart (findType_lt hf))
  | @fresh p types codes x hp hf hroom ih =>
    have hnext := (hp.fresh hf hroom).types_length
    rw [namedEntries_concat codes hnext (by simp), hp.namedEntries_concat_types, List.getElem_concat_length rfl]
    exact ih.fresh hf hroom

/-- Settles O55: with at most 11 types no code is ';', so the whole train comes back as its types. -/
theorem textCodecRoundTrip : Obligations.TextCodecRoundTrip := by
  intro p types codes maxlen hloop hfew hmax token
  have h := coded_iff.mpr hloop
  have htok : token = tokenText types codes := (tokenText_eq types codes).symm
  have hnames : ∀ ch ∈ codes, NamesEntry types.length ch := by
    intro ch hch
    obtain ⟨t, ht, rfl⟩ := h.codes_mem hch
    have hnat : (indexChar t).toNat = 48 + t := indexChar_toNat (by omega)
    exact ⟨by omega, by omega, by bv_omega, by bv_omega⟩
  rw [htok]
  refine ⟨trainToken_of_coded h, namedEntries types codes, ?_, ?_, trainToken_of_coded h.of_namedEntries⟩
  · rw [tokenTrain_tokenText h.types_length hnames, List.take_of_length_le (h.codes_length.trans_le hmax)]
  · rw [namedEntries, List.length_map, h.codes_length]

end Sys2Proof.Machine
end

section
/-! PROOFS. The statements of 60_exceptions.md: the error codes (R300). -/

namespace Sys2Proof.Machine

/-- The error codes are small negative numbers (R300). -/
theorem errorValue_bounds (e : ErrorCode) : -6 ≤ errorValue e ∧ errorValue e < 0 := by
  cases e <;> decide

/-- RES of an error reads, in two's complement, as the error's value (R84). -/
theorem errorWord_toInt (e : ErrorCode) : (errorWord e).toInt = errorValue e := by
  obtain ⟨hlow, hneg⟩ := errorValue_bounds e
  exact BitVec.toInt_ofInt_eq_self (by decide) (by omega) (by omega)

/-- Settles O7: each code's word reads as the code's value. -/
theorem errorCodeValues : Obligations.ErrorCodeValues :=
  ⟨errorWord_toInt .malformed, errorWord_toInt .noProto, errorWord_toInt .create,
    errorWord_toInt .format, errorWord_toInt .illegal, errorWord_toInt .operand⟩

end Sys2Proof.Machine
end

section
/-! PROOFS. The statements of 70_reset_and_hazards.md: the reset values and the reset event (R330, R331), and
that no step stops but an ENCODE whose create overruns (R225, R338). -/

namespace Sys2Proof.Machine

open Sys2Proof.Config (Instantiation Doc)

/-! ## Steps that stop (R225, R338) -/

/-- Where the creates fit, no create of a descriptor the search finds overruns (R6, R225). -/
theorem CreatesFit.createOverruns_eq_false {c : Instantiation} (hfit : CreatesFit c) {id : Text} {capacity : Word}
    {e : Encoder} (hf : findEncoder id capacity 0 c.protocols = some e) {d : Doc} {r : Train}
    (hr : applyFn e.create d = some r) : createOverruns e r = false := by
  obtain ⟨P, hP, hcreate, hmax⟩ := findEncoder_mem _ _ _ _ _ hf
  obtain ⟨hlen, hcap⟩ := hfit P hP e.create hcreate d r hr
  rw [hmax] at hlen
  exact decide_eq_false (not_or.mpr ⟨Nat.not_lt.mpr hlen, Nat.not_lt.mpr hcap⟩)

/-- Where the creates fit, ENCODE answers (R225). -/
theorem CreatesFit.execEncode_ne_fault {s : State} (hfit : CreatesFit s.cfg) (id msg : Text) (capacity : Word)
    (f : Fault) : execEncode id msg capacity s ≠ .fault f := by
  intro hx
  unfold execEncode at hx
  rcases onWellFormed_cases (.encode id msg capacity) s (encodeCommand id msg capacity s) with
    ⟨_, e⟩ | ⟨_, e⟩ <;> rw [e] at hx
  · rcases encodeCommand_cases id msg capacity s with
      ⟨_, e⟩ | ⟨_, ⟨_, e⟩ | ⟨enc, hf, ⟨_, e⟩ | ⟨r, hr, ⟨ho, _⟩ | ⟨_, e⟩⟩⟩⟩
    case inr.inr.inr.inl =>
      rw [hfit.createOverruns_eq_false hf hr] at ho
      cases ho
    all_goals cases e.symm.trans hx
  · cases hx

/-- An instruction answers a next state, or is an ENCODE that faults on its create (R225). -/
theorem exec_stops (i : Instr) (s : State) :
    (∃ t, exec i s = .next t) ∨
      ∃ id msg capacity, i = .encode id msg capacity ∧ exec i s = .fault .createOverrun := by
  cases i with
  | encode id msg capacity =>
    exact (execEncode_stops id msg capacity s).imp_right fun e => ⟨id, msg, capacity, rfl, e⟩
  | crr n => exact .inl ((execCrr_frame n s).imp fun _ => And.left)
  | crw n v => exact .inl ((execCrw_frame n v s).imp fun _ => And.left)
  | nextlen => exact .inl ((execNextlen_frame s).imp fun _ => And.left)
  | recv => exact .inl ((execRecv_frame s).imp fun _ => And.left)
  | decode T => exact .inl ((execDecode_frame T s).imp fun _ => And.left)
  | tx n T => exact .inl ((execTx_frame n T s).imp fun _ => And.left)
  | limit ids => exact .inl ((execLimit_frame ids s).imp fun _ => And.left)
  | pt2str T => exact .inl ((execPt2str_frame T s).imp fun _ => And.left)
  | str2pt token maxlen => exact .inl ((execStr2pt_frame token maxlen s).imp fun _ => And.left)
  | edge now => exact .inl ((execEdge_frame now s).imp fun _ => And.left)

/-- A step answers a next state, or runs an ENCODE frame that faults on its create (R225). -/
theorem step_stops (s : State) :
    SafeStep s ∨ ∃ cmd args rest id msg capacity, s.inputs = .frame cmd args :: rest ∧
      decodeFrame s.cfg.txtMax cmd args = .ok (.encode id msg capacity) ∧
      step s = execEncode id msg capacity { s with inputs := rest } ∧ step s = .fault .createOverrun := by
  rcases step_cases s with ⟨_, e⟩ | ⟨cmd, args, rest, i, hin, hd, _, e⟩ | ⟨_, _, _, _, _, _, e⟩ |
    ⟨_, _, _, e⟩ | ⟨_, _, e⟩
  case inr.inl =>
    rcases exec_stops i { s with inputs := rest } with ⟨t, hx⟩ | ⟨id, msg, capacity, rfl, hx⟩
    · exact .inl ⟨t, e.trans hx⟩
    · exact .inr ⟨cmd, args, rest, id, msg, capacity, hin, hd, e, e.trans hx⟩
  all_goals exact .inl ⟨_, e⟩

/-- Settles O15: the one step that stops runs an ENCODE that overruns, and where the creates fit none does. -/
theorem stepsNeverHang : Obligations.StepsNeverHang := by
  refine ⟨fun s hfit => (step_stops s).resolve_right ?_, fun s r hr => ?_, fun s f hf => ?_⟩
  · rintro ⟨_, _, rest, id, msg, capacity, _, _, hrun, hfault⟩
    have hfit' : CreatesFit { s with inputs := rest }.cfg := hfit
    exact hfit'.execEncode_ne_fault id msg capacity _ (hrun.symm.trans hfault)
  · rcases step_stops s with ⟨_, e⟩ | ⟨_, _, _, _, _, _, _, _, _, e⟩ <;> cases e.symm.trans hr
  · rcases step_stops s with ⟨_, e⟩ | ⟨cmd, args, rest, id, msg, capacity, hin, hd, _, _⟩
    · cases e.symm.trans hf
    · exact ⟨cmd, args, rest, id, msg, capacity, hin, hd⟩

/-! ## Reset (R330, R331) -/

/-- Every descriptor's state is the reset one at reset (R36). -/
@[simp] theorem dsAt_resetWith (c : Instantiation) (j : Nat) : dsAt (State.resetWith c) j = DescState.reset :=
  List.getElem?_getD_replicate_default_eq DescState.reset c.nproto j

/-- ACTIVE names every descriptor at reset, so its length, register 11, is NPROTO (R34, R37). -/
theorem active_length_resetWith (c : Instantiation) : (State.resetWith c).active.length = c.nproto :=
  List.length_range

/-- Settles O13: the fields stand in `State.resetWith`; DS, the lengths and ACTIVE_N follow from its lists. -/
theorem resetValues : Obligations.ResetValues := by
  intro c s
  have hactive : readCR s 11 = some (BitVec.ofNat 32 c.protocols.length) :=
    congrArg (fun n => some (BitVec.ofNat 32 n)) (active_length_resetWith c)
  exact ⟨rfl, rfl, rfl, rfl, rfl, rfl, rfl, rfl, rfl, rfl, rfl, rfl, rfl, hactive, rfl, lenRead_resetWith c,
    List.length_replicate, dsAt_resetWith c, rfl, rfl, rfl, rfl⟩

/-- Settles O14: the step on a reset input is the reset event. -/
theorem resetEventRestarts : Obligations.ResetEventRestarts :=
  ⟨fun _ _ hin => step_reset hin, rfl⟩

end Sys2Proof.Machine
end
